-- ==== Sys2Proof/Word.lean ====
section
/-! DEFINITION. The two word types of the engine: the 32-bit bus word (rule R4) and the 8-bit byte
(rule R5). -/

namespace Sys2Proof

/-- One host-visible register, or one word the bus carries (rule R4). -/
abbrev Word := BitVec 32

/-- An input byte, an output byte or an encoded symbol (rule R5). -/
abbrev Byte := BitVec 8

end Sys2Proof
end

