-- ==== Sys2Proof/Config.lean ====
section
/-! DEFINITION. What an implementation or its platform fixes (the parameters IN_CAP, BASE and the
latency of a job), and the free values: the bytes the spec calls unspecified. -/

namespace Sys2Proof

/-- IN_CAP, the capacity of the input buffer in bytes, with the bounds of rule R2 carried along. -/
abbrev InCap := { n : Nat // 1 ≤ n ∧ n ≤ 2 ^ 24 }

/-- How long a job takes (rule R217, an open parameter; rule R35 allows the first choice). -/
inductive Pacing where
  /-- A job runs from its accept to its completion in the one step that issues the command. -/
  | atomic
  /-- A command only starts its job. Each later engine cycle consumes one input byte or ends the job,
  and host accesses may come between the cycles, in any number. -/
  | clocked
deriving DecidableEq, Repr

/-- The parameters of one engine instance. No command and no access changes them. -/
structure Params where
  /-- IN_CAP (rule R2). -/
  inCap : InCap
  /-- BASE, the host byte address of offset 0 of the register map (decision D4). -/
  base : Nat
  /-- The model's form of the open latency (rule R217). -/
  pacing : Pacing
deriving DecidableEq, Repr

/-- The parameters of `State.reset`. DESIGN CHOICE (log entry 1): IN_CAP is the 256 that every program
of 95_test_vectors.md uses, BASE is 0 and a job is one step. No statement about all states rests on
these three values. -/
def Params.default : Params := ⟨⟨256, by decide⟩, 0, .atomic⟩

/-- The free value of byte `i` of IN that nothing has written since the reset numbered `epoch`
(rule R210 and decision D35: any value, fixed until written). No body: nothing can be proved of it. -/
opaque Config.inByte (epoch i : Nat) : Byte

/-- The free value of byte `i` of OUT where rule R32 leaves it unspecified, outside a job. `epoch`
numbers the event that last made OUT unspecified. -/
opaque Config.outByte (epoch i : Nat) : Byte

/-- The free value a read of byte `i` of OUT returns while an ENCODE or DECODE is in progress
(rule R32). `draw` numbers the engine's cycles, so that each cycle may show another value. -/
opaque Config.outByteDuringJob (draw i : Nat) : Byte

end Sys2Proof
end

