-- ==== Sys2Proof/Syntax.lean ====
section
/-! DEFINITION. The commands of NB64-CMD version 1: one constructor for each row of the opcode table.
A command has no operand field (rule R72): its operands are registers of the engine. -/

namespace Sys2Proof

/-- The five commands a host may write to CMD (rule R71). -/
inductive Instr where
  /-- NOP, the all-zero word: no effect at all (rules R73, R181). -/
  | nop
  /-- BUILD: build the active table from ALPHA, ALPHA_LEN and DELIM (rule R101). -/
  | build
  /-- LOAD_DEFAULT: install the predefined table (rule R102). -/
  | loadDefault
  /-- ENCODE: encode IN[0..IN_LEN) into OUT (rule R120). -/
  | encode
  /-- DECODE: decode IN[0..IN_LEN) into OUT (rule R150). -/
  | decode
deriving DecidableEq, Repr

end Sys2Proof
end

