-- ==== Sys2Proof/WellFormed.lean ====
section
/-! DEFINITION. Well-formedness. An `Instr` has no field, so every one is well formed; what can be
ill formed is a command WORD, and rule R73 gives the two checks that tell a legal word: the MBZ field
is zero, and the opcode is one of the five of rule R71. -/

namespace Sys2Proof

/-- Every command is well formed: rule R72 gives it no operand field. -/
def Instr.wellFormed : Instr → Bool
  | .nop => true
  | .build => true
  | .loadDefault => true
  | .encode => true
  | .decode => true

/-- Check 1 of a command word: bits 31 to 8, the MBZ field of rule R70, are zero. -/
def mbzClear (w : Word) : Bool := w.extractLsb' 8 24 == 0

/-- Check 2 of a command word: the OPCODE field names a command of rule R71 (0x00 to 0x04). -/
def opcodeAssigned (w : Word) : Bool := (w.extractLsb' 0 8).toNat ≤ 4

/-- A command word is legal when it passes both checks (rule R73). -/
def commandWordLegal (w : Word) : Bool := mbzClear w && opcodeAssigned w

end Sys2Proof
end

