-- ==== Sys2Proof/Decode.lean ====
section
/-! DEFINITION. The decode of a command word (rule R74), total over all 2^32 words, and the encoder,
written from the opcode map of rule R71. -/

namespace Sys2Proof

/-- Why a command word is illegal (rule R77, the two causes of ILLEGAL_CMD). -/
inductive IllegalCause where
  /-- OPCODE in 0x05 to 0xFF, with MBZ zero. -/
  | reservedOpcode
  /-- Bits 31 to 8 are not zero, whatever the OPCODE. -/
  | mbzSet
deriving DecidableEq, Repr

/-- What a command word stands for: a command, or an illegal word with its cause (rule R73 leaves no
third kind). -/
inductive Decoded where
  | instr (i : Instr)
  | illegal (c : IllegalCause)
deriving DecidableEq, Repr

/-- The decode of rule R74, its tests in the order shown there. -/
def decodeCmd (w : Word) : Decoded :=
  if w = 0 then .instr .nop
  else if w.extractLsb' 8 24 ≠ 0 then .illegal .mbzSet
  else
    match (w.extractLsb' 0 8).toNat with
    | 1 => .instr .build
    | 2 => .instr .loadDefault
    | 3 => .instr .encode
    | 4 => .instr .decode
    | _ => .illegal .reservedOpcode

/-- The opcode of a command (rule R71). -/
def opcodeOf : Instr → Byte
  | .nop => 0x00
  | .build => 0x01
  | .loadDefault => 0x02
  | .encode => 0x03
  | .decode => 0x04

/-- The command word of a command: OPCODE in bits 7 to 0 and MBZ zero above (rule R70). -/
def encodeInstr (i : Instr) : Word := (0 : BitVec 24) ++ opcodeOf i

/-- The command the decoder reads from the table's `nbits`-bit word `w`: a command word is ONE 32-bit bus
word, so its bits are the table's bits. `none` where the decoder finds an illegal word. -/
def decodeTableWord (nbits w : Nat) : Option Instr :=
  match decodeCmd (BitVec.ofNat 32 (w % 2 ^ nbits)) with
  | .instr i => some i
  | .illegal _ => none

end Sys2Proof
end

