-- ==== Sys2Proof/Machine/Table.lean ====
section
/-! DEFINITION. The symbol table: the two lookup tables with the delimiter (rules R26, R28, R29), its
installation (rule R100), the predefined alphabet (rule R83) and the two lookups (rules R104, R105).
State holds one `Table`; the jobs of BUILD and LOAD_DEFAULT write it. -/

namespace Sys2Proof.Machine

/-- The active table of rules R26, R28 and R29. -/
structure Table where
  /-- ENC_TBL[0..255]: one symbol byte per index, stored replicated (rule R28). -/
  enc : Vector Byte 256
  /-- DEC_TBL[0..255]: a symbol value, or the sentinel 0xFF, per byte (rule R29). -/
  dec : Vector Byte 256
  /-- TBL_DELIM, the delimiter of the active table (rule R26). -/
  delim : Byte
deriving DecidableEq, Repr

/-- The sentinel INVALID of DEC_TBL (rule R29). -/
def invalidEntry : Byte := 0xFF

/-- The value that the writes `DEC_TBL[a[v]] <- v` of rule R100, done for v rising, leave at index `b`:
`found` until a symbol equals `b`, and the last such v when several do. `v` counts the symbols passed. -/
def lastWritten (b : Nat) : List Byte → Nat → Byte → Byte
  | [], _, found => found
  | x :: xs, v, found => lastWritten b xs (v + 1) (bif x.toNat == b then BitVec.ofNat 8 v else found)

/-- `install(a, d)` of rule R100: the four-fold write of ENC_TBL, then DEC_TBL set to INVALID and
overwritten at the 64 alphabet bytes, then TBL_DELIM. -/
def install (a : Vector Byte 64) (d : Byte) : Table where
  enc := Vector.ofFn fun i => a[i.val % 64]'(Nat.mod_lt _ (by decide))
  dec := Vector.ofFn fun b => lastWritten b.val a.toList 0 invalidEntry
  delim := d

/-- The predefined alphabet: `A` to `Z`, `a` to `z`, `0` to `9`, `-`, `_`, as bytes (rule R83). -/
def predefinedAlphabet : Vector Byte 64 := #v[
  0x41, 0x42, 0x43, 0x44, 0x45, 0x46, 0x47, 0x48, 0x49, 0x4A, 0x4B, 0x4C, 0x4D,
  0x4E, 0x4F, 0x50, 0x51, 0x52, 0x53, 0x54, 0x55, 0x56, 0x57, 0x58, 0x59, 0x5A,
  0x61, 0x62, 0x63, 0x64, 0x65, 0x66, 0x67, 0x68, 0x69, 0x6A, 0x6B, 0x6C, 0x6D,
  0x6E, 0x6F, 0x70, 0x71, 0x72, 0x73, 0x74, 0x75, 0x76, 0x77, 0x78, 0x79, 0x7A,
  0x30, 0x31, 0x32, 0x33, 0x34, 0x35, 0x36, 0x37, 0x38, 0x39, 0x2D, 0x5F]

/-- The predefined delimiter, `.` (rule R83). -/
def predefinedDelim : Byte := 0x2E

/-- The predefined table, as reset and LOAD_DEFAULT install it (rules R102, R210). -/
def predefinedTable : Table := install predefinedAlphabet predefinedDelim

/-- ENC(v) of rule R104: `ENC_TBL[v & 0xFF]`. -/
def Table.symbol (t : Table) (v : Byte) : Byte := t.enc[v.toNat]'v.isLt

/-- DEC(s) of rule R105: `DEC_TBL[s]`, a value 0 to 63 or INVALID. -/
def Table.value (t : Table) (s : Byte) : Byte := t.dec[s.toNat]'s.isLt

/-- The delimiter detector of rule R151. -/
def Table.isDelim (t : Table) (s : Byte) : Bool := s == t.delim

end Sys2Proof.Machine
end

