-- ==== Sys2Proof/Machine/State.lean ====
section
/-! DEFINITION. The state of the engine as plain data: the registers, tables, buffers, phase and working
state of 10_state.md, and, marked as the MODEL's own, the events the platform has still to deliver, the
data of the last host read and the counters that number the free values. -/

namespace Sys2Proof.Machine

/-- The dual-mode selector, and the class of a byte, a run or a segment (rules R34, R121). -/
inductive Mode where
  | low
  | high
deriving DecidableEq, Repr

/-- The working state of an ENCODE or DECODE job (rule R34), each element with its width. -/
structure Work where
  /-- The input cursor: the offset of the next byte or symbol to consume. -/
  i : Word
  /-- The output cursor: how many bytes have been emitted. -/
  o : Word
  /-- The dual-mode selector. -/
  mode : Mode
  /-- The group accumulator. -/
  acc : BitVec 42
  /-- How many values `acc` holds. -/
  cnt : BitVec 3
  /-- DECODE only: how many symbols the current high segment has so far. -/
  hcnt : Word
deriving DecidableEq, Repr

/-- The working state at the start of every job (rule R34, column "initial"). -/
def Work.initial : Work := ⟨0, 0, .low, 0, 0, 0⟩

/-- The work of one accepted command (rule R33). The working state belongs to ENCODE and DECODE. -/
inductive Job where
  | build
  | loadDefault
  | encode (w : Work)
  | decode (w : Work)
  | illegal (c : IllegalCause)
deriving DecidableEq, Repr

/-- The internal phase (rule R33). STATUS.BUSY mirrors it, so the phase is its one home (rule R15). -/
inductive Phase where
  | idle
  | busy (job : Job)
deriving DecidableEq, Repr

/-- A byte buffer: the bytes that hold a known value, as (index, byte) pairs with the indices strictly
rising. An index that is not listed holds an unspecified byte. -/
structure Memory where
  cells : List Host.Cell
deriving DecidableEq, Repr

/-- The buffer in which no byte holds a known value. -/
def Memory.empty : Memory := ⟨[]⟩

/-- What can reach the engine from outside, in the single order in which the platform delivers it
(rules R58, R189), and the engine's own cycles in between. Addresses are host byte addresses. -/
inductive Event where
  /-- A host word read (`RD`, rule R84). -/
  | read (addr : Nat)
  /-- A host word write (`WR`, rule R84). -/
  | write (addr : Nat) (v : Word)
  /-- `POLL addr, mask, v` (rule R84): the host reads again until (value & mask) = v. -/
  | poll (addr : Nat) (mask v : Word)
  /-- One clock cycle of the engine passes: a job in progress advances. -/
  | cycle
  /-- The reset input is asserted (rule R211). -/
  | reset
deriving DecidableEq, Repr

/-- The whole state. -/
structure State where
  /-- IN_CAP, BASE and the latency form: parameters, never changed (rules R2, R27). -/
  params : Params
  /-- CTRL.IRQ_EN (rule R13). -/
  irqEn : Bool
  /-- The internal phase with the job in progress; STATUS.BUSY is its view (rules R15, R33, R34). -/
  phase : Phase
  /-- STATUS.DONE (rule R16). -/
  done : Bool
  /-- STATUS.CODE (rule R17). -/
  code : BitVec 4
  /-- STATUS.CAUSE (rule R18). -/
  cause : BitVec 4
  /-- STATUS.LAST_OP (rule R19). -/
  lastOp : Byte
  /-- IN_LEN (rule R20). -/
  inLen : Word
  /-- OUT_LEN (rule R21). -/
  outLen : Word
  /-- ERR_OFFSET (rule R22). -/
  errOffset : Word
  /-- DELIM, bits 7 to 0; the other bits are reserved (rule R23). -/
  delim : Byte
  /-- ALPHA_LEN (rule R24). -/
  alphaLen : Word
  /-- ALPHA[0..63] (rule R25). -/
  alpha : Vector Byte 64
  /-- The active table: ENC_TBL, DEC_TBL and TBL_DELIM (rules R26, R28, R29). -/
  table : Table
  /-- IN, the bytes written since reset (rule R31). -/
  inMem : Memory
  /-- OUT, the bytes the engine has written (rule R32). -/
  outMem : Memory
  /-- MODEL: the bytes listed in `outMem` are specified, because the last completed ENCODE or DECODE
  succeeded; while it is false every byte of OUT is unspecified (rule R32). -/
  outSpecified : Bool
  /-- MODEL: numbers the reset that gave the unwritten IN bytes their free values. -/
  inEpoch : Nat
  /-- MODEL: numbers the event that gave the unspecified OUT bytes their free values. -/
  outEpoch : Nat
  /-- MODEL: the counter that numbers accepts, engine cycles and resets. -/
  draws : Nat
  /-- MODEL: the data the engine returned to the last host access; `none` when it returned none. -/
  readData : Option Word
  /-- MODEL: the events still to come, in the order of their delivery. -/
  inbox : List Event
deriving DecidableEq, Repr

/-- A machine fault. There is none: every access is answered (rule R63) and every outcome of a command is
reported and not trapped (rule R180), so the type has no constructor. -/
inductive Fault where
deriving DecidableEq, Repr

/-- A refusal. -/
inductive Refusal where
  /-- Raised by an arm of `exec` for a command that has no meaning yet. No arm raises it: every command
  of the opcode table is modelled. Safe. -/
  | notModelled (mnemonic : String)
deriving DecidableEq, Repr

/-- The state after reset of an engine with parameters `p`: the table of rule R210. Nothing is listed in IN
and OUT, whose contents are unspecified. The MODEL's own fields start at 0, none and [] (DESIGN CHOICE,
log entry 2), and `outSpecified` at false, as rule R32 says of OUT after reset. -/
def State.resetFor (p : Params) : State where
  params := p
  irqEn := false
  phase := .idle
  done := false
  code := 0
  cause := 0
  lastOp := 0
  inLen := 0
  outLen := 0
  errOffset := 0
  delim := predefinedDelim
  alphaLen := 64
  alpha := predefinedAlphabet
  table := predefinedTable
  inMem := Memory.empty
  outMem := Memory.empty
  outSpecified := false
  inEpoch := 0
  outEpoch := 0
  draws := 0
  readData := none
  inbox := []

/-- The machine right after reset (rule R210), with the parameters of log entry 1. -/
def State.reset : State := State.resetFor Params.default

end Sys2Proof.Machine
end

