-- ==== Sys2Proof/Machine/Operands.lean ====
section
/-! DEFINITION. The operands of the commands are registers and windows (rule R72). This file reads an
offset as the register or window word it reaches (rules R10, R52) and places bytes in word lanes
(rule R53). -/

namespace Sys2Proof

/-- IN_CAP as a number (rule R27). -/
def Params.cap (p : Params) : Nat := p.inCap.val

/-- OUT_CAP = 3·IN_CAP + 1 (rules R3, R27). -/
def Params.outCap (p : Params) : Nat := 3 * p.inCap.val + 1

namespace Machine

/-- The rows of the register map (rule R10). A window row carries the index of its word in the window. -/
inductive Target where
  | id
  | version
  | ctrl
  | cmd
  | status
  | inLen
  | outLen
  | errOffset
  | delim
  | alphaLen
  | tblDelim
  | inCap
  | outCap
  | alpha (k : Nat)
  | encTbl (k : Nat)
  | decTbl (k : Nat)
  | inWin (k : Nat)
  | outWin (k : Nat)
  | reserved
deriving DecidableEq, Repr

/-- How many bytes of offsets the engine answers: 0x00000000 to 0x07FFFFFF (rule R10). -/
def mapBytes : Nat := 0x08000000

/-- The offset at which a host byte address reaches the engine, `none` where it does not (rule R10). -/
def engineOffset (p : Params) (addr : Nat) : Option Word :=
  if p.base ≤ addr ∧ addr - p.base < mapBytes then some (BitVec.ofNat 32 (addr - p.base)) else none

/-- The offset of the word an access at offset `a` reaches: bits 1 and 0 are ignored (rule R52). -/
def wordOffset (a : Word) : Word := a &&& 0xFFFFFFFC

/-- The thirteen registers by word number: word number k is the register at offset 4k (rule R10). -/
def registerOf : Nat → Target
  | 0 => .id
  | 1 => .version
  | 2 => .ctrl
  | 3 => .cmd
  | 4 => .status
  | 5 => .inLen
  | 6 => .outLen
  | 7 => .errOffset
  | 8 => .delim
  | 9 => .alphaLen
  | 10 => .tblDelim
  | 11 => .inCap
  | 12 => .outCap
  | _ => .reserved

/-- What an access at offset `a` reaches, by the ranges of the register map (rules R10, R52). -/
def targetOf (a : Word) : Target :=
  let off := (wordOffset a).toNat
  if off < 0x100 then registerOf (off / 4)
  else if off < 0x140 then .alpha ((off - 0x100) / 4)
  else if off < 0x200 then .reserved
  else if off < 0x300 then .encTbl ((off - 0x200) / 4)
  else if off < 0x400 then .decTbl ((off - 0x300) / 4)
  else if off < 0x01000000 then .reserved
  else if off < 0x02000000 then .inWin ((off - 0x01000000) / 4)
  else if off < 0x04000000 then .reserved
  else if off < 0x08000000 then .outWin ((off - 0x04000000) / 4)
  else .reserved

/-- The word whose lane j, bits 8j+7 to 8j, is the byte `f j` (rule R53). -/
def wordOfLanes (f : Nat → Byte) : Word := f 3 ++ f 2 ++ f 1 ++ f 0

/-- Lane j of a word (rule R53). -/
def laneOf (v : Word) (j : Nat) : Byte := v.extractLsb' (8 * j) 8

/-- Word k of a byte window whose byte i is `f i`: byte 4k + j is lane j (rule R53). -/
def windowWord (f : Nat → Byte) (k : Nat) : Word := wordOfLanes fun j => f (4 * k + j)

/-- The low byte of a written word, for a register whose field is bits 7 to 0. -/
def lowByte (v : Word) : Byte := v.extractLsb' 0 8

end Machine

end Sys2Proof
end

