-- ==== Sys2Proof/Machine/Flags.lean ====
section
/-! DEFINITION. The outcome codes (rules R76, R77), the STATUS word (rule R75) and the interrupt output
(rule R195): every flag the engine computes. -/

namespace Sys2Proof.Machine

/-- The causes of CORRUPT_INPUT (rule R77). -/
inductive CorruptCause where
  | badSymbol
  | highRunMod3
  | badLead
  | truncated
deriving DecidableEq, Repr

/-- The causes of CONFIG_ERROR, in the order in which BUILD checks them (rules R77, R101). -/
inductive ConfigCause where
  | alphaLen
  | delimInAlpha
  | duplicate
deriving DecidableEq, Repr

/-- How a job ends (rule R76). -/
inductive JobOutcome where
  | ok
  | corruptInput (c : CorruptCause)
  | configError (c : ConfigCause)
  | illegalCmd (c : IllegalCause)
  | badLen
deriving DecidableEq, Repr

/-- STATUS.CODE of an outcome (rule R76). -/
def JobOutcome.code : JobOutcome → BitVec 4
  | .ok => 0
  | .corruptInput _ => 1
  | .configError _ => 2
  | .illegalCmd _ => 3
  | .badLen => 4

/-- STATUS.CAUSE of an outcome (rule R77). -/
def JobOutcome.cause : JobOutcome → BitVec 4
  | .ok => 0
  | .corruptInput .badSymbol => 1
  | .corruptInput .highRunMod3 => 2
  | .corruptInput .badLead => 3
  | .corruptInput .truncated => 4
  | .configError .alphaLen => 1
  | .configError .delimInAlpha => 2
  | .configError .duplicate => 3
  | .illegalCmd .reservedOpcode => 1
  | .illegalCmd .mbzSet => 2
  | .badLen => 0

/-- STATUS.BUSY: 1 exactly when the phase is BUSY (rule R15). -/
def State.busy (s : State) : Bool :=
  match s.phase with
  | .idle => false
  | .busy _ => true

/-- The working state of the job in progress, where it is an ENCODE or a DECODE (rule R34). -/
def State.work (s : State) : Option Work :=
  match s.phase with
  | .busy (.encode w) => some w
  | .busy (.decode w) => some w
  | _ => none

/-- One bit as a word. -/
def bitWord (b : Bool) : Word := if b then 1 else 0

/-- The value of STATUS (rule R75). -/
def State.statusWord (s : State) : Word :=
  bitWord s.busy ||| (bitWord s.done <<< 1) ||| (s.code.setWidth 32 <<< 4) |||
    (s.cause.setWidth 32 <<< 8) ||| (s.lastOp.setWidth 32 <<< 16)

/-- The interrupt output: CTRL.IRQ_EN & STATUS.DONE (rule R195). -/
def State.irq (s : State) : Bool := s.irqEn && s.done

end Sys2Proof.Machine
end

