-- ==== Sys2Proof/Machine/Ops.lean ====
section
/-! DEFINITION. The named operations over the buffers and the registers: reading and writing a buffer,
the engine's InByte and Emit, the accept of a command (rule R181), the completion of a job, which is what
an error outcome does instead of a trap (rules R180, R184, R185, R190), the acknowledgement that is this
engine's only return from an outcome (rule R192), and reset (rule R211). -/

namespace Sys2Proof.Machine

/-- The byte listed at index `a`. -/
def readCells (a : Nat) : List Host.Cell → Option Byte
  | [] => none
  | (k, v) :: rest => if k = a then some v else readCells a rest

/-- The cells with byte `b` at index `a`, in their place by rising index. -/
def writeCells (a : Nat) (b : Byte) : List Host.Cell → List Host.Cell
  | [] => [(a, b)]
  | (k, v) :: rest =>
    if k < a then (k, v) :: writeCells a b rest
    else if k = a then (a, b) :: rest
    else (a, b) :: (k, v) :: rest

/-- The known byte at index `a` of a buffer; `none`, which no listed byte equals, where the buffer holds
an unspecified byte. This is the one definition of what an unlisted index reads as. -/
def Memory.read (m : Memory) (a : Nat) : Option Byte := readCells a m.cells

/-- The buffer with byte `b` at index `a`. -/
def Memory.write (m : Memory) (a : Nat) (b : Byte) : Memory := ⟨writeCells a b m.cells⟩

/-- The buffer with nothing known at index `n` or above. -/
def Memory.keepBelow (m : Memory) (n : Nat) : Memory := ⟨m.cells.filter fun c => c.1 < n⟩

/-- The indices are strictly rising from `lo`, and below `hi`. -/
def risingFrom (lo hi : Nat) : List Host.Cell → Bool
  | [] => true
  | (k, _) :: rest => decide (lo ≤ k) && decide (k < hi) && risingFrom (k + 1) hi rest

/-- The canonical form of a buffer of `size` bytes: indices strictly rising, each inside the buffer. -/
def Memory.wf (size : Nat) (m : Memory) : Bool := risingFrom 0 size m.cells

/-- InByte(i): byte i of IN, a free value where nothing has written it since reset (rules R31, R210). -/
def State.inByte (s : State) (i : Nat) : Byte :=
  match s.inMem.read i with
  | some b => b
  | none => Config.inByte s.inEpoch i

/-- The value that OUT[i] is specified to hold between ENCODE and DECODE jobs (rule R32): the byte of the
result of the last one, where that succeeded; `none` where the byte is unspecified. -/
def State.outResult (s : State) (i : Nat) : Option Byte :=
  if s.outSpecified then s.outMem.read i else none

/-- Byte i of OUT as a host sees it (rule R32): a free value during an ENCODE or DECODE, and else
the byte of the result, or a free value where the byte is unspecified. -/
def State.outByte (s : State) (i : Nat) : Byte :=
  match s.work with
  | some _ => Config.outByteDuringJob s.draws i
  | none =>
    match s.outResult i with
    | some b => b
    | none => Config.outByte s.outEpoch i

/-- Emit, for each byte in order: `OUT[o] <- v; o <- o + 1`, where OUT has `cap` bytes (00_scope.md §5,
rule R57). Answers the buffer and the cursor. -/
def emitBytes (cap : Nat) : Memory → Word → List Byte → Memory × Word
  | m, o, [] => (m, o)
  | m, o, b :: bs => emitBytes cap (if o.toNat < cap then m.write o.toNat b else m) (o + 1) bs

/-- The accept of a command (rule R181): the phase becomes BUSY with the job, DONE, CODE and CAUSE are
cleared and LAST_OP takes the word's opcode. Nothing else of the spec's state changes. -/
def accept (job : Job) (w : Word) (s : State) : State :=
  { s with
    phase := .busy job
    done := false
    code := 0
    cause := 0
    lastOp := lowByte w
    draws := s.draws + 1 }

/-- What a completed ENCODE or DECODE that emitted `o` bytes leaves written in OUT: its result on success
(rule R32), all as before on BAD_LEN (rule R186), nothing on a data error (rule R191). A host sees these
bytes after a success alone (`State.outResult`). -/
def outAfter (r : JobOutcome) (o : Nat) (m : Memory) : Memory :=
  match r with
  | .ok => m.keepBelow o
  | .badLen => m
  | _ => Memory.empty

/-- `complete(code, cause, offset)` of rule R190: the end of a job, in one atomic step. OUT_LEN and OUT
change for ENCODE and DECODE alone: after a failed one, BAD_LEN included, every byte of OUT is unspecified
(rules R32, R191; log entry 5), and the unspecified bytes get new free values. -/
def complete (r : JobOutcome) (offset : Word) (s : State) : State :=
  { s with
    phase := .idle
    done := true
    code := r.code
    cause := r.cause
    errOffset := offset
    outLen := match s.work with
      | none => s.outLen
      | some w => if r = .ok then w.o else 0
    outMem := match s.work with
      | none => s.outMem
      | some w => outAfter r w.o.toNat s.outMem
    outSpecified := match s.work with
      | none => s.outSpecified
      | some _ => decide (r = .ok)
    outEpoch := match s.work with
      | none => s.outEpoch
      | some _ => s.draws }

/-- `raise CorruptInput(cause, offset)` (rule R184). -/
def raiseCorrupt (c : CorruptCause) (offset : Word) (s : State) : State :=
  complete (.corruptInput c) offset s

/-- `raise ConfigError(cause)`, which records no offset (rule R185). -/
def raiseConfig (c : ConfigCause) (s : State) : State := complete (.configError c) 0 s

/-- The host's acknowledgement of an outcome: a write to STATUS with bit 1 set clears DONE
(rules R16, R192). -/
def acknowledge (v : Word) (s : State) : State :=
  { s with done := s.done && !v.getLsbD 1 }

/-- Reset (rule R211): every piece of the spec's state takes its value of rule R210, a job in progress
is abandoned, and the unwritten bytes of both buffers get new free values. -/
def hardReset (s : State) : State :=
  { State.resetFor s.params with
    inEpoch := s.draws + 1
    outEpoch := s.draws + 1
    draws := s.draws + 1
    inbox := s.inbox }

end Sys2Proof.Machine
end

