-- ==== Sys2Proof/Machine/EncodeJob.lean ====
section
/-! DEFINITION. ENCODE in the streaming form of rule R120: the run classifier (R121), the mode selector
(R123), the low-run packer (R127) and the high-run emitter (R131). -/

namespace Sys2Proof.Machine

/-- The run classifier: HIGH when bit 7 is set (rule R121). -/
def classOf (b : Byte) : Mode := if b.getLsbD 7 then .high else .low

/-- pack_low on the `m` 7-bit values of `acc` (rule R127): `W = acc << (6 - m)`, cut into m + 1 symbols from
the most significant end. -/
def packLow (t : Table) (acc : BitVec 42) (m : Nat) : List Byte :=
  (List.range (m + 1)).map fun j =>
    t.symbol ((((acc <<< (6 - m)) >>> (6 * (m - j))) &&& 0x3F).setWidth 8)

/-- flush_low: what pack_low emits for the pending group, and the group emptied (rule R127). -/
def flushLow (t : Table) (w : Work) : Work × List Byte :=
  ({ w with acc := 0, cnt := 0 }, packLow t w.acc w.cnt.toNat)

/-- flush_low where a group is pending, nothing where none is. -/
def flushPending (t : Table) (w : Work) : Work × List Byte :=
  if 0 < w.cnt.toNat then flushLow t w else (w, [])

/-- emit_high (rule R131): the values sent through ENC for a high byte; `none` where the byte is a lead
of 0xF1 to 0xFF and CorruptInput(BAD_LEAD) is raised. -/
def highValues (b : Byte) : Option (List Byte) :=
  if b < 0xC0 then some [b &&& 0x3F]
  else if b < 0xE0 then some [0, b &&& 0x1F]
  else if b < 0xF0 then some [b &&& 0x0F]
  else if b = 0xF0 then some []
  else none

/-- A low byte (rule R120): close a high run, then push the byte on the group, and flush the sixth. -/
def encodeLowByte (t : Table) (w : Work) (b : Byte) : Work × List Byte :=
  let closing := if w.mode = .high then [t.delim] else []
  let w1 := { w with mode := .low, acc := (w.acc <<< 7) ||| b.setWidth 42, cnt := w.cnt + 1 }
  if w1.cnt = 6 then ((flushLow t w1).1, closing ++ (flushLow t w1).2) else (w1, closing)

/-- The boundary action before a high byte (rule R123): from LOW mode, flush the pending group and open
the high run with a delimiter. -/
def openHighRun (t : Table) (w : Work) : Work × List Byte :=
  match w.mode with
  | .low => ({ (flushPending t w).1 with mode := .high }, (flushPending t w).2 ++ [t.delim])
  | .high => (w, [])

/-- One turn of ENCODE's loop on input byte `b` (rule R120): the new working state and what it emits, `none`
where the byte raises BAD_LEAD. The cursors are the caller's. -/
def encodeByte (t : Table) (w : Work) (b : Byte) : Option (Work × List Byte) :=
  match classOf b with
  | .low => some (encodeLowByte t w b)
  | .high =>
    match highValues b with
    | none => none
    | some vs => some ((openHighRun t w).1, (openHighRun t w).2 ++ vs.map t.symbol)

/-- The end of ENCODE's input (rules R120, R123): flush the pending group, or close the high run. -/
def encodeEnd (t : Table) (w : Work) : Work × List Byte :=
  match w.mode with
  | .low => flushPending t w
  | .high => (w, [t.delim])

/-- The job goes on with working state `w` after emitting `out` at its output cursor. `mk` says which
job it is. -/
def emitJob (mk : Work → Job) (w : Work) (out : List Byte) (s : State) : State :=
  { s with
    phase := .busy (mk { w with o := (emitBytes s.params.outCap s.outMem w.o out).2 })
    outMem := (emitBytes s.params.outCap s.outMem w.o out).1 }

/-- One engine cycle of an ENCODE job (rules R120, R186): BAD_LEN before any byte is read, else one
input byte, else the end of the input. -/
def encodeCycle (w : Work) (s : State) : State :=
  if s.params.cap < s.inLen.toNat then complete .badLen 0 s
  else if w.i.toNat < s.inLen.toNat then
    match encodeByte s.table w (s.inByte w.i.toNat) with
    | none => raiseCorrupt .badLead w.i s
    | some r => emitJob .encode { r.1 with i := w.i + 1 } r.2 s
  else complete .ok 0 (emitJob .encode (encodeEnd s.table w).1 (encodeEnd s.table w).2 s)

end Sys2Proof.Machine
end

