-- ==== Sys2Proof/Machine/DecodeJob.lean ====
section
/-! DEFINITION. DECODE in the streaming form of rule R150: the delimiter detector (R151), the symbol
check (R152), the segment checks (R158, R159), the low-segment unpacker (R160) and the triple
unpacker (R162). -/

namespace Sys2Proof.Machine

/-- unpack_low on the `n` 6-bit values of `acc` (rule R160): n - 1 bytes of 7 bits from the most significant
end; the 7 - n bits left over are padding and are not looked at (rule R161). -/
def unpackLow (acc : BitVec 42) (n : Nat) : List Byte :=
  (List.range (n - 1)).map fun k => ((acc >>> (6 * n - 7 * (k + 1))) &&& 0x7F).setWidth 8

/-- flush_low_dec: what unpack_low emits for the pending group, and the group emptied (rule R160). -/
def flushLowDec (w : Work) : Work × List Byte :=
  ({ w with acc := 0, cnt := 0 }, unpackLow w.acc w.cnt.toNat)

/-- flush_low_dec where a group is pending, nothing where none is. -/
def flushPendingDec (w : Work) : Work × List Byte :=
  if 0 < w.cnt.toNat then flushLowDec w else (w, [])

/-- The dispatch of rule R162 on a triple of symbol values, by value range. -/
def tripleBytes (d0 d1 d2 : Byte) : List Byte :=
  if d0 = 0 ∧ d1 < 0x20 then [0xC0 ||| d1, 0x80 ||| d2]
  else if 0x10 ≤ d0 then [0xF0, 0x80 ||| d0, 0x80 ||| d1, 0x80 ||| d2]
  else [0xE0 ||| d0, 0x80 ||| d1, 0x80 ||| d2]

/-- unpack_high on the 18 bits of `acc` (rule R162). -/
def unpackHigh (acc : BitVec 42) : List Byte :=
  tripleBytes (((acc >>> 12) &&& 0x3F).setWidth 8) (((acc >>> 6) &&& 0x3F).setWidth 8)
    ((acc &&& 0x3F).setWidth 8)

/-- A delimiter (rules R150, R153): it ends the current segment and starts one of the other kind. -/
def decodeDelim (w : Work) : Except CorruptCause (Work × List Byte) :=
  match w.mode with
  | .low => .ok ({ (flushPendingDec w).1 with mode := .high, hcnt := 0 }, (flushPendingDec w).2)
  | .high =>
    if w.hcnt.toNat % 3 ≠ 0 then .error .highRunMod3 else .ok ({ w with mode := .low }, [])

/-- A symbol whose decode entry is `d` (rule R150): push it on the group, and unpack the group where it is
full, at 7 symbols in LOW mode and at 3 in HIGH mode. -/
def decodeSymbol (w : Work) (d : Byte) : Work × List Byte :=
  let w1 := { w with acc := (w.acc <<< 6) ||| d.setWidth 42, cnt := w.cnt + 1 }
  match w.mode with
  | .low => if w1.cnt = 7 then flushLowDec w1 else (w1, [])
  | .high =>
    let w2 := { w1 with hcnt := w.hcnt + 1 }
    if w2.cnt = 3 then ({ w2 with acc := 0, cnt := 0 }, unpackHigh w2.acc) else (w2, [])

/-- One turn of DECODE's loop on input byte `b` (rule R150): the new working state and what it emits, or
the cause it raises at this offset. The delimiter is tested before the lookup (rule R151). -/
def decodeByte (t : Table) (w : Work) (b : Byte) : Except CorruptCause (Work × List Byte) :=
  if t.isDelim b then decodeDelim w
  else if t.value b = invalidEntry then .error .badSymbol
  else .ok (decodeSymbol w (t.value b))

/-- One engine cycle of a DECODE job (rules R150, R186): BAD_LEN before any byte is read, else one
symbol, else the end of the input, which is TRUNCATED in HIGH mode (rule R159). -/
def decodeCycle (w : Work) (s : State) : State :=
  if s.params.cap < s.inLen.toNat then complete .badLen 0 s
  else if w.i.toNat < s.inLen.toNat then
    match decodeByte s.table w (s.inByte w.i.toNat) with
    | .error c => raiseCorrupt c w.i s
    | .ok r => emitJob .decode { r.1 with i := w.i + 1 } r.2 s
  else
    match w.mode with
    | .high => raiseCorrupt .truncated s.inLen s
    | .low => complete .ok 0 (emitJob .decode (flushPendingDec w).1 (flushPendingDec w).2 s)

end Sys2Proof.Machine
end

