-- ==== Sys2Proof/Machine/TableJobs.lean ====
section
/-! DEFINITION. The jobs of BUILD (rule R101) and LOAD_DEFAULT (rule R102). -/

namespace Sys2Proof.Machine

/-- Check 2 of BUILD: the delimiter is a symbol of the alphabet (rule R101, DELIM_IN_ALPHA). -/
def delimInAlphabet (a : List Byte) (d : Byte) : Bool := a.any fun x => x == d

/-- Check 3 of BUILD: two entries of the alphabet are equal (rule R101, DUPLICATE). -/
def hasDuplicate : List Byte → Bool
  | [] => false
  | x :: xs => xs.any (fun y => x == y) || hasDuplicate xs

/-- The first of BUILD's three checks that fails, in the order of rule R101; `none` when all pass. -/
def configProblem (a : Vector Byte 64) (n : Word) (d : Byte) : Option ConfigCause :=
  if n ≠ 64 then some .alphaLen
  else if delimInAlphabet a.toList d then some .delimInAlpha
  else if hasDuplicate a.toList then some .duplicate
  else none

/-- The work of a BUILD job (rule R101): the checks on the staging registers, then the installation. -/
def buildCycle (s : State) : State :=
  match configProblem s.alpha s.alphaLen s.delim with
  | some c => raiseConfig c s
  | none => complete .ok 0 { s with table := install s.alpha s.delim }

/-- The work of a LOAD_DEFAULT job (rule R102): it reads no register. -/
def loadDefaultCycle (s : State) : State := complete .ok 0 { s with table := predefinedTable }

end Sys2Proof.Machine
end

