-- ==== Sys2Proof/Machine/Commands.lean ====
section
/-! DEFINITION. The life of a job from accept to completion (rules R181, R182, R190), and the meaning of
each command as one atomic transition, which rule R35 allows: accept, then the engine's cycles until
the job completes. -/

namespace Sys2Proof.Machine

/-- What one engine cycle does for the job in progress. BUILD, LOAD_DEFAULT and an illegal command take one
cycle; ENCODE and DECODE take one for each input byte consumed and one for the end. -/
def jobWork (job : Job) (s : State) : State :=
  match job with
  | .build => buildCycle s
  | .loadDefault => loadDefaultCycle s
  | .encode w => encodeCycle w s
  | .decode w => decodeCycle w s
  | .illegal c => complete (.illegalCmd c) 0 s

/-- One engine cycle: the job in progress advances; an idle engine does nothing. -/
def jobCycle (s : State) : State :=
  match s.phase with
  | .idle => s
  | .busy job => jobWork job { s with draws := s.draws + 1 }

/-- Engine cycles until the phase is IDLE, at most `n` of them. -/
def runJob : Nat → State → State
  | 0, s => s
  | n + 1, s =>
    match s.phase with
    | .idle => s
    | .busy _ => runJob n (jobCycle s)

/-- Cycles that suffice for every job: one for each input byte, one for the end, one to spare. -/
def State.jobFuel (s : State) : Nat := s.inLen.toNat + 2

/-- The whole of a command word `w` whose job is `job` (rules R181, R182): dropped while BUSY, else accepted
and run to its completion. -/
def runCommand (job : Job) (w : Word) (s : State) : State :=
  if s.busy then s else runJob s.jobFuel (accept job w s)

/-- The accept alone of a command word `w` whose job is `job`: dropped while BUSY (rules R181, R215). -/
def startCommand (job : Job) (w : Word) (s : State) : State :=
  if s.busy then s else accept job w s

/-- NOP (rules R73, R181): no effect, BUSY or not. -/
def execNop (s : State) : Host.Outcome State Fault Refusal := .next s

/-- BUILD (rule R101). -/
def execBuild (s : State) : Host.Outcome State Fault Refusal :=
  .next (runCommand .build (encodeInstr .build) s)

/-- LOAD_DEFAULT (rule R102). -/
def execLoadDefault (s : State) : Host.Outcome State Fault Refusal :=
  .next (runCommand .loadDefault (encodeInstr .loadDefault) s)

/-- ENCODE (rule R120). -/
def execEncode (s : State) : Host.Outcome State Fault Refusal :=
  .next (runCommand (.encode Work.initial) (encodeInstr .encode) s)

/-- DECODE (rule R150). -/
def execDecode (s : State) : Host.Outcome State Fault Refusal :=
  .next (runCommand (.decode Work.initial) (encodeInstr .decode) s)

/-- An illegal command word, which is no instruction of the table: accepted like any other, its job
completes with ILLEGAL_CMD (rule R183). -/
def execIllegal (w : Word) (c : IllegalCause) (s : State) : Host.Outcome State Fault Refusal :=
  .next (runCommand (.illegal c) w s)

/-- The job a legal or illegal command word starts; `none` for NOP, which is not accepted (rule R181). -/
def jobOf : Decoded → Option Job
  | .instr .nop => none
  | .instr .build => some .build
  | .instr .loadDefault => some .loadDefault
  | .instr .encode => some (.encode Work.initial)
  | .instr .decode => some (.decode Work.initial)
  | .illegal c => some (.illegal c)

end Sys2Proof.Machine
end

