-- ==== Sys2Proof/Machine/Bus.lean ====
section
/-! DEFINITION. The host interface: what a word read returns and a word write does at each row of the
register map (rules R10 to R32), the issue of a command (rule R181), and the delivery of one event. -/

namespace Sys2Proof.Machine

/-- ALPHA[i] (rule R25), 0 beyond the 64 bytes. -/
def State.alphaByte (s : State) (i : Nat) : Byte := s.alpha[i]?.getD 0

/-- ENC_TBL[i] (rule R28), 0 beyond the 256 bytes. -/
def State.encByte (s : State) (i : Nat) : Byte := s.table.enc[i]?.getD 0

/-- DEC_TBL[i] (rule R29), 0 beyond the 256 bytes. -/
def State.decByte (s : State) (i : Nat) : Byte := s.table.dec[i]?.getD 0

/-- Byte i of the IN window: 0 at or beyond IN_CAP (rule R31). -/
def State.inWinByte (s : State) (i : Nat) : Byte := if i < s.params.cap then s.inByte i else 0

/-- Byte i of the OUT window: 0 at or beyond OUT_CAP (rule R32). -/
def State.outWinByte (s : State) (i : Nat) : Byte := if i < s.params.outCap then s.outByte i else 0

/-- What a host read of a row of the register map returns (rules R10 to R32). -/
def readTarget (t : Target) (s : State) : Word :=
  match t with
  | .id => 0x4E423634
  | .version => 0x00000001
  | .ctrl => bitWord s.irqEn
  | .cmd => 0
  | .status => s.statusWord
  | .inLen => s.inLen
  | .outLen => s.outLen
  | .errOffset => s.errOffset
  | .delim => s.delim.setWidth 32
  | .alphaLen => s.alphaLen
  | .tblDelim => s.table.delim.setWidth 32
  | .inCap => BitVec.ofNat 32 s.params.cap
  | .outCap => BitVec.ofNat 32 s.params.outCap
  | .alpha k => windowWord s.alphaByte k
  | .encTbl k => windowWord s.encByte k
  | .decTbl k => windowWord s.decByte k
  | .inWin k => windowWord s.inWinByte k
  | .outWin k => windowWord s.outWinByte k
  | .reserved => 0

/-- A host write of an RWF row: it has its effect only while BUSY is 0 (rules R11, R214). -/
def frozen (s s' : State) : State := if s.busy then s else s'

/-- The bytes of ALPHA with word k replaced (rules R25, R51). -/
def writeAlpha (k : Nat) (v : Word) (a : Vector Byte 64) : Vector Byte 64 :=
  Vector.ofFn fun i => if i.val / 4 = k then laneOf v (i.val % 4) else a[i]

/-- Lanes 0 to n - 1 of a word written into IN at word k: a lane at or beyond `cap` stores nothing
(rule R31). -/
def writeLanes (cap k : Nat) (v : Word) : Nat → Memory → Memory
  | 0, m => m
  | n + 1, m =>
    let m' := writeLanes cap k v n m
    if 4 * k + n < cap then m'.write (4 * k + n) (laneOf v n) else m'

/-- What a host write of `v` does at a row other than CMD (rules R10 to R32). -/
def writeTarget (t : Target) (v : Word) (s : State) : State :=
  match t with
  | .ctrl => { s with irqEn := v.getLsbD 0 }
  | .status => acknowledge v s
  | .inLen => frozen s { s with inLen := v }
  | .delim => frozen s { s with delim := lowByte v }
  | .alphaLen => frozen s { s with alphaLen := v }
  | .alpha k => frozen s { s with alpha := writeAlpha k v s.alpha }
  | .inWin k => frozen s { s with inMem := writeLanes s.params.cap k v 4 s.inMem }
  | .id => s
  | .version => s
  | .cmd => s
  | .outLen => s
  | .errOffset => s
  | .tblDelim => s
  | .inCap => s
  | .outCap => s
  | .encTbl _ => s
  | .decTbl _ => s
  | .outWin _ => s
  | .reserved => s

/-- A host write of `w` to CMD (rule R181). With atomic jobs the command is `exec` of what the word decodes
to; with clocked jobs it starts its job. NOP has no effect either way. -/
def issueCommand (w : Word) (s : State) : Host.Outcome State Fault Refusal :=
  match s.params.pacing with
  | .atomic =>
    match decodeCmd w with
    | .instr i => exec i s
    | .illegal c => execIllegal w c s
  | .clocked =>
    match jobOf (decodeCmd w) with
    | none => .next s
    | some job => .next (startCommand job w s)

/-- A host write of `v` at offset `a` of the engine. -/
def hostWrite (a v : Word) (s : State) : Host.Outcome State Fault Refusal :=
  match targetOf a with
  | .cmd => issueCommand v s
  | t => .next (writeTarget t v s)

/-- A host read at offset `a` of the engine: the data goes back to the host, and nothing else changes
(rule R56). -/
def hostRead (a : Word) (s : State) : State := { s with readData := some (readTarget (targetOf a) s) }

/-- The delivery of one event. An access outside the engine's 0x08000000 bytes does not reach it and has no
effect (rule R10). A poll whose condition does not hold yet stays next in line, and the engine's
cycle passes meanwhile. -/
def deliver (e : Event) (s : State) : Host.Outcome State Fault Refusal :=
  match e with
  | .read addr =>
    match engineOffset s.params addr with
    | none => .next { s with readData := none }
    | some a => .next (hostRead a s)
  | .write addr v =>
    match engineOffset s.params addr with
    | none => .next { s with readData := none }
    | some a => hostWrite a v { s with readData := none }
  | .poll addr mask v =>
    match engineOffset s.params addr with
    | none => .next { s with readData := none }
    | some a =>
      if readTarget (targetOf a) s &&& mask = v then .next (hostRead a s)
      else .next { jobCycle (hostRead a s) with inbox := .poll addr mask v :: s.inbox }
  | .cycle => .next (jobCycle s)
  | .reset => .next (hardReset s)

/-- One step: the next event is delivered; where none waits, a cycle of the engine passes, so that a job in
progress completes with no further host action (rule R182). -/
def stepNext (s : State) : Host.Outcome State Fault Refusal :=
  match s.inbox with
  | [] => .next (jobCycle s)
  | e :: rest => deliver e { s with inbox := rest }

/-- The write that brings command word `w` to CMD (rule R14). -/
def cmdWrite (p : Params) (w : Word) : Event := .write (p.base + 0x00C) w

end Sys2Proof.Machine
end

