-- ==== Sys2Proof/Machine/Step.lean ====
section
/-! DEFINITION. The step of the machine, and where it takes its next command from: the engine fetches no
instruction (rule R50); a command is a host write to CMD, so the next command is the next event. -/

namespace Sys2Proof.Machine

/-- One step of the engine with its host: three outcomes, of which only `next` occurs. -/
def step (s : State) : Host.Outcome State Fault Refusal := stepNext s

/-- The state in which the next event is the host's write of the table's `nbits`-bit word `w` to CMD. -/
def State.withFetchWord (s : State) (nbits w : Nat) : State :=
  { s with inbox := cmdWrite s.params (BitVec.ofNat 32 (w % 2 ^ nbits)) :: s.inbox }

end Sys2Proof.Machine
end

