-- ==== Sys2Proof/Machine/Forms.lean ====
section
/-! DEFINITION. The second form in which the spec gives the transform: ENCODE by runs (rules R122, R125,
R127, R130, R131) and DECODE by segments (rules R153, R156, R160, R162), as functions of a table and a
byte sequence. No command calls them: they are what rules R120 and R150 say the streaming forms equal,
and the statements compare the two. -/

namespace Sys2Proof.Machine

/-- A list cut into pieces of `n` counted from its start, the last one shorter where need be. `fuel` bounds
the number of pieces. -/
def piecesFuel {α : Type} (n : Nat) : Nat → List α → List (List α)
  | 0, _ => []
  | fuel + 1, xs => if xs.isEmpty then [] else xs.take n :: piecesFuel n fuel (xs.drop n)

/-- The groups of `n` of a low run or a segment (rules R79, R125, R156). -/
def pieces {α : Type} (n : Nat) (xs : List α) : List (List α) := piecesFuel n xs.length xs

/-- The number whose base-2^w digits are the list, the first the most significant (00_scope.md §5). -/
def joinBits (w : Nat) (ds : List Nat) : Nat := ds.foldl (fun v d => v * 2 ^ w + d) 0

/-! ### ENCODE by runs -/

/-- The maximal runs of the input, in order, each with its class (rule R122). -/
def runsOf : List Byte → List (Mode × List Byte)
  | [] => []
  | b :: bs =>
    match runsOf bs with
    | [] => [(classOf b, [b])]
    | (c, r) :: rest => if c = classOf b then (c, b :: r) :: rest else (classOf b, [b]) :: (c, r) :: rest

/-- pack_low of rule R127 on the bytes of a group: the symbol values. -/
def packGroup (g : List Byte) : List Nat :=
  (List.range (g.length + 1)).map fun j =>
    ((joinBits 7 (g.map BitVec.toNat) <<< (6 - g.length)) >>> (6 * (g.length - j))) % 64

/-- The symbol values of a low run: pack_low over its groups of 6, in order (rule R128). -/
def lowRunValues (r : List Byte) : List Nat := (pieces 6 r).flatMap packGroup

/-- The symbol values of a high run's bytes (rule R131), where none is 0xF1 to 0xFF. -/
def highRunValues (r : List Byte) : List Byte := r.flatMap fun b => (highValues b).getD []

/-- The encoding of one run: symbols alone for a low run (rule R128), and between two delimiters for a
high run (rule R130). -/
def encodeRun (t : Table) : Mode × List Byte → List Byte
  | (.low, r) => (lowRunValues r).map fun v => t.symbol (BitVec.ofNat 8 v)
  | (.high, r) => t.delim :: ((highRunValues r).map t.symbol ++ [t.delim])

/-- A byte that ENCODE rejects: 0xF1 to 0xFF (rule R132). -/
def isBadLead (b : Byte) : Bool := 0xF1 ≤ b

/-- ENCODE by runs: the concatenation of the encodings of the runs (rule R122), or the offset of the first
byte of 0xF1 to 0xFF (rule R132). -/
def encodeRuns (t : Table) (x : List Byte) : Except (CorruptCause × Nat) (List Byte) :=
  match x.findIdx? isBadLead with
  | some p => .error (.badLead, p)
  | none => .ok ((runsOf x).flatMap (encodeRun t))

/-! ### DECODE by segments -/

/-- The segments between the delimiters of a stream, in order: one more than there are delimiters
(rule R153). -/
def segmentsOf (t : Table) : List Byte → List (List Byte)
  | [] => [[]]
  | b :: bs =>
    if t.isDelim b then [] :: segmentsOf t bs
    else
      match segmentsOf t bs with
      | [] => [[b]]
      | seg :: rest => (b :: seg) :: rest

/-- unpack_low of rule R160 on the symbol values of a group. -/
def unpackGroup (ds : List Nat) : List Byte :=
  (List.range (ds.length - 1)).map fun k =>
    BitVec.ofNat 8 ((joinBits 6 ds >>> (6 * ds.length - 7 * (k + 1))) % 128)

/-- The bytes of a low segment: its symbols in groups of 7 (rules R79, R160). -/
def lowSegmentBytes (t : Table) (seg : List Byte) : List Byte :=
  (pieces 7 (seg.map fun s => (t.value s).toNat)).flatMap unpackGroup

/-- The bytes of one triple, or nothing for a piece that is no triple (rules R81, R162). -/
def tripleOrNone : List Byte → List Byte
  | [d0, d1, d2] => tripleBytes d0 d1 d2
  | _ => []

/-- The bytes of a high segment: its symbols in triples from the opening delimiter (rules R156, R162). -/
def highSegmentBytes (t : Table) (seg : List Byte) : List Byte :=
  (pieces 3 (seg.map t.value)).flatMap tripleOrNone

/-- The position of the first byte of a segment that is no symbol (rule R152). -/
def firstBadSymbol (t : Table) (seg : List Byte) : Option Nat :=
  seg.findIdx? fun s => t.value s == invalidEntry

/-- DECODE by segments, from segment kind `mode` at offset `off`: the first error in input order
(rules R152, R155, R158, R159), or the concatenation of the segments' bytes (rule R153). -/
def decodeFrom (t : Table) : Mode → Nat → List (List Byte) → Except (CorruptCause × Nat) (List Byte)
  | _, _, [] => .ok []
  | mode, off, seg :: rest =>
    match firstBadSymbol t seg with
    | some p => .error (.badSymbol, off + p)
    | none =>
      match mode, rest with
      | .low, [] => .ok (lowSegmentBytes t seg)
      | .low, _ :: _ =>
        match decodeFrom t .high (off + seg.length + 1) rest with
        | .error e => .error e
        | .ok out => .ok (lowSegmentBytes t seg ++ out)
      | .high, [] => .error (.truncated, off + seg.length)
      | .high, _ :: _ =>
        if seg.length % 3 ≠ 0 then .error (.highRunMod3, off + seg.length)
        else
          match decodeFrom t .low (off + seg.length + 1) rest with
          | .error e => .error e
          | .ok out => .ok (highSegmentBytes t seg ++ out)

/-- DECODE by segments (rule R153). -/
def decodeSegments (t : Table) (y : List Byte) : Except (CorruptCause × Nat) (List Byte) :=
  decodeFrom t .low 0 (segmentsOf t y)

/-! ### The round-trip domain -/

/-- A continuation byte between `lo` and 0xBF. -/
def contFrom (lo c : Byte) : Bool := lo ≤ c && c ≤ 0xBF

/-- One UTF-8 sequence of the forms that rule R137 lists. -/
def isDomainSequence : List Byte → Bool
  | [l, c] => 0xC0 ≤ l && l ≤ 0xDF && contFrom 0x80 c
  | [l, c1, c2] =>
    ((0xE1 ≤ l && l ≤ 0xEF && contFrom 0x80 c1) || (l == 0xE0 && contFrom 0xA0 c1)) && contFrom 0x80 c2
  | [l, c1, c2, c3] => l == 0xF0 && contFrom 0x90 c1 && contFrom 0x80 c2 && contFrom 0x80 c3
  | _ => false

/-- The round-trip domain of rule R137: each high run is a concatenation of such sequences, and low runs hold
any bytes. -/
def RoundTripDomain (x : List Byte) : Prop :=
  ∀ r : List Byte, (Mode.high, r) ∈ runsOf x →
    ∃ qs : List (List Byte), (∀ q ∈ qs, isDomainSequence q = true) ∧ r = qs.flatten

end Sys2Proof.Machine
end

