-- ==== Sys2Proof/Machine/Script.lean ====
section
/-! DEFINITION. Host scripts (rules R84, R85): each line as the events it stands for. A script line names an
offset; `base` is the BASE of the engine it addresses. -/

namespace Sys2Proof.Machine

/-- Offsets of the registers that scripts name (rule R10). -/
def offCtrl : Nat := 0x008
def offCmd : Nat := 0x00C
def offStatus : Nat := 0x010
def offInLen : Nat := 0x014
def offOutLen : Nat := 0x018
def offAlphaLen : Nat := 0x024
def offAlpha : Nat := 0x100
def offIn : Nat := 0x01000000
def offOut : Nat := 0x04000000

/-- The basic operations `WR off, v`, `RD off` and `POLL off, mask, v` (rule R84). -/
def scriptWr (base off : Nat) (v : Word) : Event := .write (base + off) v
def scriptRd (base off : Nat) : Event := .read (base + off)
def scriptPoll (base off : Nat) (mask v : Word) : Event := .poll (base + off) mask v

/-- `CMD op` (rule R85). -/
def scriptCmd (base : Nat) (i : Instr) : Event := scriptWr base offCmd (encodeInstr i)

/-- `WAIT`: wait for BUSY = 0 (rule R85). -/
def scriptWait (base : Nat) : Event := scriptPoll base offStatus 0x1 0x0

/-- `RUN op`: `CMD op` then `WAIT` (rule R85). -/
def scriptRun (base : Nat) (i : Instr) : List Event := [scriptCmd base i, scriptWait base]

/-- Word k of a byte string, packed little-endian, with bytes past its end taken as 0 (rule R85). -/
def packedWord (bytes : List Byte) (k : Nat) : Word := windowWord (fun i => bytes.getD i 0) k

/-- How many words n bytes take: ceil(n / 4). -/
def wordsFor (n : Nat) : Nat := (n + 3) / 4

/-- The writes of a byte string into the window at offset `off`, word by word. -/
def scriptFill (base off : Nat) (bytes : List Byte) : List Event :=
  (List.range (wordsFor bytes.length)).map fun k => scriptWr base (off + 4 * k) (packedWord bytes k)

/-- `LOADIN "bytes"` (rule R85). -/
def scriptLoadIn (base : Nat) (bytes : List Byte) : List Event :=
  scriptFill base offIn bytes ++ [scriptWr base offInLen (BitVec.ofNat 32 bytes.length)]

/-- `LOADALPHA "64 bytes"` (rule R85). -/
def scriptLoadAlpha (base : Nat) (a : Vector Byte 64) : List Event :=
  scriptFill base offAlpha a.toList ++ [scriptWr base offAlphaLen 64]

/-- `READOUT` (rule R85), for the value `outLen` that the host gets from its read of OUT_LEN. -/
def scriptReadOut (base : Nat) (outLen : Word) : List Event :=
  scriptRd base offOutLen ::
    (List.range (wordsFor outLen.toNat)).map fun k => scriptRd base (offOut + 4 * k)

end Sys2Proof.Machine
end

