-- ==== Sys2Proof/Safety.lean ====
section
/-! DEFINITION. The terms in which the statements speak of the engine: the invariant of the active table,
the invariants of the status, of the buffers and of the job in progress, and which events and fields a
statement means. -/

namespace Sys2Proof.Machine

/-! ### The active table -/

/-- The symbol for value `v` (rule R104). -/
def Table.symbolOf (t : Table) (v : Nat) : Byte := t.symbol (BitVec.ofNat 8 v)

/-- The four properties of rule R30, with the replication of rule R28. -/
structure TableOk (t : Table) : Prop where
  /-- ENC_TBL[i] = ENC_TBL[i & 0x3F] (rules R28, R103). -/
  replicated : ∀ v : Byte, t.symbol v = t.symbol (v &&& 0x3F)
  /-- Property 1: ENC_TBL[0..63] are distinct. -/
  distinct : ∀ v w : Nat, v < 64 → w < 64 → t.symbolOf v = t.symbolOf w → v = w
  /-- Property 2: none of them is TBL_DELIM. -/
  notDelim : ∀ v : Nat, v < 64 → t.symbolOf v ≠ t.delim
  /-- Property 3: DEC_TBL[ENC_TBL[v]] = v. -/
  inverse : ∀ v : Nat, v < 64 → t.value (t.symbolOf v) = BitVec.ofNat 8 v
  /-- Property 4: every other entry of DEC_TBL is INVALID. -/
  otherwise : ∀ b : Byte, (∀ v : Nat, v < 64 → t.symbolOf v ≠ b) → t.value b = invalidEntry

/-- An alphabet and a delimiter that pass the last two checks of BUILD (rule R101). -/
structure AlphabetOk (a : Vector Byte 64) (d : Byte) : Prop where
  distinct : ∀ (v w : Nat) (hv : v < 64) (hw : w < 64), a[v] = a[w] → v = w
  notDelim : ∀ (v : Nat) (hv : v < 64), a[v] ≠ d

/-! ### The input of a job -/

/-- IN[0..IN_LEN), the input of ENCODE and DECODE (rule R54). -/
def State.input (s : State) : List Byte := (List.range s.inLen.toNat).map s.inByte

/-- IN_LEN does not exceed IN_CAP (rule R186). -/
def State.lenOk (s : State) : Prop := s.inLen.toNat ≤ s.params.cap

/-! ### Invariants -/

/-- A (CODE, CAUSE) pair that rules R76 and R77 allow: every other one is never produced. -/
def legalOutcome (code cause : BitVec 4) : Prop :=
  (code, cause) ∈ [(0, 0), (1, 1), (1, 2), (1, 3), (1, 4), (2, 1), (2, 2), (2, 3), (3, 1), (3, 2), (4, 0)]

/-- The discipline of STATUS and ERR_OFFSET (rules R16, R17, R18, R22, R76, R77). -/
structure StatusOk (s : State) : Prop where
  /-- DONE = 1 implies BUSY = 0 (rule R16). -/
  doneIdle : s.done = true → s.busy = false
  /-- CODE and CAUSE read 0 while a job is in progress (rules R17, R18). -/
  busyClear : s.busy = true → s.code = 0 ∧ s.cause = 0
  /-- No reserved code or cause (rules R76, R77). -/
  legal : legalOutcome s.code s.cause
  /-- Between jobs ERR_OFFSET is 0 unless the outcome is CORRUPT_INPUT (rule R22). -/
  noOffset : s.busy = false → s.code ≠ 1 → s.errOffset = 0
  /-- An offset lies in the input buffer or is its end (rule R22). -/
  offsetBound : s.errOffset.toNat ≤ s.params.cap

/-- Both buffers are in canonical form and hold nothing outside their capacity (rules R31, R32, R57). -/
structure BuffersOk (s : State) : Prop where
  inCanonical : s.inMem.wf s.params.cap = true
  outCanonical : s.outMem.wf s.params.outCap = true

/-- OUT_LEN fits OUT, and between ENCODE and DECODE jobs each byte of OUT[0..OUT_LEN) is known
(rules R3, R21, R32). -/
structure ResultOk (s : State) : Prop where
  lenBound : s.outLen.toNat ≤ s.params.outCap
  known : s.work = none → ∀ k : Nat, k < s.outLen.toNat → (s.outMem.read k).isSome = true
  /-- OUT_LEN is not 0 only after a success: every error writes 0 to it (rule R21). -/
  specified : s.outLen ≠ 0 → s.outSpecified = true

/-- The symbols that ENCODE's pending group will give: m + 1 for m bytes (rule R126). -/
def pendingSymbols (w : Work) : Nat := if w.cnt = 0 then 0 else w.cnt.toNat + 1

/-- The working state of an ENCODE in progress (rules R34, R125, R127, R136). -/
structure EncodeOk (s : State) (w : Work) : Prop where
  cursor : w.i.toNat ≤ s.inLen.toNat
  group : w.cnt.toNat < 6
  accBound : w.acc.toNat < 2 ^ (7 * w.cnt.toNat)
  highEmpty : w.mode = .high → w.cnt = 0
  outBound : w.o.toNat + pendingSymbols w ≤ 3 * w.i.toNat
  known : ∀ k : Nat, k < w.o.toNat → (s.outMem.read k).isSome = true

/-- The working state of a DECODE in progress (rules R34, R156, R160, R166). -/
structure DecodeOk (s : State) (w : Work) : Prop where
  cursor : w.i.toNat ≤ s.inLen.toNat
  group : w.cnt.toNat < 7
  accBound : w.acc.toNat < 2 ^ (6 * w.cnt.toNat)
  triple : w.mode = .high → w.cnt.toNat = w.hcnt.toNat % 3
  highCount : w.hcnt.toNat ≤ w.i.toNat
  outBound : 3 * w.o.toNat + 4 * w.cnt.toNat ≤ 4 * w.i.toNat
  known : ∀ k : Nat, k < w.o.toNat → (s.outMem.read k).isSome = true

/-- The job in progress is in order, and LAST_OP names it (rules R19, R34). -/
def JobOk (s : State) : Prop :=
  match s.phase with
  | .idle => True
  | .busy .build => s.lastOp = opcodeOf .build
  | .busy .loadDefault => s.lastOp = opcodeOf .loadDefault
  | .busy (.encode w) => s.lastOp = opcodeOf .encode ∧ EncodeOk s w
  | .busy (.decode w) => s.lastOp = opcodeOf .decode ∧ DecodeOk s w
  | .busy (.illegal _) => True

/-- The invariant of the engine. -/
structure EngineOk (s : State) : Prop where
  table : TableOk s.table
  status : StatusOk s
  buffers : BuffersOk s
  result : ResultOk s
  job : JobOk s

/-! ### Events and results -/

/-- The event is a host access (a read or a write of a word). -/
def Event.isAccess : Event → Bool
  | .read _ => true
  | .write _ _ => true
  | .poll _ _ _ => false
  | .cycle => false
  | .reset => false

/-- The event brings a command word to CMD, NOP or not. -/
def Event.isCommand (p : Params) : Event → Bool
  | .write addr _ =>
    match engineOffset p addr with
    | some a => targetOf a == .cmd
    | none => false
  | _ => false

/-- The next event is a host write to CMD of the word of `i`, which the engine does not drop, and jobs are
atomic, so that the step runs the whole command. -/
def State.issues (s : State) (i : Instr) : Prop :=
  s.busy = false ∧ s.params.pacing = .atomic ∧
    ∃ (addr : Nat) (a w : Word) (rest : List Event), s.inbox = .write addr w :: rest ∧
      engineOffset s.params addr = some a ∧ targetOf a = .cmd ∧ decodeCmd w = .instr i

/-- Two states show the same results of the last job (rule R59): the status but for DONE, which a host
write may clear, the offset, the output and the table. `outEpoch` says that the unspecified bytes of OUT
are the same too, which is the model's choice (log entry 4). -/
structure SameResults (s t : State) : Prop where
  phase : s.phase = t.phase
  code : s.code = t.code
  cause : s.cause = t.cause
  lastOp : s.lastOp = t.lastOp
  errOffset : s.errOffset = t.errOffset
  outLen : s.outLen = t.outLen
  outMem : s.outMem = t.outMem
  outSpecified : s.outSpecified = t.outSpecified
  outEpoch : s.outEpoch = t.outEpoch
  table : s.table = t.table

end Sys2Proof.Machine
end

