-- ==== Sys2Proof/Certificates/Slice0/Obligations.lean ====
section
/-! DEFINITION. The statements about the engine. Each docstring names the rule it formalises. In an
equation `exec i s = .next { s with … }` every field that is not named is unchanged: that is the frame. The
number `d` that such an equation leaves open is the MODEL's own draw counter (log entry 4). -/

open Sys2Proof Sys2Proof.Machine

/-! ### Command words -/

/-- Rules R70, R71: the five words of the opcode map, written out bit by bit, decode to their commands, and for
every command the decode of its encoded word is the command. -/
def Obligations.OpcodeMapWordsDecode : Prop :=
  decodeCmd 0b00000000000000000000000000000000#32 = .instr .nop ∧
  decodeCmd 0b00000000000000000000000000000001#32 = .instr .build ∧
  decodeCmd 0b00000000000000000000000000000010#32 = .instr .loadDefault ∧
  decodeCmd 0b00000000000000000000000000000011#32 = .instr .encode ∧
  decodeCmd 0b00000000000000000000000000000100#32 = .instr .decode ∧
  ∀ i : Instr, i.wellFormed = true →
    decodeCmd (encodeInstr i) = .instr i ∧ decodeTableWord 32 (encodeInstr i).toNat = some i

/-- Rule R74: the decode over all 2^32 words. A command has exactly one word; a word of 256 or more is
illegal with MBZ_SET; a word of 5 to 255 is illegal with RESERVED_OPCODE. -/
def Obligations.CommandDecodeIsTotalAndExact : Prop :=
  ∀ w : Word,
    (∀ i : Instr, decodeCmd w = .instr i ↔ w = encodeInstr i) ∧
    (decodeCmd w = .illegal .mbzSet ↔ 256 ≤ w.toNat) ∧
    (decodeCmd w = .illegal .reservedOpcode ↔ 5 ≤ w.toNat ∧ w.toNat < 256)

/-! ### The meaning of each command -/

/-- Rule R181: NOP changes nothing, BUSY or not. -/
def Obligations.NopHasNoEffect : Prop :=
  ∀ s : State, exec .nop s = .next s

/-- Rules R181, R215: a command written while BUSY is 1 is dropped, a legal word and an illegal one,
whichever way jobs are paced. -/
def Obligations.CommandWhileBusyIsDropped : Prop :=
  ∀ s : State, s.busy = true →
    (∀ i : Instr, exec i s = .next s) ∧ (∀ w : Word, issueCommand w s = .next s)

/-- Rules R101, R185: BUILD reports the first of its three checks that fails and leaves the table as it was;
where all three pass, it installs the staged alphabet and delimiter. -/
def Obligations.BuildChecksThenInstalls : Prop :=
  encodeInstr .build = 0x00000001 ∧ ∀ s : State, s.busy = false →
    let failed := fun (c : BitVec 4) (d : Nat) => { s with
      done := true
      code := 2
      cause := c
      lastOp := 0x01
      errOffset := 0
      draws := d }
    (s.alphaLen ≠ 64 → ∃ d : Nat, exec .build s = .next (failed 1 d)) ∧
    (s.alphaLen = 64 → (∃ (v : Nat) (hv : v < 64), s.alpha[v] = s.delim) →
      ∃ d : Nat, exec .build s = .next (failed 2 d)) ∧
    (s.alphaLen = 64 → (∀ (v : Nat) (hv : v < 64), s.alpha[v] ≠ s.delim) →
      (∃ (v w : Nat) (hv : v < w) (hw : w < 64), s.alpha[v] = s.alpha[w]) →
      ∃ d : Nat, exec .build s = .next (failed 3 d)) ∧
    (s.alphaLen = 64 → AlphabetOk s.alpha s.delim →
      ∃ d : Nat, exec .build s = .next { s with
        table := install s.alpha s.delim
        done := true
        code := 0
        cause := 0
        lastOp := 0x01
        errOffset := 0
        draws := d })

/-- Rule R102: LOAD_DEFAULT installs the predefined alphabet with `.`, and changes neither OUT_LEN nor OUT
nor the staging registers. The predefined alphabet passes the checks of BUILD. -/
def Obligations.LoadDefaultInstallsThePredefinedTable : Prop :=
  encodeInstr .loadDefault = 0x00000002 ∧ AlphabetOk predefinedAlphabet 0x2E ∧ ∀ s : State, s.busy = false →
    ∃ d : Nat, exec .loadDefault s = .next { s with
      table := install predefinedAlphabet 0x2E
      done := true
      code := 0
      cause := 0
      lastOp := 0x02
      errOffset := 0
      draws := d }

/-- Rule R120: how ENCODE ends. IN_LEN above IN_CAP gives BAD_LEN. Else, where the run form encodes the input to
`y`, OUT_LEN is the length of `y`, OUT[k] is y[k] below it and unspecified from there on; where the run form
finds a bad lead at `p`, the outcome is CORRUPT_INPUT with BAD_LEAD (CAUSE 3, log entry 12) and ERR_OFFSET p.
After either error no OUT byte is specified. Nothing else changes. That BAD_LEN keeps the bytes OUT holds and
leaves what a host reads of them unspecified is the model's reading (log entry 5). -/
def Obligations.EncodeEndsAsTheRunFormSays : Prop :=
  encodeInstr .encode = 0x00000003 ∧ ∀ s : State, s.busy = false →
    (s.params.cap < s.inLen.toNat → ∃ d e : Nat, exec .encode s = .next { s with
      done := true
      code := 4
      cause := 0
      lastOp := 0x03
      outLen := 0
      errOffset := 0
      outSpecified := false
      outEpoch := e
      draws := d }) ∧
    (s.lenOk → ∀ y : List Byte, encodeRuns s.table s.input = .ok y →
      y.length ≤ s.params.outCap ∧
      ∃ (d : Nat) (m : Memory),
        exec .encode s = .next { s with
          done := true
          code := 0
          cause := 0
          lastOp := 0x03
          outLen := BitVec.ofNat 32 y.length
          errOffset := 0
          outMem := m
          outSpecified := true
          outEpoch := d
          draws := d } ∧
        ∀ k : Nat, m.read k = y[k]?) ∧
    (s.lenOk → ∀ (c : CorruptCause) (p : Nat), encodeRuns s.table s.input = .error (c, p) →
      ∃ d : Nat, exec .encode s = .next { s with
        done := true
        code := 1
        cause := 3
        lastOp := 0x03
        outLen := 0
        errOffset := BitVec.ofNat 32 p
        outMem := Memory.empty
        outSpecified := false
        outEpoch := d
        draws := d })

/-- Rule R132: ENCODE raises BAD_LEAD (CAUSE 3, log entry 12) at the smallest offset of a byte 0xF1 to 0xFF, with OUT_LEN 0 and
no OUT byte specified (rule R191), and accepts every input that holds no such byte. -/
def Obligations.EncodeRejectsTheFirstBadLead : Prop :=
  ∀ s : State, s.busy = false → s.lenOk →
    (∀ p : Nat, p < s.inLen.toNat → 0xF1 ≤ s.inByte p → (∀ q : Nat, q < p → s.inByte q < 0xF1) →
      ∃ d : Nat, exec .encode s = .next { s with
        done := true
        code := 1
        cause := 3
        lastOp := 0x03
        outLen := 0
        errOffset := BitVec.ofNat 32 p
        outMem := Memory.empty
        outSpecified := false
        outEpoch := d
        draws := d }) ∧
    ((∀ q : Nat, q < s.inLen.toNat → s.inByte q < 0xF1) →
      ∃ t : State, exec .encode s = .next t ∧ t.code = 0)

/-- Rule R150: how DECODE ends. IN_LEN above IN_CAP gives BAD_LEN. Else, where the segment form decodes the input
to `y`, OUT_LEN is the length of `y`, OUT[k] is y[k] below it and unspecified from there on; where the segment
form finds a first error (rules R152, R155, R158, R159), the outcome is CORRUPT_INPUT with the number of its
cause in rule R77 and its offset. After an error no OUT byte is specified. Nothing else changes. The table is in order where the input
decodes: a decode entry that rule R29 excludes is read differently by the two forms (log entry 13). What BAD_LEN
makes of OUT is the model's reading (log entry 5). -/
def Obligations.DecodeEndsAsTheSegmentFormSays : Prop :=
  encodeInstr .decode = 0x00000004 ∧ ∀ s : State, s.busy = false →
    (s.params.cap < s.inLen.toNat → ∃ d e : Nat, exec .decode s = .next { s with
      done := true
      code := 4
      cause := 0
      lastOp := 0x04
      outLen := 0
      errOffset := 0
      outSpecified := false
      outEpoch := e
      draws := d }) ∧
    (s.lenOk → TableOk s.table → ∀ y : List Byte, decodeSegments s.table s.input = .ok y →
      y.length ≤ s.params.outCap ∧
      ∃ (d : Nat) (m : Memory),
        exec .decode s = .next { s with
          done := true
          code := 0
          cause := 0
          lastOp := 0x04
          outLen := BitVec.ofNat 32 y.length
          errOffset := 0
          outMem := m
          outSpecified := true
          outEpoch := d
          draws := d } ∧
        ∀ k : Nat, m.read k = y[k]?) ∧
    (s.lenOk → ∀ (c : CorruptCause) (p : Nat), decodeSegments s.table s.input = .error (c, p) →
      ∃ d : Nat, exec .decode s = .next { s with
        done := true
        code := 1
        cause := match c with
          | .badSymbol => 1
          | .highRunMod3 => 2
          | .badLead => 3
          | .truncated => 4
        lastOp := 0x04
        outLen := 0
        errOffset := BitVec.ofNat 32 p
        outMem := Memory.empty
        outSpecified := false
        outEpoch := d
        draws := d })

/-- Rules R186, R32: IN_LEN above IN_CAP ends ENCODE and DECODE with BAD_LEN before any byte is read, and
OUT_LEN is 0. How the two rules meet is the model's reading (log entry 5): OUT holds what it held, as rule R186
says, and what a host then reads from it is unspecified, as rule R32 says of every failed ENCODE and DECODE. -/
def Obligations.LongInputIsBadLen : Prop :=
  ∀ (s : State) (i : Instr), (i = .encode ∨ i = .decode) → s.busy = false →
    s.params.cap < s.inLen.toNat →
    ∃ d e : Nat, exec i s = .next { s with
      done := true
      code := 4
      cause := 0
      lastOp := opcodeOf i
      outLen := 0
      errOffset := 0
      outSpecified := false
      outEpoch := e
      draws := d }

/-- Rule R183: an illegal word is accepted and completes with ILLEGAL_CMD, cause 2 where bits 31 to 8 are
not zero and else cause 1. IN, OUT, OUT_LEN and the table are unchanged. Where jobs are atomic, its write to
CMD is this transition; where they are clocked (log entry 6) it ends as AcceptStartsTheJob and
AcceptedJobCompletes say. -/
def Obligations.IllegalWordCompletesWithIllegalCmd : Prop :=
  ∀ (s : State) (w : Word), s.busy = false → 5 ≤ w.toNat →
    ∃ (c : IllegalCause) (d : Nat), decodeCmd w = .illegal c ∧
      execIllegal w c s = .next { s with
        done := true
        code := 3
        cause := if w.extractLsb' 8 24 = 0 then 1 else 2
        lastOp := w.extractLsb' 0 8
        errOffset := 0
        draws := d } ∧
      (s.params.pacing = .atomic → issueCommand w s = execIllegal w c s)

/-! ### The step -/

/-- A step runs the decoded command: where the next event is a host write of a legal word anywhere in the
CMD word and jobs are atomic (log entry 6), step is exec of the command (rules R14, R52, R181). The step takes
the event out of the inbox (log entry 7) and clears the MODEL's own read data (log entry 10); for an illegal
word it runs `execIllegal`. -/
def Obligations.StepRunsTheDecodedCommand : Prop :=
  ∀ (s : State) (w : Word) (rest : List Event) (j : Nat), j < 4 → s.params.pacing = .atomic →
    s.inbox = .write (s.params.base + 0x00C + j) w :: rest →
    (∀ i : Instr, i.wellFormed = true → decodeCmd w = .instr i →
      step s = exec i { s with inbox := rest, readData := none }) ∧
    (∀ c : IllegalCause, decodeCmd w = .illegal c →
      step s = execIllegal w c { s with inbox := rest, readData := none })

/-- Rule R181: with clocked jobs (log entry 6) the same write only accepts. BUSY is 1, DONE, CODE and CAUSE are cleared,
LAST_OP takes the opcode, and nothing else of the spec's state changes; a dropped word and NOP change
nothing. -/
def Obligations.AcceptStartsTheJob : Prop :=
  ∀ (s : State) (w : Word) (rest : List Event), s.params.pacing = .clocked →
    s.inbox = .write (s.params.base + 0x00C) w :: rest →
    ((s.busy = true ∨ w = 0) → step s = .next { s with inbox := rest, readData := none }) ∧
    (s.busy = false → w ≠ 0 → ∃ job : Job, jobOf (decodeCmd w) = some job ∧
      step s = .next { s with
        inbox := rest
        readData := none
        phase := .busy job
        done := false
        code := 0
        cause := 0
        lastOp := w.extractLsb' 0 8
        draws := s.draws + 1 })

/-- Rules R63, R180, R182: no step is a fault or a refusal. -/
def Obligations.EveryStepGoesOn : Prop :=
  ∀ s : State, ∃ t : State, step s = .next t

/-- Rule R182: with no further host action a job in progress completes, and then BUSY is 0 and DONE is 1. That
it takes at most IN_LEN + 1 engine cycles is the model's choice (log entry 6). -/
def Obligations.AcceptedJobCompletes : Prop :=
  ∀ s : State, s.busy = true → s.inbox = [] →
    ∃ (k : Nat) (t : State), k ≤ s.inLen.toNat + 1 ∧ core.run k s = .next t ∧
      t.busy = false ∧ t.done = true

/-- Rules R35, R85, R183, R217: the host's write of a command word to CMD and its poll of BUSY (for a command,
the script `RUN op`) with clocked jobs end in the state that the word reaches as one atomic transition, an
illegal word too, but for the data of the host's last read. How many steps it takes, and that the poll lets
cycles pass, is the model's choice (log entries 6, 10), and so is that the two forms agree on the unspecified
bytes of OUT (`outEpoch` and `draws`, log entry 4). -/
def Obligations.ClockedRunMatchesTheAtomicCommand : Prop :=
  (∀ (base : Nat) (i : Instr),
    scriptRun base i = [scriptWr base offCmd (encodeInstr i), scriptWait base]) ∧
  ∀ (s : State) (w : Word) (rest : List Event), w ≠ 0 → s.busy = false → s.params.pacing = .clocked →
    ∃ (k : Nat) (t : State), k ≤ s.inLen.toNat + 3 ∧
      (∀ i : Instr, decodeCmd w = .instr i → exec i s = .next t) ∧
      (∀ c : IllegalCause, decodeCmd w = .illegal c → execIllegal w c s = .next t) ∧
      core.run k { s with
        inbox := scriptWr s.params.base offCmd w :: scriptWait s.params.base :: rest } =
        .next { t with inbox := rest, readData := some t.statusWord }

/-- Rules R33, R35, R62: the result of a job is a function of the state at its accept. Whatever host reads and
writes other than commands come between its cycles and after it, the results are those of the
job run alone. That cycles pass between accesses is the model's choice (log entry 6), and so is the clause of
`SameResults` on the unspecified bytes of OUT (log entry 4). -/
def Obligations.JobResultIgnoresHostAccesses : Prop :=
  ∀ (s : State) (es : List Event), s.busy = true →
    (∀ e ∈ es, (e.isAccess = true ∨ e = .cycle) ∧ e.isCommand s.params = false) →
    s.jobFuel ≤ es.count .cycle →
    ∃ t : State, core.run es.length { s with inbox := es } = .next t ∧
      SameResults (runJob s.jobFuel s) t

/-- Rule R59: after a completion the results stay in place until the host has another command accepted or
the engine is reset, whatever else reaches the engine. That the unspecified bytes of OUT stay as well (the
clause `outEpoch` of `SameResults`) is the model's choice (log entry 4). -/
def Obligations.ResultsStayUntilTheNextCommand : Prop :=
  ∀ (s : State) (e : Event), s.busy = false → e ≠ .reset → e.isCommand s.params = false →
    ∃ t : State, deliver e s = .next t ∧ SameResults s t

/-! ### Reset -/

/-- Rule R210: the state after reset, row by row, for every IN_CAP, BASE and latency form. IN and OUT hold no
specified byte. -/
def Obligations.ResetValuesAreThoseOfTheSpec : Prop :=
  ∀ p : Params,
    let s := State.resetFor p
    readTarget .id s = 0x4E423634 ∧ readTarget .version s = 0x00000001 ∧
    readTarget .ctrl s = 0 ∧ readTarget .status s = 0 ∧ readTarget .inLen s = 0 ∧
    readTarget .outLen s = 0 ∧ readTarget .errOffset s = 0 ∧ readTarget .delim s = 0x2E ∧
    readTarget .alphaLen s = 0x40 ∧ s.alpha = predefinedAlphabet ∧
    s.table = install predefinedAlphabet 0x2E ∧
    readTarget .inCap s = BitVec.ofNat 32 p.cap ∧
    readTarget .outCap s = BitVec.ofNat 32 (3 * p.cap + 1) ∧
    s.table.dec[0x41] = 0 ∧ s.table.enc[0x7F] = 0x5F ∧ s.table.enc[0x3F] = 0x5F ∧ s.table.dec[0x2E] = 0xFF ∧
    s.phase = .idle ∧ s.work = none ∧ s.irq = false ∧
    (∀ k : Nat, s.inMem.read k = none ∧ s.outMem.read k = none ∧ s.outResult k = none)

/-- Rule R211: reset puts every piece of state into its reset value at any time, during a job too, which is
abandoned without a completion. The number `d` of the free values that the bytes of IN and OUT take is the
MODEL's own (log entries 3, 4). -/
def Obligations.ResetAbandonsTheJob : Prop :=
  ∀ (s : State) (rest : List Event), s.inbox = .reset :: rest →
    ∃ d : Nat, step s = .next { State.resetFor s.params with
      inEpoch := d
      outEpoch := d
      draws := d
      inbox := rest }

/-- Rule R83: the predefined alphabet by the spec's formulas, with `.` as the delimiter; reset and
LOAD_DEFAULT install it. -/
def Obligations.PredefinedAlphabetIsUrlSafe : Prop :=
  (∀ (v : Nat) (hv : v < 64), predefinedAlphabet[v] =
    if v < 26 then BitVec.ofNat 8 (0x41 + v)
    else if v < 52 then BitVec.ofNat 8 (0x61 + (v - 26))
    else if v < 62 then BitVec.ofNat 8 (0x30 + (v - 52))
    else if v = 62 then 0x2D else 0x5F) ∧
  (∀ p : Params, (State.resetFor p).table = install predefinedAlphabet 0x2E) ∧
  ∀ s : State, s.busy = false →
    ∃ t : State, exec .loadDefault s = .next t ∧ t.table = install predefinedAlphabet 0x2E

/-! ### The register map and the host's accesses -/

/-- Rules R10, R52: which register or window word each of the engine's offsets reaches, bits 1 and 0
ignored. -/
def Obligations.RegisterMapRows : Prop :=
  ∀ n : Nat,
    let t := targetOf (BitVec.ofNat 32 n)
    (n < 0x004 → t = .id) ∧
    (0x004 ≤ n → n < 0x008 → t = .version) ∧
    (0x008 ≤ n → n < 0x00C → t = .ctrl) ∧
    (0x00C ≤ n → n < 0x010 → t = .cmd) ∧
    (0x010 ≤ n → n < 0x014 → t = .status) ∧
    (0x014 ≤ n → n < 0x018 → t = .inLen) ∧
    (0x018 ≤ n → n < 0x01C → t = .outLen) ∧
    (0x01C ≤ n → n < 0x020 → t = .errOffset) ∧
    (0x020 ≤ n → n < 0x024 → t = .delim) ∧
    (0x024 ≤ n → n < 0x028 → t = .alphaLen) ∧
    (0x028 ≤ n → n < 0x02C → t = .tblDelim) ∧
    (0x02C ≤ n → n < 0x030 → t = .inCap) ∧
    (0x030 ≤ n → n < 0x034 → t = .outCap) ∧
    (0x034 ≤ n → n < 0x100 → t = .reserved) ∧
    (0x100 ≤ n → n < 0x140 → t = .alpha ((n - 0x100) / 4)) ∧
    (0x140 ≤ n → n < 0x200 → t = .reserved) ∧
    (0x200 ≤ n → n < 0x300 → t = .encTbl ((n - 0x200) / 4)) ∧
    (0x300 ≤ n → n < 0x400 → t = .decTbl ((n - 0x300) / 4)) ∧
    (0x400 ≤ n → n < 0x01000000 → t = .reserved) ∧
    (0x01000000 ≤ n → n < 0x02000000 → t = .inWin ((n - 0x01000000) / 4)) ∧
    (0x02000000 ≤ n → n < 0x04000000 → t = .reserved) ∧
    (0x04000000 ≤ n → n < 0x08000000 → t = .outWin ((n - 0x04000000) / 4))

/-- Rule R52: an access at offset a reaches the word at a & 0xFFFFFFFC, and no access faults. -/
def Obligations.LowAddressBitsAreIgnored : Prop :=
  ∀ (s : State) (a v : Word),
    hostRead a s = hostRead (a &&& 0xFFFFFFFC) s ∧
    hostWrite a v s = hostWrite (a &&& 0xFFFFFFFC) v s ∧
    ∃ t : State, hostWrite a v s = .next t

/-- Rule R10 and the table of 93_implementation_defined.md: an access below BASE, or at an offset of
0x08000000 or more, does not reach the engine: it has no effect. That no data comes back, and that addresses
below BASE are treated alike, is the model's choice (log entry 8). -/
def Obligations.AccessOutsideTheMapHasNoEffect : Prop :=
  ∀ (s : State) (addr : Nat) (v mask : Word),
    (addr < s.params.base ∨ s.params.base + 0x08000000 ≤ addr) →
    deliver (.read addr) s = .next { s with readData := none } ∧
    deliver (.write addr v) s = .next { s with readData := none } ∧
    deliver (.poll addr mask v) s = .next { s with readData := none }

/-- Rule R56: a host read changes no state of the engine. It answers the row's value, and a second read of the
same address answers the same. `readData` is the MODEL's own record of the answer (log entry 10). That the
second read answers the same is the model's choice where the byte is unspecified: a byte of OUT, during a job
too (log entry 4), and a byte of IN that nothing has written (log entry 3). -/
def Obligations.HostReadHasNoSideEffect : Prop :=
  ∀ (s : State) (n : Nat), n < 0x08000000 →
    let r := readTarget (targetOf (BitVec.ofNat 32 n)) s
    let t := { s with readData := some r }
    deliver (.read (s.params.base + n)) s = .next t ∧
    deliver (.read (s.params.base + n)) t = .next t

/-- Rules R11, R13, R16, R214, R215: while BUSY is 1 a host write reaches CTRL and the DONE bit alone. -/
def Obligations.WritesWhileBusyAreDropped : Prop :=
  ∀ (s : State) (a v : Word), s.busy = true →
    hostWrite a v s = .next
      (match targetOf a with
        | .ctrl => { s with irqEn := v.getLsbD 0 }
        | .status => { s with done := s.done && !v.getLsbD 1 }
        | _ => s)

/-- Rules R11, R12, and the access column of R10: ID and VERSION are constants; a write to an RO row, to a reserved
offset and to the OUT window has no effect; reserved offsets and CMD read 0. -/
def Obligations.ReadOnlyAndReservedRows : Prop :=
  ∀ (s : State) (v : Word) (k : Nat),
    readTarget .id s = 0x4E423634 ∧ readTarget .version s = 0x00000001 ∧
    readTarget .reserved s = 0 ∧ readTarget .cmd s = 0 ∧
    ∀ t ∈ [Target.id, .version, .outLen, .errOffset, .tblDelim, .inCap, .outCap, .encTbl k, .decTbl k,
      .outWin k, .reserved], writeTarget t v s = s

/-- Rules R15 to R26: the word that a host read at the offset of each register returns. `readData` is the MODEL's
record of it (log entry 10). -/
def Obligations.RegisterReadsShowTheRegisters : Prop :=
  ∀ s : State,
    (hostRead 0x008 s).readData = some (if s.irqEn then 1 else 0) ∧
    (hostRead 0x010 s).readData = some s.statusWord ∧
    (hostRead 0x014 s).readData = some s.inLen ∧
    (hostRead 0x018 s).readData = some s.outLen ∧
    (hostRead 0x01C s).readData = some s.errOffset ∧
    (hostRead 0x020 s).readData = some (s.delim.setWidth 32) ∧
    (hostRead 0x024 s).readData = some s.alphaLen ∧
    (hostRead 0x028 s).readData = some (s.table.delim.setWidth 32) ∧
    ∀ (k j : Nat) (_ : j < 4) (_ : k < 16), (readTarget (.alpha k) s).extractLsb' (8 * j) 8 = s.alpha[4 * k + j]

/-- Rules R13, R20, R23, R24, R25: what a host write stores while BUSY is 0 and what then reads back. DELIM keeps
its low byte, CTRL its bit 0, and a word of ALPHA its four bytes. -/
def Obligations.RegisterWritesReadBack : Prop :=
  ∀ (s : State) (v : Word), s.busy = false →
    writeTarget .inLen v s = { s with inLen := v } ∧
    writeTarget .alphaLen v s = { s with alphaLen := v } ∧
    readTarget .inLen (writeTarget .inLen v s) = v ∧
    readTarget .alphaLen (writeTarget .alphaLen v s) = v ∧
    readTarget .delim (writeTarget .delim v s) = v &&& 0xFF ∧
    readTarget .ctrl (writeTarget .ctrl v s) = v &&& 1 ∧
    (∀ k l : Nat, k < 16 → l < 16 →
      readTarget (.alpha l) (writeTarget (.alpha k) v s) =
        if l = k then v else readTarget (.alpha l) s) ∧
    (∀ k : Nat, ∃ a : Vector Byte 64, writeTarget (.alpha k) v s = { s with alpha := a }) ∧
    writeTarget .delim v s = { s with delim := lowByte v } ∧
    writeTarget .ctrl v s = { s with irqEn := v.getLsbD 0 }

/-- Rules R31, R53: a host write of word k of the IN window while BUSY is 0 puts lane j at byte 4k + j where that
is below IN_CAP. Every other byte of IN, and all else, is as before. In every state a host read of word k shows a
stored byte in its lane, and 0 in the lanes at or beyond IN_CAP. That a word across IN_CAP stores its lower
lanes is the model's reading (log entry 11). -/
def Obligations.InWindowWriteStoresItsLanes : Prop :=
  ∀ (s : State) (k : Nat),
    (∀ j : Nat, j < 4 →
      let lane := (readTarget (.inWin k) s).extractLsb' (8 * j) 8
      (s.params.cap ≤ 4 * k + j → lane = 0) ∧
      (∀ b : Byte, 4 * k + j < s.params.cap → s.inMem.read (4 * k + j) = some b → lane = b)) ∧
    ∀ v : Word, s.busy = false →
      ∃ m : Memory, writeTarget (.inWin k) v s = { s with inMem := m } ∧
        (∀ i : Nat, m.read i =
          if i / 4 = k ∧ i < s.params.cap then some (v.extractLsb' (8 * (i % 4)) 8) else s.inMem.read i) ∧
        (4 * k + 3 < s.params.cap → readTarget (.inWin k) { s with inMem := m } = v)

/-- Rules R32, R53: outside an ENCODE or DECODE job a byte of the result of the last one, where that succeeded,
reads as it, in its lane; a byte at or beyond OUT_CAP reads 0, during a job too. -/
def Obligations.OutWindowShowsTheResult : Prop :=
  ∀ (s : State) (k j : Nat), j < 4 →
    let lane := (readTarget (.outWin k) s).extractLsb' (8 * j) 8
    (s.params.outCap ≤ 4 * k + j → lane = 0) ∧
    (∀ b : Byte, s.work = none → 4 * k + j < s.params.outCap → s.outResult (4 * k + j) = some b →
      lane = b)

/-- Rules R28, R29, R53: the table windows show ENC_TBL and DEC_TBL, byte 4k + j in lane j. -/
def Obligations.TableWindowsShowTheTable : Prop :=
  ∀ (s : State) (k j : Nat) (_ : j < 4) (hk : k < 64),
    (readTarget (.encTbl k) s).extractLsb' (8 * j) 8 = s.table.enc[4 * k + j] ∧
    (readTarget (.decTbl k) s).extractLsb' (8 * j) 8 = s.table.dec[4 * k + j]

/-- Rule R75: the layout of STATUS, with every other bit 0. -/
def Obligations.StatusWordLayout : Prop :=
  ∀ s : State,
    let w := readTarget .status s
    w.getLsbD 0 = s.busy ∧ w.getLsbD 1 = s.done ∧ w.extractLsb' 2 2 = 0 ∧
    w.extractLsb' 4 4 = s.code ∧ w.extractLsb' 8 4 = s.cause ∧ w.extractLsb' 12 4 = 0 ∧
    w.extractLsb' 16 8 = s.lastOp ∧ w.extractLsb' 24 8 = 0

/-- Rules R16, R195: irq is high while IRQ_EN and DONE are 1. After a completion it is CTRL.IRQ_EN. A write to
STATUS with bit 1 = 1 clears DONE and a write with bit 1 = 0 changes nothing; clearing DONE,
masking IRQ_EN (which leaves DONE) and the accept of a new command each make irq 0, and it is 0 after
reset. -/
def Obligations.InterruptFollowsDoneAndEnable : Prop :=
  ∀ s : State,
    (s.irq = true ↔ s.irqEn = true ∧ s.done = true) ∧
    (∀ i : Instr, i ≠ .nop → s.busy = false → ∃ t : State, exec i s = .next t ∧ t.irq = s.irqEn) ∧
    (∀ v : Word, writeTarget .status v s = if v.getLsbD 1 = true then { s with done := false } else s) ∧
    (∀ v : Word, v.getLsbD 1 = true → (writeTarget .status v s).irq = false) ∧
    (writeTarget .ctrl 0 s).irq = false ∧ (writeTarget .ctrl 0 s).done = s.done ∧
    (∀ (job : Job) (w : Word), (accept job w s).irq = false) ∧
    (State.resetFor s.params).irq = false

/-- Rules R2, R3, R27: IN_CAP and OUT_CAP read the capacities, and no step changes them. -/
def Obligations.CapacitiesNeverChange : Prop :=
  ∀ s : State,
    (readTarget .inCap s).toNat = s.params.cap ∧ 1 ≤ s.params.cap ∧ s.params.cap ≤ 2 ^ 24 ∧
    (readTarget .outCap s).toNat = 3 * s.params.cap + 1 ∧
    ∀ t : State, step s = .next t → t.params = s.params

/-- Rule R85: LOADIN puts the bytes into IN, with zeros up to the end of the last word, and their count into
IN_LEN, and changes nothing else. That the last word is stored up to IN_CAP, where IN_CAP is no multiple of 4,
is the model's reading (log entry 11), and that a write clears the read data its choice (log entry 10). -/
def Obligations.LoadInScriptLoadsTheInput : Prop :=
  ∀ (s : State) (x : List Byte) (rest : List Event), s.busy = false → x.length ≤ s.params.cap →
    let script := scriptLoadIn s.params.base x
    ∃ m : Memory, let t := { s with
        inLen := BitVec.ofNat 32 x.length
        inMem := m
        readData := none
        inbox := rest }
      core.run script.length { s with inbox := script ++ rest } = .next t ∧ t.input = x ∧
      ∀ i : Nat, m.read i =
        if i < 4 * wordsFor x.length ∧ i < s.params.cap then some (x.getD i 0) else s.inMem.read i

/-! ### Who changes what -/

/-- Rules R26, R28, R29, R62: a step changes the active table in three ways alone. A reset, and a LOAD_DEFAULT (in
progress, or written to CMD where jobs are atomic, log entry 6), installs the predefined table; a BUILD installs
the staged one after its checks pass on it. -/
def Obligations.OnlyBuildDefaultAndResetChangeTheTable : Prop :=
  ∀ s t : State, step s = .next t →
    t.table = s.table ∨
    (t.table = predefinedTable ∧ ((∃ rest : List Event, s.inbox = .reset :: rest) ∨
      s.phase = .busy .loadDefault ∨ s.issues .loadDefault)) ∨
    (t.table = install s.alpha s.delim ∧ s.alphaLen = 64 ∧ AlphabetOk s.alpha s.delim ∧
      (s.phase = .busy .build ∨ s.issues .build))

/-- Rules R11, R23, R25, decisions D30, D35: the inputs of jobs (IN, the bytes that nothing has written included,
IN_LEN and the staging registers) change by a host write while BUSY is 0 or by reset alone, and a host write
leaves the unwritten bytes of IN as they are (log entry 3). -/
def Obligations.OnlyHostWritesChangeTheInputs : Prop :=
  ∀ s t : State, step s = .next t →
    (t.inMem = s.inMem ∧ t.inEpoch = s.inEpoch ∧ t.inLen = s.inLen ∧ t.alpha = s.alpha ∧
      t.alphaLen = s.alphaLen ∧ t.delim = s.delim) ∨
    (∃ rest : List Event, s.inbox = .reset :: rest) ∨
    (s.busy = false ∧ t.inEpoch = s.inEpoch ∧ ∃ (addr : Nat) (v : Word) (rest : List Event), s.inbox = .write addr v :: rest)

/-! ### The symbol table -/

/-- Rules R30, R100, R103: what installing a good alphabet gives: symbol v is a[v], the delimiter is d, and the
table has the four properties. -/
def Obligations.InstalledTableIsInOrder : Prop :=
  ∀ (a : Vector Byte 64) (d : Byte), AlphabetOk a d →
    TableOk (install a d) ∧ (install a d).delim = d ∧
    ∀ (v : Nat) (hv : v < 64), (install a d).symbolOf v = a[v]

/-- Rules R105, R151 (and R104's two results): the lookups of a table that is in order. ENC answers the symbol
for the low six bits and never the delimiter; DEC answers the value of a symbol and INVALID for every other
byte, the delimiter among them, which the detector takes before the lookup. -/
def Obligations.LookupsOfATableInOrder : Prop :=
  ∀ t : Table, TableOk t →
    (∀ v : Byte, t.symbol v = t.symbolOf (v.toNat % 64) ∧ t.symbol v ≠ t.delim) ∧
    (∀ v : Nat, v < 64 → t.value (t.symbolOf v) = BitVec.ofNat 8 v) ∧
    (∀ b : Byte, (∃ v : Nat, v < 64 ∧ b = t.symbolOf v ∧ (t.value b).toNat = v) ∨
      ((∀ v : Nat, v < 64 → t.symbolOf v ≠ b) ∧ t.value b = 0xFF)) ∧
    t.value t.delim = 0xFF ∧
    (∀ b : Byte, t.isDelim b = true ↔ b = t.delim) ∧
    ∀ w : Work, decodeByte t w t.delim = decodeDelim w

/-! ### ENCODE's packing -/

/-- Rule R122: the runs of the input are non-empty, uniform in class and alternate, and joined in order they
are the input; the encoding of an input that holds no bad lead is the encodings of its runs, joined. -/
def Obligations.RunsPartitionTheInput : Prop :=
  ∀ x : List Byte,
    ((runsOf x).map Prod.snd).flatten = x ∧
    (∀ cr ∈ runsOf x, cr.2 ≠ [] ∧ ∀ b ∈ cr.2, classOf b = cr.1) ∧
    (runsOf x).IsChain (fun p q => p.1 ≠ q.1) ∧
    ∀ (t : Table) (y : List Byte), encodeRuns t x = .ok y → y = ((runsOf x).map (encodeRun t)).flatten

/-- Rule R80: the bit layout of a low group of m bytes, for each m from 1 to 6. -/
def Obligations.LowGroupLayout : Prop :=
  ∀ b0 b1 b2 b3 b4 b5 : Byte, b0 < 128 → b1 < 128 → b2 < 128 → b3 < 128 → b4 < 128 → b5 < 128 →
    let s0 := b0.toNat / 2
    let s1 := b0.toNat % 2 * 32 + b1.toNat / 4
    let s2 := b1.toNat % 4 * 16 + b2.toNat / 8
    let s3 := b2.toNat % 8 * 8 + b3.toNat / 16
    let s4 := b3.toNat % 16 * 4 + b4.toNat / 32
    let s5 := b4.toNat % 32 * 2 + b5.toNat / 64
    packGroup [b0] = [s0, b0.toNat % 2 * 32] ∧
    packGroup [b0, b1] = [s0, s1, b1.toNat % 4 * 16] ∧
    packGroup [b0, b1, b2] = [s0, s1, s2, b2.toNat % 8 * 8] ∧
    packGroup [b0, b1, b2, b3] = [s0, s1, s2, s3, b3.toNat % 16 * 4] ∧
    packGroup [b0, b1, b2, b3, b4] = [s0, s1, s2, s3, s4, b4.toNat % 32 * 2] ∧
    packGroup [b0, b1, b2, b3, b4, b5] = [s0, s1, s2, s3, s4, s5, b5.toNat % 64]

/-- Rule R126: a group of m bytes gives m + 1 symbols, and a low run of L bytes gives L + ceil(L / 6). -/
def Obligations.LowRunLength : Prop :=
  (∀ g : List Byte, (packGroup g).length = g.length + 1) ∧
  ∀ r : List Byte, (lowRunValues r).length = r.length + (r.length + 5) / 6

/-- Rule R129: the padding bits of every group are 0, and no symbol of a low run is the delimiter. -/
def Obligations.LowRunPaddingIsZeroAndNoDelimiter : Prop :=
  (∀ (g : List Byte) (v : Nat), g.length ≤ 6 → (packGroup g).getLast? = some v →
    v % 2 ^ (6 - g.length) = 0) ∧
  ∀ (t : Table) (r : List Byte), TableOk t → ∀ b ∈ encodeRun t (.low, r), b ≠ t.delim

/-- Rule R133: in a high run that is a concatenation of whole UTF-8 sequences each sequence gives exactly the
3 symbols of its triple in rule R81, in order. -/
def Obligations.Utf8SequenceGivesThreeSymbols : Prop :=
  (∀ l c : Byte, 0xC0 ≤ l → l ≤ 0xDF → 0x80 ≤ c → c ≤ 0xBF →
    highRunValues [l, c] = [0, l &&& 0x1F, c &&& 0x3F]) ∧
  (∀ l c1 c2 : Byte, 0xE0 ≤ l → l ≤ 0xEF → 0x80 ≤ c1 → c1 ≤ 0xBF → 0x80 ≤ c2 → c2 ≤ 0xBF →
    highRunValues [l, c1, c2] = [l &&& 0x0F, c1 &&& 0x3F, c2 &&& 0x3F]) ∧
  (∀ c1 c2 c3 : Byte, 0x80 ≤ c1 → c1 ≤ 0xBF → 0x80 ≤ c2 → c2 ≤ 0xBF → 0x80 ≤ c3 → c3 ≤ 0xBF →
    highRunValues [0xF0, c1, c2, c3] = [c1 &&& 0x3F, c2 &&& 0x3F, c3 &&& 0x3F]) ∧
  ∀ qs : List (List Byte), (∀ q ∈ qs, (highRunValues q).length = 3) →
    pieces 3 (highRunValues qs.flatten) = qs.map highRunValues ∧
    (highRunValues qs.flatten).length = 3 * qs.length

/-- Rule R136: an accepted input of n bytes encodes to at most 3n + 1 bytes, and to none if n = 0; the
bound is reached. -/
def Obligations.EncodedLengthBound : Prop :=
  (∀ (t : Table) (x y : List Byte), encodeRuns t x = .ok y →
    (x = [] → y = []) ∧ y.length ≤ 3 * x.length + 1) ∧
  ∀ t : Table, ∃ y : List Byte, encodeRuns t [0xC0] = .ok y ∧ y.length = 4

/-- Rule R138: over the round-trip domain the length is at most ceil(7n / 3), and the accepted input [0xC0]
breaks that bound. -/
def Obligations.DomainEncodedLengthBound : Prop :=
  (∀ (t : Table) (x y : List Byte), RoundTripDomain x → encodeRuns t x = .ok y →
    y.length ≤ (7 * x.length + 2) / 3) ∧
  ∀ t : Table, ∃ y : List Byte, encodeRuns t [0xC0] = .ok y ∧ (7 * 1 + 2) / 3 < y.length

/-! ### DECODE's unpacking -/

/-- Rule R153: the segments hold no delimiter, and joined by delimiters they are the stream. -/
def Obligations.SegmentsRejoinToTheStream : Prop :=
  ∀ (t : Table) (y : List Byte),
    [t.delim].intercalate (segmentsOf t y) = y ∧ ∀ seg ∈ segmentsOf t y, t.delim ∉ seg

/-- Rules R80, R160: a packed low group unpacks to its bytes. -/
def Obligations.UnpackInvertsPack : Prop :=
  ∀ g : List Byte, g.length ≤ 6 → (∀ b ∈ g, b < 128) → unpackGroup (packGroup g) = g

/-- Rule R165: every triple of symbol values, decoded, encodes to itself. -/
def Obligations.TripleReencodesToItself : Prop :=
  ∀ d0 d1 d2 : Byte, d0 < 64 → d1 < 64 → d2 < 64 → highRunValues (tripleBytes d0 d1 d2) = [d0, d1, d2]

/-- Rule R163: what encoding and then decoding makes of an overlong 3-byte sequence, and of an overlong 4-byte
sequence in its 3-byte and its 2-byte case. -/
def Obligations.OverlongSequencesComeBackShorter : Prop :=
  (∀ c1 c2 : Byte, 0x80 ≤ c1 → c1 ≤ 0x9F → 0x80 ≤ c2 → c2 ≤ 0xBF →
    highRunValues [0xE0, c1, c2] = [0, c1 &&& 0x3F, c2 &&& 0x3F] ∧
    tripleBytes 0 (c1 &&& 0x3F) (c2 &&& 0x3F) = [0xC0 ||| (c1 &&& 0x1F), c2]) ∧
  (∀ c1 c2 c3 : Byte, 0x80 ≤ c1 → c1 ≤ 0x8F → 0x80 ≤ c2 → c2 ≤ 0xBF → 0x80 ≤ c3 → c3 ≤ 0xBF →
    highRunValues [0xF0, c1, c2, c3] = [c1 &&& 0x3F, c2 &&& 0x3F, c3 &&& 0x3F] ∧
    tripleBytes (c1 &&& 0x3F) (c2 &&& 0x3F) (c3 &&& 0x3F) =
      if c1 = 0x80 ∧ c2 ≤ 0x9F then [0xC0 ||| (c2 &&& 0x1F), c3] else [0xE0 ||| (c1 &&& 0x0F), c2, c3])

/-- Rule R166: an accepted stream of n symbols decodes to at most floor(4n / 3) bytes, which is at most
3n + 1. -/
def Obligations.DecodedLengthBound : Prop :=
  ∀ (t : Table) (y x : List Byte), decodeSegments t y = .ok x →
    x.length ≤ 4 * y.length / 3 ∧ x.length ≤ 3 * y.length + 1

/-- Rule R167: the bytes of a low segment are at most 0x7F, and those of a high segment at least 0x80. -/
def Obligations.SegmentBytesKeepTheirClass : Prop :=
  ∀ (t : Table) (seg : List Byte),
    (∀ b ∈ lowSegmentBytes t seg, b ≤ 0x7F) ∧ (∀ b ∈ highSegmentBytes t seg, 0x80 ≤ b)

/-! ### The round trip -/

/-- Rules R137, R165: ENCODE accepts every input of the round-trip domain, and DECODE of the result under the
same table gives it back, so that encoding that again gives the same stream. -/
def Obligations.RoundTripOverTheDomain : Prop :=
  ∀ (t : Table) (x : List Byte), TableOk t → RoundTripDomain x →
    ∃ y : List Byte, encodeRuns t x = .ok y ∧ decodeSegments t y = .ok x

/-- Rule R137 on the machine: ENCODE an input of the domain, give the bytes of the result back to the engine as
input, and DECODE: OUT holds the first input. -/
def Obligations.MachineRoundTrip : Prop :=
  ∀ s : State, s.busy = false → s.lenOk → TableOk s.table → RoundTripDomain s.input →
    ∃ t : State, exec .encode s = .next t ∧ t.code = 0 ∧
      (t.outLen.toNat ≤ t.params.cap →
        ∀ m : Memory, (∀ k : Nat, k < t.outLen.toNat → m.read k = t.outResult k) →
          ∃ u : State, exec .decode { t with inMem := m, inLen := t.outLen } = .next u ∧
            u.code = 0 ∧ u.outLen = s.inLen ∧
            ∀ k : Nat, k < s.inLen.toNat → u.outResult k = some (s.inByte k))

/-! ### Invariants -/

/-- The invariant of the engine holds after reset, whatever the parameters. -/
def Obligations.ResetStateIsInOrder : Prop :=
  ∀ p : Params, EngineOk (State.resetFor p)

/-- Every step keeps the invariant of the engine: the table (rule R30), the status (rules R16 to R18, R22, R76,
R77), the buffers, the result, and the working state of the job with its bound on the output
cursor (rules R3, R34, R136, R166). -/
def Obligations.EngineInvariantIsKept : Prop :=
  ∀ s t : State, EngineOk s → step s = .next t → EngineOk t

/-- Rule R30: the active table has the four properties after reset, and every step keeps them. -/
def Obligations.TableInvariantIsKept : Prop :=
  (∀ p : Params, TableOk (State.resetFor p).table) ∧
  ∀ s t : State, TableOk s.table → step s = .next t → TableOk t.table

/-- Rules R16, R17, R18, R22, R76, R77: every step keeps the discipline of STATUS and ERR_OFFSET. -/
def Obligations.StatusDisciplineIsKept : Prop :=
  ∀ s t : State, StatusOk s → step s = .next t → StatusOk t

/-- Rules R31, R32, R57: every step keeps both buffers in canonical form and inside their capacities. -/
def Obligations.BuffersStayInsideTheirCapacity : Prop :=
  ∀ s t : State, BuffersOk s → step s = .next t → BuffersOk t
end

