-- ==== Sys2Proof/Laws/Memory.lean ====
section
/-! SUPPORT. The laws of the buffers: what a read gives after each operation, that each operation keeps the
canonical form, that equal readings are equal buffers, and what Emit does. -/

namespace Sys2Proof.Laws

open Sys2Proof.Machine

/-! ### Reading after writing -/

theorem readCells_writeCells (a k : Nat) (b : Byte) (cs : List Host.Cell) :
    readCells k (writeCells a b cs) = if k = a then some b else readCells k cs := by
  induction cs with
  | nil =>
    by_cases h : k = a
    · simp [writeCells, readCells, h]
    · simp [writeCells, readCells, h, Ne.symm h]
  | cons c cs ih =>
    obtain ⟨x, v⟩ := c
    unfold writeCells
    split
    · rename_i hlt
      by_cases hk : x = k
      · have : k ≠ a := by omega
        simp [readCells, hk, this]
      · simp [readCells, hk, ih]
    · split
      · rename_i hx
        by_cases hk : k = a
        · simp [readCells, hk]
        · have : x ≠ k := by omega
          simp [readCells, hk, Ne.symm hk, this]
      · by_cases hk : k = a
        · simp [readCells, hk]
        · simp [readCells, hk, Ne.symm hk]

/-- A read after a write: the byte written at its index, and every other index as before. -/
theorem read_write (m : Memory) (a k : Nat) (b : Byte) :
    (m.write a b).read k = if k = a then some b else m.read k :=
  readCells_writeCells a k b m.cells

@[simp] theorem read_write_same (m : Memory) (a : Nat) (b : Byte) : (m.write a b).read a = some b := by
  simp [read_write]

theorem read_write_other (m : Memory) {a k : Nat} (b : Byte) (h : k ≠ a) :
    (m.write a b).read k = m.read k := by
  simp [read_write, h]

@[simp] theorem read_empty (k : Nat) : Memory.empty.read k = none := rfl

theorem readCells_filter (n k : Nat) (cs : List Host.Cell) :
    readCells k (cs.filter fun c => c.1 < n) = if k < n then readCells k cs else none := by
  induction cs with
  | nil => simp [readCells]
  | cons c cs ih =>
    obtain ⟨x, v⟩ := c
    by_cases hx : x < n
    · by_cases hk : x = k
      · subst hk; simp [readCells, hx]
      · simp [readCells, hx, hk, ih]
    · by_cases hk : x = k
      · subst hk; simp [hx, ih]
      · by_cases hn : k < n <;> simp [readCells, hx, hk, ih]

/-- `keepBelow n` keeps the bytes below `n` and forgets the others. -/
theorem read_keepBelow (m : Memory) (n k : Nat) :
    (m.keepBelow n).read k = if k < n then m.read k else none :=
  readCells_filter n k m.cells

/-! ### The canonical form -/

theorem risingFrom_mono {lo lo' hi : Nat} {cs : List Host.Cell} (h : risingFrom lo hi cs = true)
    (hle : lo' ≤ lo) : risingFrom lo' hi cs = true := by
  cases cs with
  | nil => rfl
  | cons c cs =>
    obtain ⟨x, v⟩ := c
    simp only [risingFrom, Bool.and_eq_true, decide_eq_true_eq] at h ⊢
    exact ⟨⟨by omega, h.1.2⟩, h.2⟩

theorem risingFrom_writeCells {lo hi a : Nat} {b : Byte} {cs : List Host.Cell}
    (h : risingFrom lo hi cs = true) (hlo : lo ≤ a) (hhi : a < hi) :
    risingFrom lo hi (writeCells a b cs) = true := by
  induction cs generalizing lo with
  | nil => simp [writeCells, risingFrom, hlo, hhi]
  | cons c cs ih =>
    obtain ⟨x, v⟩ := c
    simp only [risingFrom, Bool.and_eq_true, decide_eq_true_eq] at h
    unfold writeCells
    split
    · rename_i hlt
      simp only [risingFrom, Bool.and_eq_true, decide_eq_true_eq]
      exact ⟨h.1, ih h.2 (by omega)⟩
    · split
      · rename_i hx
        subst hx
        simp only [risingFrom, Bool.and_eq_true, decide_eq_true_eq]
        exact ⟨⟨hlo, hhi⟩, h.2⟩
      · simp only [risingFrom, Bool.and_eq_true, decide_eq_true_eq]
        exact ⟨⟨hlo, hhi⟩, ⟨⟨by omega, h.1.2⟩, h.2⟩⟩

/-- A write inside the buffer keeps the canonical form. -/
theorem wf_write {size a : Nat} {b : Byte} {m : Memory} (h : m.wf size = true) (ha : a < size) :
    (m.write a b).wf size = true :=
  risingFrom_writeCells h (Nat.zero_le a) ha

@[simp] theorem wf_empty (size : Nat) : Memory.empty.wf size = true := rfl

theorem risingFrom_filter {lo hi n : Nat} {cs : List Host.Cell} (h : risingFrom lo hi cs = true) :
    risingFrom lo hi (cs.filter fun c => c.1 < n) = true := by
  induction cs generalizing lo with
  | nil => rfl
  | cons c cs ih =>
    obtain ⟨x, v⟩ := c
    simp only [risingFrom, Bool.and_eq_true, decide_eq_true_eq] at h
    by_cases hx : x < n
    · simp only [List.filter, hx, decide_true, risingFrom, Bool.and_eq_true, decide_eq_true_eq]
      exact ⟨h.1, ih h.2⟩
    · simp only [List.filter, hx, decide_false]
      exact risingFrom_mono (ih h.2) (by omega)

/-- `keepBelow` keeps the canonical form. -/
theorem wf_keepBelow {size : Nat} (n : Nat) {m : Memory} (h : m.wf size = true) :
    (m.keepBelow n).wf size = true :=
  risingFrom_filter h

/-- Nothing is listed below where a rising list starts. -/
theorem readCells_below {lo hi k : Nat} {cs : List Host.Cell} (h : risingFrom lo hi cs = true)
    (hk : k < lo) : readCells k cs = none := by
  induction cs generalizing lo with
  | nil => rfl
  | cons c cs ih =>
    obtain ⟨x, v⟩ := c
    simp only [risingFrom, Bool.and_eq_true, decide_eq_true_eq] at h
    have hx : x ≠ k := by omega
    simp [readCells, hx, ih h.2 (by omega)]

/-- Two buffers in canonical form that read alike everywhere are the same data. -/
theorem eq_of_read_eq {size : Nat} {m m' : Memory} (h : m.wf size = true) (h' : m'.wf size = true)
    (hr : ∀ k, m.read k = m'.read k) : m = m' := by
  suffices H : ∀ (lo : Nat) (cs cs' : List Host.Cell), risingFrom lo size cs = true →
      risingFrom lo size cs' = true → (∀ k, readCells k cs = readCells k cs') → cs = cs' by
    obtain ⟨cs⟩ := m; obtain ⟨cs'⟩ := m'
    exact congrArg Memory.mk (H 0 cs cs' h h' hr)
  intro lo cs
  induction cs generalizing lo with
  | nil =>
    intro cs' _ _ hr
    cases cs' with
    | nil => rfl
    | cons c cs' => have := hr c.1; simp [readCells] at this
  | cons c cs ih =>
    obtain ⟨x, v⟩ := c
    intro cs' h h' hr
    cases cs' with
    | nil => have := hr x; simp [readCells] at this
    | cons c' cs' =>
      obtain ⟨x', v'⟩ := c'
      simp only [risingFrom, Bool.and_eq_true, decide_eq_true_eq] at h h'
      have hxx : x = x' := by
        rcases Nat.lt_trichotomy x x' with hlt | heq | hgt
        · have h1 := hr x
          rw [show readCells x ((x', v') :: cs') = none by
            simp [readCells, Nat.ne_of_gt hlt, readCells_below h'.2 (by omega : x < x' + 1)]] at h1
          simp [readCells] at h1
        · exact heq
        · have h1 := hr x'
          rw [show readCells x' ((x, v) :: cs) = none by
            simp [readCells, Nat.ne_of_gt hgt, readCells_below h.2 (by omega : x' < x + 1)]] at h1
          simp [readCells] at h1
      subst hxx
      have hv : v = v' := by simpa [readCells] using hr x
      subst hv
      congr 1
      refine ih (x + 1) cs' h.2 h'.2 fun k => ?_
      by_cases hk : x = k
      · subst hk
        rw [readCells_below h.2 (by omega), readCells_below h'.2 (by omega)]
      · simpa [readCells, hk] using hr k

/-! ### Emit -/

@[simp] theorem emitBytes_nil (cap : Nat) (m : Memory) (o : Word) : emitBytes cap m o [] = (m, o) := rfl

theorem emitBytes_append (cap : Nat) (m : Memory) (o : Word) (xs ys : List Byte) :
    emitBytes cap m o (xs ++ ys) =
      emitBytes cap (emitBytes cap m o xs).1 (emitBytes cap m o xs).2 ys := by
  induction xs generalizing m o with
  | nil => rfl
  | cons x xs ih => simp only [List.cons_append, emitBytes, ih]

/-- Emit advances the output cursor by one for each byte. -/
theorem emitBytes_cursor (cap : Nat) (m : Memory) (o : Word) (xs : List Byte) :
    (emitBytes cap m o xs).2 = o + BitVec.ofNat 32 xs.length := by
  induction xs generalizing m o with
  | nil => simp
  | cons x xs ih =>
    simp only [emitBytes, ih, List.length_cons]
    apply BitVec.eq_of_toNat_eq
    have h1 : BitVec.toNat (1 : Word) = 1 := rfl
    simp only [BitVec.toNat_add, BitVec.toNat_ofNat, h1]
    omega

/-- Emit keeps the canonical form, whatever the cursor: it writes nothing outside the buffer. -/
theorem wf_emitBytes {cap : Nat} {m : Memory} (h : m.wf cap = true) (o : Word) (xs : List Byte) :
    (emitBytes cap m o xs).1.wf cap = true := by
  induction xs generalizing m o with
  | nil => exact h
  | cons x xs ih =>
    simp only [emitBytes]
    split
    · rename_i ho; exact ih (wf_write h ho) _
    · exact ih h _

/-- What Emit leaves in the buffer, where the bytes fit: byte j of them at the cursor plus j, and every
other index as before. -/
theorem read_emitBytes {cap : Nat} (m : Memory) (o : Word) (xs : List Byte) (k : Nat)
    (hfit : o.toNat + xs.length ≤ cap) (hcap : cap < 2 ^ 32) :
    (emitBytes cap m o xs).1.read k =
      if o.toNat ≤ k ∧ k < o.toNat + xs.length then xs[k - o.toNat]? else m.read k := by
  induction xs generalizing m o with
  | nil => simp
  | cons x xs ih =>
    simp only [List.length_cons] at hfit
    have hlt : o.toNat < cap := by omega
    have ho : (o + 1).toNat = o.toNat + 1 := by
      rw [BitVec.toNat_add]; simp; omega
    simp only [emitBytes, hlt, if_true, List.length_cons]
    rw [ih _ _ (by omega), ho, read_write]
    by_cases h1 : o.toNat + 1 ≤ k ∧ k < o.toNat + 1 + xs.length
    · have h2 : o.toNat ≤ k ∧ k < o.toNat + (xs.length + 1) := by omega
      rw [if_pos h1, if_pos h2, show k - o.toNat = (k - (o.toNat + 1)) + 1 by omega,
        List.getElem?_cons_succ]
    · rw [if_neg h1]
      by_cases hk : k = o.toNat
      · subst hk; simp
      · rw [if_neg hk, if_neg (by omega)]

end Sys2Proof.Laws
end

