-- ==== Sys2Proof/Laws/State.lean ====
section
/-! SUPPORT. One lemma for each field of each named update of the state, true by rfl, so that no proof
unfolds an update. -/

namespace Sys2Proof.Laws

open Sys2Proof.Machine

/-! ### accept -/

@[simp] theorem accept_params (j : Job) (w : Word) (s : State) : (accept j w s).params = s.params := rfl
@[simp] theorem accept_irqEn (j : Job) (w : Word) (s : State) : (accept j w s).irqEn = s.irqEn := rfl
@[simp] theorem accept_phase (j : Job) (w : Word) (s : State) : (accept j w s).phase = .busy j := rfl
@[simp] theorem accept_done (j : Job) (w : Word) (s : State) : (accept j w s).done = false := rfl
@[simp] theorem accept_code (j : Job) (w : Word) (s : State) : (accept j w s).code = 0 := rfl
@[simp] theorem accept_cause (j : Job) (w : Word) (s : State) : (accept j w s).cause = 0 := rfl
@[simp] theorem accept_lastOp (j : Job) (w : Word) (s : State) : (accept j w s).lastOp = lowByte w := rfl
@[simp] theorem accept_inLen (j : Job) (w : Word) (s : State) : (accept j w s).inLen = s.inLen := rfl
@[simp] theorem accept_outLen (j : Job) (w : Word) (s : State) : (accept j w s).outLen = s.outLen := rfl
@[simp] theorem accept_errOffset (j : Job) (w : Word) (s : State) : (accept j w s).errOffset = s.errOffset := rfl
@[simp] theorem accept_delim (j : Job) (w : Word) (s : State) : (accept j w s).delim = s.delim := rfl
@[simp] theorem accept_alphaLen (j : Job) (w : Word) (s : State) : (accept j w s).alphaLen = s.alphaLen := rfl
@[simp] theorem accept_alpha (j : Job) (w : Word) (s : State) : (accept j w s).alpha = s.alpha := rfl
@[simp] theorem accept_table (j : Job) (w : Word) (s : State) : (accept j w s).table = s.table := rfl
@[simp] theorem accept_inMem (j : Job) (w : Word) (s : State) : (accept j w s).inMem = s.inMem := rfl
@[simp] theorem accept_outMem (j : Job) (w : Word) (s : State) : (accept j w s).outMem = s.outMem := rfl
@[simp] theorem accept_outSpecified (j : Job) (w : Word) (s : State) : (accept j w s).outSpecified = s.outSpecified := rfl
@[simp] theorem accept_inEpoch (j : Job) (w : Word) (s : State) : (accept j w s).inEpoch = s.inEpoch := rfl
@[simp] theorem accept_outEpoch (j : Job) (w : Word) (s : State) : (accept j w s).outEpoch = s.outEpoch := rfl
@[simp] theorem accept_draws (j : Job) (w : Word) (s : State) : (accept j w s).draws = s.draws + 1 := rfl
@[simp] theorem accept_readData (j : Job) (w : Word) (s : State) : (accept j w s).readData = s.readData := rfl
@[simp] theorem accept_inbox (j : Job) (w : Word) (s : State) : (accept j w s).inbox = s.inbox := rfl

/-! ### complete -/

@[simp] theorem complete_params (r : JobOutcome) (x : Word) (s : State) : (complete r x s).params = s.params := rfl
@[simp] theorem complete_irqEn (r : JobOutcome) (x : Word) (s : State) : (complete r x s).irqEn = s.irqEn := rfl
@[simp] theorem complete_phase (r : JobOutcome) (x : Word) (s : State) : (complete r x s).phase = .idle := rfl
@[simp] theorem complete_done (r : JobOutcome) (x : Word) (s : State) : (complete r x s).done = true := rfl
@[simp] theorem complete_code (r : JobOutcome) (x : Word) (s : State) : (complete r x s).code = r.code := rfl
@[simp] theorem complete_cause (r : JobOutcome) (x : Word) (s : State) : (complete r x s).cause = r.cause := rfl
@[simp] theorem complete_lastOp (r : JobOutcome) (x : Word) (s : State) : (complete r x s).lastOp = s.lastOp := rfl
@[simp] theorem complete_inLen (r : JobOutcome) (x : Word) (s : State) : (complete r x s).inLen = s.inLen := rfl
@[simp] theorem complete_outLen (r : JobOutcome) (x : Word) (s : State) : (complete r x s).outLen = (match s.work with
    | none => s.outLen
    | some w => if r = .ok then w.o else 0) := rfl
@[simp] theorem complete_errOffset (r : JobOutcome) (x : Word) (s : State) : (complete r x s).errOffset = x := rfl
@[simp] theorem complete_delim (r : JobOutcome) (x : Word) (s : State) : (complete r x s).delim = s.delim := rfl
@[simp] theorem complete_alphaLen (r : JobOutcome) (x : Word) (s : State) : (complete r x s).alphaLen = s.alphaLen := rfl
@[simp] theorem complete_alpha (r : JobOutcome) (x : Word) (s : State) : (complete r x s).alpha = s.alpha := rfl
@[simp] theorem complete_table (r : JobOutcome) (x : Word) (s : State) : (complete r x s).table = s.table := rfl
@[simp] theorem complete_inMem (r : JobOutcome) (x : Word) (s : State) : (complete r x s).inMem = s.inMem := rfl
@[simp] theorem complete_outMem (r : JobOutcome) (x : Word) (s : State) : (complete r x s).outMem = (match s.work with
    | none => s.outMem
    | some w => outAfter r w.o.toNat s.outMem) := rfl
@[simp] theorem complete_outSpecified (r : JobOutcome) (x : Word) (s : State) : (complete r x s).outSpecified = (match s.work with
    | none => s.outSpecified
    | some _ => decide (r = .ok)) := rfl
@[simp] theorem complete_inEpoch (r : JobOutcome) (x : Word) (s : State) : (complete r x s).inEpoch = s.inEpoch := rfl
@[simp] theorem complete_outEpoch (r : JobOutcome) (x : Word) (s : State) : (complete r x s).outEpoch = (match s.work with
    | none => s.outEpoch
    | some _ => s.draws) := rfl
@[simp] theorem complete_draws (r : JobOutcome) (x : Word) (s : State) : (complete r x s).draws = s.draws := rfl
@[simp] theorem complete_readData (r : JobOutcome) (x : Word) (s : State) : (complete r x s).readData = s.readData := rfl
@[simp] theorem complete_inbox (r : JobOutcome) (x : Word) (s : State) : (complete r x s).inbox = s.inbox := rfl

/-! ### emitJob -/

@[simp] theorem emitJob_params (mk : Work → Job) (w : Work) (bs : List Byte) (s : State) : (emitJob mk w bs s).params = s.params := rfl
@[simp] theorem emitJob_irqEn (mk : Work → Job) (w : Work) (bs : List Byte) (s : State) : (emitJob mk w bs s).irqEn = s.irqEn := rfl
@[simp] theorem emitJob_phase (mk : Work → Job) (w : Work) (bs : List Byte) (s : State) : (emitJob mk w bs s).phase = .busy (mk { w with o := (emitBytes s.params.outCap s.outMem w.o bs).2 }) := rfl
@[simp] theorem emitJob_done (mk : Work → Job) (w : Work) (bs : List Byte) (s : State) : (emitJob mk w bs s).done = s.done := rfl
@[simp] theorem emitJob_code (mk : Work → Job) (w : Work) (bs : List Byte) (s : State) : (emitJob mk w bs s).code = s.code := rfl
@[simp] theorem emitJob_cause (mk : Work → Job) (w : Work) (bs : List Byte) (s : State) : (emitJob mk w bs s).cause = s.cause := rfl
@[simp] theorem emitJob_lastOp (mk : Work → Job) (w : Work) (bs : List Byte) (s : State) : (emitJob mk w bs s).lastOp = s.lastOp := rfl
@[simp] theorem emitJob_inLen (mk : Work → Job) (w : Work) (bs : List Byte) (s : State) : (emitJob mk w bs s).inLen = s.inLen := rfl
@[simp] theorem emitJob_outLen (mk : Work → Job) (w : Work) (bs : List Byte) (s : State) : (emitJob mk w bs s).outLen = s.outLen := rfl
@[simp] theorem emitJob_errOffset (mk : Work → Job) (w : Work) (bs : List Byte) (s : State) : (emitJob mk w bs s).errOffset = s.errOffset := rfl
@[simp] theorem emitJob_delim (mk : Work → Job) (w : Work) (bs : List Byte) (s : State) : (emitJob mk w bs s).delim = s.delim := rfl
@[simp] theorem emitJob_alphaLen (mk : Work → Job) (w : Work) (bs : List Byte) (s : State) : (emitJob mk w bs s).alphaLen = s.alphaLen := rfl
@[simp] theorem emitJob_alpha (mk : Work → Job) (w : Work) (bs : List Byte) (s : State) : (emitJob mk w bs s).alpha = s.alpha := rfl
@[simp] theorem emitJob_table (mk : Work → Job) (w : Work) (bs : List Byte) (s : State) : (emitJob mk w bs s).table = s.table := rfl
@[simp] theorem emitJob_inMem (mk : Work → Job) (w : Work) (bs : List Byte) (s : State) : (emitJob mk w bs s).inMem = s.inMem := rfl
@[simp] theorem emitJob_outMem (mk : Work → Job) (w : Work) (bs : List Byte) (s : State) : (emitJob mk w bs s).outMem = (emitBytes s.params.outCap s.outMem w.o bs).1 := rfl
@[simp] theorem emitJob_outSpecified (mk : Work → Job) (w : Work) (bs : List Byte) (s : State) : (emitJob mk w bs s).outSpecified = s.outSpecified := rfl
@[simp] theorem emitJob_inEpoch (mk : Work → Job) (w : Work) (bs : List Byte) (s : State) : (emitJob mk w bs s).inEpoch = s.inEpoch := rfl
@[simp] theorem emitJob_outEpoch (mk : Work → Job) (w : Work) (bs : List Byte) (s : State) : (emitJob mk w bs s).outEpoch = s.outEpoch := rfl
@[simp] theorem emitJob_draws (mk : Work → Job) (w : Work) (bs : List Byte) (s : State) : (emitJob mk w bs s).draws = s.draws := rfl
@[simp] theorem emitJob_readData (mk : Work → Job) (w : Work) (bs : List Byte) (s : State) : (emitJob mk w bs s).readData = s.readData := rfl
@[simp] theorem emitJob_inbox (mk : Work → Job) (w : Work) (bs : List Byte) (s : State) : (emitJob mk w bs s).inbox = s.inbox := rfl

/-! ### hardReset -/

@[simp] theorem hardReset_params (s : State) : (hardReset s).params = s.params := rfl
@[simp] theorem hardReset_irqEn (s : State) : (hardReset s).irqEn = (State.resetFor s.params).irqEn := rfl
@[simp] theorem hardReset_phase (s : State) : (hardReset s).phase = (State.resetFor s.params).phase := rfl
@[simp] theorem hardReset_done (s : State) : (hardReset s).done = (State.resetFor s.params).done := rfl
@[simp] theorem hardReset_code (s : State) : (hardReset s).code = (State.resetFor s.params).code := rfl
@[simp] theorem hardReset_cause (s : State) : (hardReset s).cause = (State.resetFor s.params).cause := rfl
@[simp] theorem hardReset_lastOp (s : State) : (hardReset s).lastOp = (State.resetFor s.params).lastOp := rfl
@[simp] theorem hardReset_inLen (s : State) : (hardReset s).inLen = (State.resetFor s.params).inLen := rfl
@[simp] theorem hardReset_outLen (s : State) : (hardReset s).outLen = (State.resetFor s.params).outLen := rfl
@[simp] theorem hardReset_errOffset (s : State) : (hardReset s).errOffset = (State.resetFor s.params).errOffset := rfl
@[simp] theorem hardReset_delim (s : State) : (hardReset s).delim = (State.resetFor s.params).delim := rfl
@[simp] theorem hardReset_alphaLen (s : State) : (hardReset s).alphaLen = (State.resetFor s.params).alphaLen := rfl
@[simp] theorem hardReset_alpha (s : State) : (hardReset s).alpha = (State.resetFor s.params).alpha := rfl
@[simp] theorem hardReset_table (s : State) : (hardReset s).table = (State.resetFor s.params).table := rfl
@[simp] theorem hardReset_inMem (s : State) : (hardReset s).inMem = (State.resetFor s.params).inMem := rfl
@[simp] theorem hardReset_outMem (s : State) : (hardReset s).outMem = (State.resetFor s.params).outMem := rfl
@[simp] theorem hardReset_outSpecified (s : State) : (hardReset s).outSpecified = false := rfl
@[simp] theorem hardReset_inEpoch (s : State) : (hardReset s).inEpoch = s.draws + 1 := rfl
@[simp] theorem hardReset_outEpoch (s : State) : (hardReset s).outEpoch = s.draws + 1 := rfl
@[simp] theorem hardReset_draws (s : State) : (hardReset s).draws = s.draws + 1 := rfl
@[simp] theorem hardReset_readData (s : State) : (hardReset s).readData = (State.resetFor s.params).readData := rfl
@[simp] theorem hardReset_inbox (s : State) : (hardReset s).inbox = s.inbox := rfl

/-! ### acknowledge -/

@[simp] theorem acknowledge_params (v : Word) (s : State) : (acknowledge v s).params = s.params := rfl
@[simp] theorem acknowledge_irqEn (v : Word) (s : State) : (acknowledge v s).irqEn = s.irqEn := rfl
@[simp] theorem acknowledge_phase (v : Word) (s : State) : (acknowledge v s).phase = s.phase := rfl
@[simp] theorem acknowledge_done (v : Word) (s : State) : (acknowledge v s).done = (s.done && !v.getLsbD 1) := rfl
@[simp] theorem acknowledge_code (v : Word) (s : State) : (acknowledge v s).code = s.code := rfl
@[simp] theorem acknowledge_cause (v : Word) (s : State) : (acknowledge v s).cause = s.cause := rfl
@[simp] theorem acknowledge_lastOp (v : Word) (s : State) : (acknowledge v s).lastOp = s.lastOp := rfl
@[simp] theorem acknowledge_inLen (v : Word) (s : State) : (acknowledge v s).inLen = s.inLen := rfl
@[simp] theorem acknowledge_outLen (v : Word) (s : State) : (acknowledge v s).outLen = s.outLen := rfl
@[simp] theorem acknowledge_errOffset (v : Word) (s : State) : (acknowledge v s).errOffset = s.errOffset := rfl
@[simp] theorem acknowledge_delim (v : Word) (s : State) : (acknowledge v s).delim = s.delim := rfl
@[simp] theorem acknowledge_alphaLen (v : Word) (s : State) : (acknowledge v s).alphaLen = s.alphaLen := rfl
@[simp] theorem acknowledge_alpha (v : Word) (s : State) : (acknowledge v s).alpha = s.alpha := rfl
@[simp] theorem acknowledge_table (v : Word) (s : State) : (acknowledge v s).table = s.table := rfl
@[simp] theorem acknowledge_inMem (v : Word) (s : State) : (acknowledge v s).inMem = s.inMem := rfl
@[simp] theorem acknowledge_outMem (v : Word) (s : State) : (acknowledge v s).outMem = s.outMem := rfl
@[simp] theorem acknowledge_outSpecified (v : Word) (s : State) : (acknowledge v s).outSpecified = s.outSpecified := rfl
@[simp] theorem acknowledge_inEpoch (v : Word) (s : State) : (acknowledge v s).inEpoch = s.inEpoch := rfl
@[simp] theorem acknowledge_outEpoch (v : Word) (s : State) : (acknowledge v s).outEpoch = s.outEpoch := rfl
@[simp] theorem acknowledge_draws (v : Word) (s : State) : (acknowledge v s).draws = s.draws := rfl
@[simp] theorem acknowledge_readData (v : Word) (s : State) : (acknowledge v s).readData = s.readData := rfl
@[simp] theorem acknowledge_inbox (v : Word) (s : State) : (acknowledge v s).inbox = s.inbox := rfl

/-! ### hostRead -/

@[simp] theorem hostRead_params (a : Word) (s : State) : (hostRead a s).params = s.params := rfl
@[simp] theorem hostRead_irqEn (a : Word) (s : State) : (hostRead a s).irqEn = s.irqEn := rfl
@[simp] theorem hostRead_phase (a : Word) (s : State) : (hostRead a s).phase = s.phase := rfl
@[simp] theorem hostRead_done (a : Word) (s : State) : (hostRead a s).done = s.done := rfl
@[simp] theorem hostRead_code (a : Word) (s : State) : (hostRead a s).code = s.code := rfl
@[simp] theorem hostRead_cause (a : Word) (s : State) : (hostRead a s).cause = s.cause := rfl
@[simp] theorem hostRead_lastOp (a : Word) (s : State) : (hostRead a s).lastOp = s.lastOp := rfl
@[simp] theorem hostRead_inLen (a : Word) (s : State) : (hostRead a s).inLen = s.inLen := rfl
@[simp] theorem hostRead_outLen (a : Word) (s : State) : (hostRead a s).outLen = s.outLen := rfl
@[simp] theorem hostRead_errOffset (a : Word) (s : State) : (hostRead a s).errOffset = s.errOffset := rfl
@[simp] theorem hostRead_delim (a : Word) (s : State) : (hostRead a s).delim = s.delim := rfl
@[simp] theorem hostRead_alphaLen (a : Word) (s : State) : (hostRead a s).alphaLen = s.alphaLen := rfl
@[simp] theorem hostRead_alpha (a : Word) (s : State) : (hostRead a s).alpha = s.alpha := rfl
@[simp] theorem hostRead_table (a : Word) (s : State) : (hostRead a s).table = s.table := rfl
@[simp] theorem hostRead_inMem (a : Word) (s : State) : (hostRead a s).inMem = s.inMem := rfl
@[simp] theorem hostRead_outMem (a : Word) (s : State) : (hostRead a s).outMem = s.outMem := rfl
@[simp] theorem hostRead_outSpecified (a : Word) (s : State) : (hostRead a s).outSpecified = s.outSpecified := rfl
@[simp] theorem hostRead_inEpoch (a : Word) (s : State) : (hostRead a s).inEpoch = s.inEpoch := rfl
@[simp] theorem hostRead_outEpoch (a : Word) (s : State) : (hostRead a s).outEpoch = s.outEpoch := rfl
@[simp] theorem hostRead_draws (a : Word) (s : State) : (hostRead a s).draws = s.draws := rfl
@[simp] theorem hostRead_readData (a : Word) (s : State) : (hostRead a s).readData = some (readTarget (targetOf a) s) := rfl
@[simp] theorem hostRead_inbox (a : Word) (s : State) : (hostRead a s).inbox = s.inbox := rfl

/-! ### resetFor -/

@[simp] theorem resetFor_params (p : Params) : (State.resetFor p).params = p := rfl
@[simp] theorem resetFor_irqEn (p : Params) : (State.resetFor p).irqEn = false := rfl
@[simp] theorem resetFor_phase (p : Params) : (State.resetFor p).phase = .idle := rfl
@[simp] theorem resetFor_done (p : Params) : (State.resetFor p).done = false := rfl
@[simp] theorem resetFor_code (p : Params) : (State.resetFor p).code = 0 := rfl
@[simp] theorem resetFor_cause (p : Params) : (State.resetFor p).cause = 0 := rfl
@[simp] theorem resetFor_lastOp (p : Params) : (State.resetFor p).lastOp = 0 := rfl
@[simp] theorem resetFor_inLen (p : Params) : (State.resetFor p).inLen = 0 := rfl
@[simp] theorem resetFor_outLen (p : Params) : (State.resetFor p).outLen = 0 := rfl
@[simp] theorem resetFor_errOffset (p : Params) : (State.resetFor p).errOffset = 0 := rfl
@[simp] theorem resetFor_delim (p : Params) : (State.resetFor p).delim = predefinedDelim := rfl
@[simp] theorem resetFor_alphaLen (p : Params) : (State.resetFor p).alphaLen = 64 := rfl
@[simp] theorem resetFor_alpha (p : Params) : (State.resetFor p).alpha = predefinedAlphabet := rfl
@[simp] theorem resetFor_table (p : Params) : (State.resetFor p).table = predefinedTable := rfl
@[simp] theorem resetFor_inMem (p : Params) : (State.resetFor p).inMem = Memory.empty := rfl
@[simp] theorem resetFor_outMem (p : Params) : (State.resetFor p).outMem = Memory.empty := rfl
@[simp] theorem resetFor_outSpecified (p : Params) : (State.resetFor p).outSpecified = false := rfl
@[simp] theorem resetFor_inEpoch (p : Params) : (State.resetFor p).inEpoch = 0 := rfl
@[simp] theorem resetFor_outEpoch (p : Params) : (State.resetFor p).outEpoch = 0 := rfl
@[simp] theorem resetFor_draws (p : Params) : (State.resetFor p).draws = 0 := rfl
@[simp] theorem resetFor_readData (p : Params) : (State.resetFor p).readData = none := rfl
@[simp] theorem resetFor_inbox (p : Params) : (State.resetFor p).inbox = [] := rfl

/-! ### The two views of the phase -/

theorem busy_of_phase_idle {s : State} (h : s.phase = .idle) : s.busy = false := by
  simp [State.busy, h]

theorem busy_of_phase_busy {s : State} {j : Job} (h : s.phase = .busy j) : s.busy = true := by
  simp [State.busy, h]

theorem phase_idle_of_not_busy {s : State} (h : s.busy = false) : s.phase = .idle := by
  cases hp : s.phase with
  | idle => rfl
  | busy j => simp [busy_of_phase_busy hp] at h

theorem phase_busy_of_busy {s : State} (h : s.busy = true) : ∃ j, s.phase = .busy j := by
  cases hp : s.phase with
  | idle => simp [busy_of_phase_idle hp] at h
  | busy j => exact ⟨j, rfl⟩

@[simp] theorem accept_busy (j : Job) (w : Word) (s : State) : (accept j w s).busy = true := rfl

@[simp] theorem complete_busy (r : JobOutcome) (x : Word) (s : State) : (complete r x s).busy = false :=
  rfl

@[simp] theorem emitJob_busy (mk : Work → Job) (w : Work) (bs : List Byte) (s : State) :
    (emitJob mk w bs s).busy = true := rfl

/-- The working state is a view of the phase alone. -/
theorem work_congr {s t : State} (h : t.phase = s.phase) : t.work = s.work := by
  simp [State.work, h]

/-- STATUS.BUSY is a view of the phase alone. -/
theorem busy_congr {s t : State} (h : t.phase = s.phase) : t.busy = s.busy := by
  simp [State.busy, h]

@[simp] theorem emitJob_encode_work (w : Work) (bs : List Byte) (s : State) :
    (emitJob .encode w bs s).work =
      some { w with o := (emitBytes s.params.outCap s.outMem w.o bs).2 } := rfl

@[simp] theorem emitJob_decode_work (w : Work) (bs : List Byte) (s : State) :
    (emitJob .decode w bs s).work =
      some { w with o := (emitBytes s.params.outCap s.outMem w.o bs).2 } := rfl

/-! ### What OUT is specified to hold -/

/-- After a success OUT is specified to hold the bytes written in it. -/
theorem outResult_of_specified {s : State} (h : s.outSpecified = true) (k : Nat) :
    s.outResult k = s.outMem.read k := by simp [State.outResult, h]

/-- After a failure, and after reset, OUT is not specified to hold anything. -/
theorem outResult_of_unspecified {s : State} (h : s.outSpecified = false) (k : Nat) :
    s.outResult k = none := by simp [State.outResult, h]

end Sys2Proof.Laws
end

