-- ==== Sys2Proof/Laws/Jobs.lean ====
section
/-! SUPPORT. What one engine cycle can do, said once for each kind of job, and what every cycle and every
command leave unchanged. Proofs about jobs cite these lemmas instead of unfolding a cycle. -/

namespace Sys2Proof.Laws

open Sys2Proof Sys2Proof.Machine

/-! ### Outcomes -/

/-- Every outcome records a pair of rule R77's table. -/
theorem legalOutcome_of_outcome (r : JobOutcome) : legalOutcome r.code r.cause := by
  rcases r with _ | c | c | c | _ <;> try cases c
  all_goals simp [legalOutcome, JobOutcome.code, JobOutcome.cause]

/-! ### What a cycle can do -/

@[simp] theorem jobCycle_idle {s : State} (h : s.phase = .idle) : jobCycle s = s := by
  simp [jobCycle, h]

theorem jobCycle_busy {s : State} {j : Job} (h : s.phase = .busy j) :
    jobCycle s = jobWork j { s with draws := s.draws + 1 } := by
  simp [jobCycle, h]

theorem jobWork_build (s : State) : jobWork .build s = buildCycle s := rfl

theorem jobWork_encode (w : Work) (s : State) : jobWork (.encode w) s = encodeCycle w s := rfl

theorem jobWork_decode (w : Work) (s : State) : jobWork (.decode w) s = decodeCycle w s := rfl

/-- LOAD_DEFAULT's one cycle. -/
theorem jobWork_loadDefault (s : State) :
    jobWork .loadDefault s = complete .ok 0 { s with table := predefinedTable } := rfl

/-- The one cycle of an illegal command. -/
theorem jobWork_illegal (c : IllegalCause) (s : State) :
    jobWork (.illegal c) s = complete (.illegalCmd c) 0 s := rfl

/-- BUILD's one cycle: the failing check's outcome, or the installation. -/
theorem buildCycle_cases (s : State) :
    (∃ c, configProblem s.alpha s.alphaLen s.delim = some c ∧
      buildCycle s = complete (.configError c) 0 s) ∨
    (configProblem s.alpha s.alphaLen s.delim = none ∧
      buildCycle s = complete .ok 0 { s with table := install s.alpha s.delim }) := by
  unfold buildCycle
  cases h : configProblem s.alpha s.alphaLen s.delim with
  | some c => exact .inl ⟨c, rfl, rfl⟩
  | none => exact .inr ⟨rfl, rfl⟩

/-- One cycle of ENCODE: BAD_LEN, a bad lead, one byte consumed, or the end. -/
theorem encodeCycle_cases (w : Work) (s : State) :
    (s.params.cap < s.inLen.toNat ∧ encodeCycle w s = complete .badLen 0 s) ∨
    (s.inLen.toNat ≤ s.params.cap ∧ w.i.toNat < s.inLen.toNat ∧
      encodeByte s.table w (s.inByte w.i.toNat) = none ∧
      encodeCycle w s = complete (.corruptInput .badLead) w.i s) ∨
    (∃ r, s.inLen.toNat ≤ s.params.cap ∧ w.i.toNat < s.inLen.toNat ∧
      encodeByte s.table w (s.inByte w.i.toNat) = some r ∧
      encodeCycle w s = emitJob .encode { r.1 with i := w.i + 1 } r.2 s) ∨
    (s.inLen.toNat ≤ s.params.cap ∧ s.inLen.toNat ≤ w.i.toNat ∧
      encodeCycle w s =
        complete .ok 0 (emitJob .encode (encodeEnd s.table w).1 (encodeEnd s.table w).2 s)) := by
  unfold encodeCycle
  by_cases h1 : s.params.cap < s.inLen.toNat
  · exact .inl ⟨h1, if_pos h1⟩
  · rw [if_neg h1]
    by_cases h2 : w.i.toNat < s.inLen.toNat
    · rw [if_pos h2]
      cases h3 : encodeByte s.table w (s.inByte w.i.toNat) with
      | none => exact .inr (.inl ⟨by omega, h2, rfl, rfl⟩)
      | some r => exact .inr (.inr (.inl ⟨r, by omega, h2, rfl, rfl⟩))
    · rw [if_neg h2]
      exact .inr (.inr (.inr ⟨by omega, by omega, rfl⟩))

/-- One cycle of DECODE: BAD_LEN, an error at the symbol, one symbol consumed, TRUNCATED, or the end. -/
theorem decodeCycle_cases (w : Work) (s : State) :
    (s.params.cap < s.inLen.toNat ∧ decodeCycle w s = complete .badLen 0 s) ∨
    (∃ c, s.inLen.toNat ≤ s.params.cap ∧ w.i.toNat < s.inLen.toNat ∧
      decodeByte s.table w (s.inByte w.i.toNat) = .error c ∧
      decodeCycle w s = complete (.corruptInput c) w.i s) ∨
    (∃ r, s.inLen.toNat ≤ s.params.cap ∧ w.i.toNat < s.inLen.toNat ∧
      decodeByte s.table w (s.inByte w.i.toNat) = .ok r ∧
      decodeCycle w s = emitJob .decode { r.1 with i := w.i + 1 } r.2 s) ∨
    (s.inLen.toNat ≤ s.params.cap ∧ s.inLen.toNat ≤ w.i.toNat ∧ w.mode = .high ∧
      decodeCycle w s = complete (.corruptInput .truncated) s.inLen s) ∨
    (s.inLen.toNat ≤ s.params.cap ∧ s.inLen.toNat ≤ w.i.toNat ∧ w.mode = .low ∧
      decodeCycle w s =
        complete .ok 0 (emitJob .decode (flushPendingDec w).1 (flushPendingDec w).2 s)) := by
  unfold decodeCycle
  by_cases h1 : s.params.cap < s.inLen.toNat
  · exact .inl ⟨h1, if_pos h1⟩
  · rw [if_neg h1]
    by_cases h2 : w.i.toNat < s.inLen.toNat
    · rw [if_pos h2]
      cases h3 : decodeByte s.table w (s.inByte w.i.toNat) with
      | error c => exact .inr (.inl ⟨c, by omega, h2, rfl, rfl⟩)
      | ok r => exact .inr (.inr (.inl ⟨r, by omega, h2, rfl, rfl⟩))
    · rw [if_neg h2]
      cases h4 : w.mode with
      | high => exact .inr (.inr (.inr (.inl ⟨by omega, by omega, rfl, rfl⟩)))
      | low => exact .inr (.inr (.inr (.inr ⟨by omega, by omega, rfl, rfl⟩)))

/-! ### What no cycle changes -/

/-- The two states agree on everything that belongs to the host and the platform, and on LAST_OP. -/
structure SameHost (s t : State) : Prop where
  params : t.params = s.params
  irqEn : t.irqEn = s.irqEn
  lastOp : t.lastOp = s.lastOp
  inLen : t.inLen = s.inLen
  delim : t.delim = s.delim
  alphaLen : t.alphaLen = s.alphaLen
  alpha : t.alpha = s.alpha
  inMem : t.inMem = s.inMem
  inEpoch : t.inEpoch = s.inEpoch
  readData : t.readData = s.readData
  inbox : t.inbox = s.inbox

theorem SameHost.rfl' (s : State) : SameHost s s := by constructor <;> rfl

theorem SameHost.trans {s t u : State} (h : SameHost s t) (h' : SameHost t u) : SameHost s u := by
  constructor
  · rw [h'.params, h.params]
  · rw [h'.irqEn, h.irqEn]
  · rw [h'.lastOp, h.lastOp]
  · rw [h'.inLen, h.inLen]
  · rw [h'.delim, h.delim]
  · rw [h'.alphaLen, h.alphaLen]
  · rw [h'.alpha, h.alpha]
  · rw [h'.inMem, h.inMem]
  · rw [h'.inEpoch, h.inEpoch]
  · rw [h'.readData, h.readData]
  · rw [h'.inbox, h.inbox]

theorem complete_sameHost (r : JobOutcome) (x : Word) (s : State) : SameHost s (complete r x s) := by
  constructor <;> rfl

theorem emitJob_sameHost (mk : Work → Job) (w : Work) (out : List Byte) (s : State) :
    SameHost s (emitJob mk w out s) := by
  constructor <;> rfl

theorem buildCycle_sameHost (s : State) : SameHost s (buildCycle s) := by
  obtain ⟨c, -, h⟩ | ⟨-, h⟩ := buildCycle_cases s <;> rw [h] <;> constructor <;> rfl

theorem encodeCycle_sameHost (w : Work) (s : State) : SameHost s (encodeCycle w s) := by
  obtain ⟨-, h⟩ | ⟨-, -, -, h⟩ | ⟨r, -, -, -, h⟩ | ⟨-, -, h⟩ := encodeCycle_cases w s <;>
    rw [h] <;> constructor <;> rfl

theorem decodeCycle_sameHost (w : Work) (s : State) : SameHost s (decodeCycle w s) := by
  obtain ⟨-, h⟩ | ⟨c, -, -, -, h⟩ | ⟨r, -, -, -, h⟩ | ⟨-, -, -, h⟩ | ⟨-, -, -, h⟩ :=
    decodeCycle_cases w s <;> rw [h] <;> constructor <;> rfl

theorem jobWork_sameHost (j : Job) (s : State) : SameHost s (jobWork j s) := by
  cases j with
  | build => exact buildCycle_sameHost s
  | loadDefault => constructor <;> rfl
  | encode w => exact encodeCycle_sameHost w s
  | decode w => exact decodeCycle_sameHost w s
  | illegal c => exact complete_sameHost _ _ s

/-- An engine cycle changes nothing of the host's and the platform's. -/
theorem jobCycle_sameHost (s : State) : SameHost s (jobCycle s) := by
  cases h : s.phase with
  | idle => rw [jobCycle_idle h]; exact SameHost.rfl' s
  | busy j =>
    rw [jobCycle_busy h]
    exact SameHost.trans (by constructor <;> rfl) (jobWork_sameHost j _)

/-! ### Running a job -/

@[simp] theorem runJob_zero (s : State) : runJob 0 s = s := rfl

theorem runJob_idle (n : Nat) {s : State} (h : s.phase = .idle) : runJob n s = s := by
  cases n with
  | zero => rfl
  | succ n => simp [runJob, h]

theorem runJob_succ (n : Nat) (s : State) : runJob (n + 1) s = runJob n (jobCycle s) := by
  cases h : s.phase with
  | idle => rw [runJob_idle _ h, jobCycle_idle h, runJob_idle _ h]
  | busy j => simp [runJob, h]

/-- A property that one cycle keeps holds after any number of them. -/
theorem runJob_induct {P : State → Prop} (step : ∀ s, P s → P (jobCycle s)) :
    ∀ (n : Nat) (s : State), P s → P (runJob n s)
  | 0, _, h => h
  | n + 1, s, h => by rw [runJob_succ]; exact runJob_induct step n _ (step s h)

theorem runJob_sameHost (n : Nat) (s : State) : SameHost s (runJob n s) :=
  runJob_induct (P := SameHost s) (fun _ h => h.trans (jobCycle_sameHost _)) n s (SameHost.rfl' s)

/-! ### Commands -/

theorem runCommand_busy (j : Job) (w : Word) {s : State} (h : s.busy = true) : runCommand j w s = s := by
  simp [runCommand, h]

theorem runCommand_idle (j : Job) (w : Word) {s : State} (h : s.busy = false) :
    runCommand j w s = runJob s.jobFuel (accept j w s) := by
  simp [runCommand, h]

/-- A command is dropped, or accepted and run: what it can do, in the two cases. -/
theorem runCommand_cases (j : Job) (w : Word) (s : State) :
    (s.busy = true ∧ runCommand j w s = s) ∨
    (s.busy = false ∧ runCommand j w s = runJob s.jobFuel (accept j w s)) := by
  cases h : s.busy with
  | true => exact .inl ⟨rfl, runCommand_busy j w h⟩
  | false => exact .inr ⟨rfl, runCommand_idle j w h⟩

/-- A property that an accept and a cycle keep holds after a command. -/
theorem runCommand_induct {P : State → Prop} (cycle : ∀ s, P s → P (jobCycle s)) (j : Job) (w : Word)
    (acc : ∀ s, s.busy = false → P s → P (accept j w s)) (s : State) (h : P s) :
    P (runCommand j w s) := by
  obtain ⟨-, e⟩ | ⟨hb, e⟩ := runCommand_cases j w s
  · rw [e]; exact h
  · rw [e]; exact runJob_induct cycle _ _ (acc s hb h)

/-- Every arm of exec answers a next state. -/
theorem exec_next (i : Instr) (s : State) : ∃ t, exec i s = .next t := by
  cases i <;> exact ⟨_, rfl⟩

end Sys2Proof.Laws
end

