-- ==== Sys2Proof/Laws/Bus.lean ====
section
/-! SUPPORT. What the delivery of an event can do, said once, and the principle by which an invariant is
proved of every step. -/

namespace Sys2Proof.Laws

open Sys2Proof Sys2Proof.Machine

/-! ### Command words -/

/-- A legal word's low byte is its command's opcode. -/
theorem lowByte_of_decode {w : Word} {i : Instr} (h : decodeCmd w = .instr i) :
    lowByte w = opcodeOf i := by
  unfold decodeCmd at h
  split at h
  · rename_i hw; subst hw; cases h; rfl
  · split at h
    · cases h
    · split at h <;> cases h <;> rename_i hk <;>
        exact BitVec.eq_of_toNat_eq (by simpa [lowByte, opcodeOf] using hk)

theorem lowByte_encodeInstr (i : Instr) : lowByte (encodeInstr i) = opcodeOf i := by
  cases i <;> rfl

/-! ### Command issue -/

/-- What `exec` can do: nothing, for NOP, or the command whose job the table gives. -/
theorem exec_cases (i : Instr) (s : State) :
    (i = .nop ∧ exec i s = .next s) ∨
    (∃ j, jobOf (.instr i) = some j ∧ exec i s = .next (runCommand j (encodeInstr i) s)) := by
  cases i
  · exact .inl ⟨rfl, rfl⟩
  all_goals exact .inr ⟨_, rfl, rfl⟩

/-- What a write to CMD can do: nothing, the accept alone, or the whole command. In the last two the job is
the word's, and the word the engine keeps the opcode of has the decoded command's opcode. -/
theorem issueCommand_cases (w : Word) (s : State) :
    issueCommand w s = .next s ∨
    ∃ j w', jobOf (decodeCmd w) = some j ∧ (∀ i, decodeCmd w = .instr i → lowByte w' = opcodeOf i) ∧
      (issueCommand w s = .next (startCommand j w' s) ∨ issueCommand w s = .next (runCommand j w' s)) := by
  unfold issueCommand
  cases s.params.pacing with
  | atomic =>
    cases hd : decodeCmd w with
    | instr i =>
      obtain ⟨-, h⟩ | ⟨j, hj, h⟩ := exec_cases i s
      · exact .inl h
      · exact .inr ⟨j, encodeInstr i, hj, fun i' hi => by cases hi; exact lowByte_encodeInstr i, .inr h⟩
    | illegal c => exact .inr ⟨_, w, rfl, (fun i hi => nomatch hi), .inr rfl⟩
  | clocked =>
    cases hj : jobOf (decodeCmd w) with
    | none => exact .inl rfl
    | some j => exact .inr ⟨j, w, rfl, fun i hi => lowByte_of_decode hi, .inl rfl⟩

/-- A host write is a write of a row other than CMD, or the issue of a command. -/
theorem hostWrite_cases (a v : Word) (s : State) :
    (targetOf a = .cmd ∧ hostWrite a v s = issueCommand v s) ∨
    (targetOf a ≠ .cmd ∧ hostWrite a v s = .next (writeTarget (targetOf a) v s)) := by
  unfold hostWrite
  cases h : targetOf a <;> simp

@[simp] theorem frozen_idle {s : State} (h : s.busy = false) (s' : State) : frozen s s' = s' := by
  simp [frozen, h]

@[simp] theorem frozen_busy {s : State} (h : s.busy = true) (s' : State) : frozen s s' = s := by
  simp [frozen, h]

/-- A write of a row other than CMD changes at most one host-owned field: here is all it can do. -/
theorem writeTarget_cases (t : Target) (v : Word) (s : State) :
    writeTarget t v s = s ∨
    writeTarget t v s = { s with irqEn := v.getLsbD 0 } ∨
    writeTarget t v s = acknowledge v s ∨
    (s.busy = false ∧ ∃ (l n : Word) (d : Byte) (a : Vector Byte 64) (m : Memory),
      writeTarget t v s = { s with inLen := l, alphaLen := n, delim := d, alpha := a, inMem := m } ∧
      (m = s.inMem ∨ ∃ k, m = writeLanes s.params.cap k v 4 s.inMem)) := by
  cases hb : s.busy with
  | true => cases t <;> simp [writeTarget, frozen, hb]
  | false =>
    cases t
    case inLen =>
      exact .inr (.inr (.inr ⟨rfl, v, s.alphaLen, s.delim, s.alpha, s.inMem, frozen_idle hb _, .inl rfl⟩))
    case delim =>
      exact .inr (.inr (.inr ⟨rfl, s.inLen, s.alphaLen, lowByte v, s.alpha, s.inMem, frozen_idle hb _,
        .inl rfl⟩))
    case alphaLen =>
      exact .inr (.inr (.inr ⟨rfl, s.inLen, v, s.delim, s.alpha, s.inMem, frozen_idle hb _, .inl rfl⟩))
    case alpha k =>
      exact .inr (.inr (.inr ⟨rfl, s.inLen, s.alphaLen, s.delim, writeAlpha k v s.alpha, s.inMem,
        frozen_idle hb _, .inl rfl⟩))
    case inWin k =>
      exact .inr (.inr (.inr ⟨rfl, s.inLen, s.alphaLen, s.delim, s.alpha,
        writeLanes s.params.cap k v 4 s.inMem, frozen_idle hb _, .inr ⟨k, rfl⟩⟩))
    all_goals simp [writeTarget]

/-! ### The invariant principle -/

/-- What must be shown for a property to hold after every step: the platform's own fields do not matter to
it, and a cycle, a reset, a write of a row and an accept keep it. -/
structure KeptByParts (P : State → Prop) : Prop where
  platform : ∀ (s : State) (es : List Event) (d : Option Word), P s → P { s with inbox := es, readData := d }
  cycle : ∀ s : State, P s → P (jobCycle s)
  reset : ∀ s : State, P s → P (hardReset s)
  write : ∀ (t : Target) (v : Word) (s : State), P s → P (writeTarget t v s)
  accept : ∀ (c : Decoded) (j : Job) (w : Word) (s : State), jobOf c = some j →
    (∀ i, c = .instr i → lowByte w = opcodeOf i) → s.busy = false → P s → P (accept j w s)

theorem KeptByParts.issue {P : State → Prop} (h : KeptByParts P) {w : Word} {s t : State} (hs : P s)
    (ht : issueCommand w s = .next t) : P t := by
  obtain e | ⟨j, w', hj, hw, e | e⟩ := issueCommand_cases w s
  · rw [e] at ht; cases ht; exact hs
  · rw [e] at ht; cases ht
    unfold startCommand
    cases hb : s.busy with
    | true => exact hs
    | false => exact h.accept _ j w' s hj hw hb hs
  · rw [e] at ht; cases ht
    exact runCommand_induct h.cycle j w' (fun s hb hs => h.accept _ j w' s hj hw hb hs) s hs

theorem KeptByParts.deliver {P : State → Prop} (h : KeptByParts P) {e : Event} {s t : State} (hs : P s)
    (ht : deliver e s = .next t) : P t := by
  have env : ∀ (s : State) (d : Option Word), P s → P { s with readData := d } :=
    fun s d hs => h.platform s s.inbox d hs
  cases e with
  | read addr =>
    simp only [Machine.deliver] at ht
    split at ht <;> cases ht
    · exact env s _ hs
    · exact env s _ hs
  | write addr v =>
    simp only [Machine.deliver] at ht
    split at ht
    · cases ht; exact env s _ hs
    · rename_i a _
      obtain ⟨-, e⟩ | ⟨-, e⟩ := hostWrite_cases a v { s with readData := none }
      · rw [e] at ht; exact h.issue (env s _ hs) ht
      · rw [e] at ht; cases ht; exact h.write _ v _ (env s _ hs)
  | poll addr mask v =>
    simp only [Machine.deliver] at ht
    split at ht
    · cases ht; exact env s _ hs
    · split at ht <;> cases ht
      · exact env s _ hs
      · exact h.platform _ _ _ (h.cycle _ (env s _ hs))
  | cycle => cases ht; exact h.cycle s hs
  | reset => cases ht; exact h.reset s hs

/-- A property that every part keeps holds after every step. -/
theorem KeptByParts.step {P : State → Prop} (h : KeptByParts P) {s t : State} (hs : P s)
    (ht : step s = .next t) : P t := by
  unfold Machine.step stepNext at ht
  split at ht
  · cases ht; exact h.cycle s hs
  · rename_i e rest _
    exact h.deliver (h.platform s rest s.readData hs) ht

/-- A delivered event answers a next state. -/
theorem deliver_next (e : Event) (s : State) : ∃ t, deliver e s = .next t := by
  have issue : ∀ (w : Word) (s : State), ∃ t, issueCommand w s = .next t := by
    intro w s
    obtain e | ⟨j, w', -, -, e | e⟩ := issueCommand_cases w s <;> exact ⟨_, e⟩
  cases e with
  | read addr => simp only [deliver]; split <;> exact ⟨_, rfl⟩
  | write addr v =>
    simp only [deliver]
    split
    · exact ⟨_, rfl⟩
    · rename_i a _
      obtain ⟨-, e⟩ | ⟨-, e⟩ := hostWrite_cases a v { s with readData := none }
      · rw [e]; exact issue _ _
      · exact ⟨_, e⟩
  | poll addr mask v =>
    simp only [deliver]
    split
    · exact ⟨_, rfl⟩
    · split <;> exact ⟨_, rfl⟩
  | cycle => exact ⟨_, rfl⟩
  | reset => exact ⟨_, rfl⟩

/-! ### The lanes of a window -/

/-- Lane j of word k of a byte window is byte 4k + j. -/
theorem lane_windowWord (f : Nat → Byte) (k : Nat) {j : Nat} (hj : j < 4) :
    (windowWord f k).extractLsb' (8 * j) 8 = f (4 * k + j) := by
  obtain rfl | rfl | rfl | rfl : j = 0 ∨ j = 1 ∨ j = 2 ∨ j = 3 := by omega
  all_goals
    simp only [windowWord, wordOfLanes]
    apply BitVec.eq_of_getLsbD_eq
    intro i hi
    interval_cases i <;> simp only [BitVec.getLsbD_extractLsb', BitVec.getLsbD_append] <;> simp

/-! ### Writing lanes of IN -/

/-- A word written into IN keeps the canonical form. -/
theorem wf_writeLanes {cap : Nat} (k : Nat) (v : Word) (n : Nat) {m : Memory} (h : m.wf cap = true) :
    (writeLanes cap k v n m).wf cap = true := by
  induction n with
  | zero => exact h
  | succ n ih =>
    simp only [writeLanes]
    split
    · rename_i hc; exact wf_write ih hc
    · exact ih

/-- What lanes 0 to n - 1 leave in IN. -/
theorem read_writeLanes (cap k : Nat) (v : Word) (n : Nat) (m : Memory) (i : Nat) :
    (writeLanes cap k v n m).read i =
      if 4 * k ≤ i ∧ i < 4 * k + n ∧ i < cap then some (laneOf v (i - 4 * k)) else m.read i := by
  induction n with
  | zero => simp [writeLanes]; omega
  | succ n ih =>
    simp only [writeLanes]
    by_cases hc : 4 * k + n < cap
    · rw [if_pos hc, read_write, ih]
      by_cases hi : i = 4 * k + n
      · subst hi; simp [hc]
      · rw [if_neg hi]
        by_cases h1 : 4 * k ≤ i ∧ i < 4 * k + n ∧ i < cap
        · rw [if_pos h1, if_pos (by omega)]
        · rw [if_neg h1, if_neg (by omega)]
    · rw [if_neg hc, ih]
      by_cases h1 : 4 * k ≤ i ∧ i < 4 * k + n ∧ i < cap
      · rw [if_pos h1, if_pos (by omega)]
      · rw [if_neg h1, if_neg (by omega)]

end Sys2Proof.Laws
end

