-- ==== Sys2Proof/Laws/PerInstr.lean ====
section
/-! SUPPORT. The families of facts proved once for every command, one lemma for each. -/

namespace Sys2Proof.Laws

open Sys2Proof Sys2Proof.Machine

/-- The command is well formed, and the encoder's word of it passes both checks of rule R73, with the
command's opcode of rule R71 in the OPCODE field. -/
def EncodingLegal.Statement (i : Instr) : Prop :=
  i.wellFormed = true ∧ mbzClear (encodeInstr i) = true ∧ opcodeAssigned (encodeInstr i) = true ∧
    lowByte (encodeInstr i) = opcodeOf i

theorem EncodingLegal.nop : EncodingLegal.Statement .nop :=
  ⟨rfl, by decide, by decide, by decide⟩

theorem EncodingLegal.build : EncodingLegal.Statement .build :=
  ⟨rfl, by decide, by decide, by decide⟩

theorem EncodingLegal.loadDefault : EncodingLegal.Statement .loadDefault :=
  ⟨rfl, by decide, by decide, by decide⟩

theorem EncodingLegal.encode : EncodingLegal.Statement .encode :=
  ⟨rfl, by decide, by decide, by decide⟩

theorem EncodingLegal.decode : EncodingLegal.Statement .decode :=
  ⟨rfl, by decide, by decide, by decide⟩

end Sys2Proof.Laws
end

