-- ==== Sys2Proof/Laws/Table.lean ====
section
/-! SUPPORT. What the table's installation writes (rule R100), and what BUILD's checks mean (rule R101). -/

namespace Sys2Proof.Laws

open Sys2Proof Sys2Proof.Machine

/-- Where no symbol equals `b`, the writes leave its entry alone. -/
theorem lastWritten_of_absent (b : Nat) : ∀ (xs : List Byte) (v : Nat) (f : Byte),
    (∀ x ∈ xs, x.toNat ≠ b) → lastWritten b xs v f = f
  | [], _, _, _ => rfl
  | x :: xs, v, f, h => by
    have hx : (x.toNat == b) = false := by simpa using h x (by simp)
    rw [lastWritten, hx]
    exact lastWritten_of_absent b xs _ f fun y hy => h y (by simp [hy])

/-- Where exactly one symbol equals `b`, the writes leave its index there. -/
theorem lastWritten_of_unique (b : Nat) : ∀ (xs : List Byte) (v : Nat) (f : Byte) (k : Nat)
    (hk : k < xs.length), xs[k].toNat = b →
    (∀ (j : Nat) (hj : j < xs.length), xs[j].toNat = b → j = k) →
    lastWritten b xs v f = BitVec.ofNat 8 (v + k)
  | [], _, _, k, hk, _, _ => by simp at hk
  | x :: xs, v, f, 0, _, h, hu => by
    have h' : x.toNat = b := by simpa using h
    rw [lastWritten, lastWritten_of_absent]
    · simp [h']
    · intro y hy hyb
      obtain ⟨n, hn, rfl⟩ := List.mem_iff_getElem.1 hy
      have := hu (n + 1) (by simp; omega) (by simpa using hyb)
      omega
  | x :: xs, v, f, k + 1, hk, h, hu => by
    rw [lastWritten, lastWritten_of_unique b xs (v + 1) _ k (by simpa using hk) (by simpa using h)]
    · congr 1; omega
    · intro j hj hjb
      have := hu (j + 1) (by simpa using hj) (by simpa using hjb)
      omega

/-- BUILD's third check passes on lists without a repeat alone. -/
theorem nodup_of_hasDuplicate : ∀ l : List Byte, hasDuplicate l = false → l.Nodup
  | [], _ => List.nodup_nil
  | x :: xs, h => by
    simp only [hasDuplicate, Bool.or_eq_false_iff] at h
    refine List.nodup_cons.2 ⟨fun hx => ?_, nodup_of_hasDuplicate xs h.2⟩
    have h1 := h.1
    simp only [List.any_eq_false, beq_iff_eq] at h1
    exact h1 x hx rfl

/-- BUILD's three checks pass on 64 distinct symbols and a delimiter outside them alone. -/
theorem alphabetOk_of_configProblem {a : Vector Byte 64} {n : Word} {d : Byte}
    (h : configProblem a n d = none) : n = 64 ∧ AlphabetOk a d := by
  unfold configProblem at h
  split at h
  · cases h
  rename_i h1
  split at h
  · cases h
  rename_i h2
  split at h
  · cases h
  rename_i h3
  refine ⟨by simpa using h1, ?_, ?_⟩
  · intro v w hv hw he
    have hn := nodup_of_hasDuplicate a.toList (by simpa using h3)
    exact (List.Nodup.getElem_inj_iff hn (i := v) (j := w) (hi := by simpa using hv)
      (hj := by simpa using hw)).1 (by simpa using he)
  · intro v hv he
    apply h2
    rw [delimInAlphabet, List.any_eq_true]
    exact ⟨a[v], by simp, by simp [he]⟩

/-! ### What an installed table answers -/

/-- ENC after an installation (rules R100, R104). -/
@[simp] theorem install_symbol (a : Vector Byte 64) (d v : Byte) :
    (install a d).symbol v = a[v.toNat % 64]'(Nat.mod_lt _ (by decide)) := by
  simp [Table.symbol, install]

/-- DEC after an installation (rules R100, R105). -/
@[simp] theorem install_value (a : Vector Byte 64) (d b : Byte) :
    (install a d).value b = lastWritten b.toNat a.toList 0 invalidEntry := by
  simp [Table.value, install]

@[simp] theorem install_delim (a : Vector Byte 64) (d : Byte) : (install a d).delim = d := rfl

end Sys2Proof.Laws
end

