-- ==== Sys2Proof/Laws/Streams.lean ====
section
/-! SUPPORT. What the packers, the unpackers and one turn of each loop can do, said once. -/

namespace Sys2Proof.Laws

open Sys2Proof Sys2Proof.Machine

/-- OUT's capacity fits the 32-bit output cursor (rule R2). -/
theorem outCap_lt (p : Params) : p.outCap < 2 ^ 32 := by
  have h := p.inCap.2.2
  unfold Params.outCap
  omega

/-- The capacity of IN has the bound of rule R2. -/
theorem cap_le (p : Params) : p.cap ≤ 2 ^ 24 := p.inCap.2.2

theorem outCap_eq (p : Params) : p.outCap = 3 * p.cap + 1 := rfl

/-- pack_low emits m + 1 symbols (rule R126). -/
@[simp] theorem packLow_length (t : Table) (acc : BitVec 42) (m : Nat) :
    (packLow t acc m).length = m + 1 := by simp [packLow]

/-- unpack_low emits n - 1 bytes (rule R160). -/
@[simp] theorem unpackLow_length (acc : BitVec 42) (n : Nat) : (unpackLow acc n).length = n - 1 := by
  simp [unpackLow]

/-- A triple gives 2, 3 or 4 bytes (rule R162). -/
theorem tripleBytes_length (d0 d1 d2 : Byte) :
    2 ≤ (tripleBytes d0 d1 d2).length ∧ (tripleBytes d0 d1 d2).length ≤ 4 := by
  unfold tripleBytes
  split
  · simp
  · split <;> simp

/-- A high byte gives at most two symbols (rule R131). -/
theorem highValues_length {b : Byte} {vs : List Byte} (h : highValues b = some vs) : vs.length ≤ 2 := by
  unfold highValues at h
  repeat' split at h
  all_goals first | (cases h; done) | (cases h; simp)

/-- One turn of ENCODE's loop: a low byte, a bad lead, or a high byte. -/
theorem encodeByte_cases (t : Table) (w : Work) (b : Byte) :
    (classOf b = .low ∧ encodeByte t w b = some (encodeLowByte t w b)) ∨
    (classOf b = .high ∧ highValues b = none ∧ encodeByte t w b = none) ∨
    (∃ vs, classOf b = .high ∧ highValues b = some vs ∧
      encodeByte t w b = some ((openHighRun t w).1, (openHighRun t w).2 ++ vs.map t.symbol)) := by
  unfold encodeByte
  cases classOf b with
  | low => exact .inl ⟨rfl, rfl⟩
  | high =>
    cases highValues b with
    | none => exact .inr (.inl ⟨rfl, rfl, rfl⟩)
    | some vs => exact .inr (.inr ⟨vs, rfl, rfl, rfl⟩)

/-- One turn of DECODE's loop: a delimiter, a bad symbol, or a symbol. -/
theorem decodeByte_cases (t : Table) (w : Work) (b : Byte) :
    (b = t.delim ∧ decodeByte t w b = decodeDelim w) ∨
    (b ≠ t.delim ∧ t.value b = invalidEntry ∧ decodeByte t w b = .error .badSymbol) ∨
    (b ≠ t.delim ∧ t.value b ≠ invalidEntry ∧
      decodeByte t w b = .ok (decodeSymbol w (t.value b))) := by
  unfold decodeByte Table.isDelim
  by_cases h : b = t.delim
  · exact .inl ⟨h, by simp [h]⟩
  · by_cases hv : t.value b = invalidEntry
    · exact .inr (.inl ⟨h, hv, by simp [h, hv]⟩)
    · exact .inr (.inr ⟨h, hv, by simp [h, hv]⟩)

/-- In a table that is in order, an entry that is not INVALID is a symbol value (rule R105). -/
theorem value_lt {t : Table} (ht : TableOk t) {b : Byte} (h : t.value b ≠ invalidEntry) :
    (t.value b).toNat < 64 := by
  by_contra hc
  refine h (ht.otherwise b fun v hv he => ?_)
  subst he
  rw [ht.inverse v hv] at hc
  simp at hc
  omega

end Sys2Proof.Laws
end

