-- ==== Sys2Proof/Tests/Slice0.lean ====
section
/-! SUPPORT. The engine's own tests: ill-formed words and buffers, the command words bit by bit, one step of
each command on vectors of 95_test_vectors.md, the register map at the ends of its ranges, and for each
statement with hypotheses a theorem `witness_…` that meets them. -/

namespace Sys2Proof.Tests

open Sys2Proof Sys2Proof.Machine

/-! ### Small states -/

/-- The cells of a byte string from index `i` on. -/
def cellsFrom : Nat → List Byte → List Host.Cell
  | _, [] => []
  | i, b :: bs => (i, b) :: cellsFrom (i + 1) bs

/-- The reset state with the bytes in IN and their count in IN_LEN. -/
def loaded (x : List Byte) : State :=
  { State.reset with inMem := ⟨cellsFrom 0 x⟩, inLen := BitVec.ofNat 32 x.length }

/-- Parameters with clocked jobs, IN_CAP 8 and BASE 0x1000. -/
def clockedParams : Params := ⟨⟨8, by decide⟩, 0x1000, .clocked⟩

/-- An ENCODE of `A` in progress: the byte is consumed and its group is pending. -/
def busyState : State :=
  { State.resetFor clockedParams with
    inMem := ⟨[(0, 0x41)]⟩, inLen := 1, lastOp := 0x03
    phase := .busy (.encode ⟨1, 0, .low, 0x41, 1, 0⟩) }

/-- The alphabet STD of 95_test_vectors.md: `+` and `/` in the last two places. -/
def stdAlphabet : Vector Byte 64 := #v[
  0x41, 0x42, 0x43, 0x44, 0x45, 0x46, 0x47, 0x48, 0x49, 0x4A, 0x4B, 0x4C, 0x4D,
  0x4E, 0x4F, 0x50, 0x51, 0x52, 0x53, 0x54, 0x55, 0x56, 0x57, 0x58, 0x59, 0x5A,
  0x61, 0x62, 0x63, 0x64, 0x65, 0x66, 0x67, 0x68, 0x69, 0x6A, 0x6B, 0x6C, 0x6D,
  0x6E, 0x6F, 0x70, 0x71, 0x72, 0x73, 0x74, 0x75, 0x76, 0x77, 0x78, 0x79, 0x7A,
  0x30, 0x31, 0x32, 0x33, 0x34, 0x35, 0x36, 0x37, 0x38, 0x39, 0x2B, 0x2F]

/-- The alphabet DUP of 95_test_vectors.md: its last byte is a second `A`. -/
def dupAlphabet : Vector Byte 64 := stdAlphabet.set 63 0x41

/-- A property of the state an outcome goes on with. -/
def goesOn (o : Host.Outcome State Fault Refusal) (f : State → Bool) : Bool :=
  match o with
  | .next s => f s
  | .fault _ => false
  | .refused _ => false

/-- The bytes that OUT[0..n) is specified to hold. -/
def outBytes (s : State) (n : Nat) : List (Option Byte) := (List.range n).map s.outResult

/-! ### Well-formedness and decoding -/

/-- Check 1 of a command word refuses the word of vector C2. -/
theorem test_mbz_set_is_ill_formed : mbzClear 0x00000105 = false := by decide

/-- Check 2 refuses the word of vector C3, and the first reserved opcode. -/
theorem test_reserved_opcode_is_ill_formed :
    opcodeAssigned 0x00000007 = false ∧ opcodeAssigned 0x00000005 = false ∧
      commandWordLegal 0x00000007 = false := by decide

/-- The vectors C2 to C5: the decoder refuses an ill-formed word by the cause it has. -/
theorem test_illegal_words :
    decodeCmd 0x00000105 = .illegal .mbzSet ∧ decodeCmd 0x00000007 = .illegal .reservedOpcode ∧
      decodeCmd 0xFFFFFFFF = .illegal .mbzSet ∧ decodeCmd 0x00000100 = .illegal .mbzSet ∧
      decodeTableWord 32 0x105 = none := by decide

/-- A buffer whose indices do not rise, or leave the buffer, is ill formed. -/
theorem test_ill_formed_buffers :
    Memory.wf 8 ⟨[(1, 0), (1, 0)]⟩ = false ∧ Memory.wf 8 ⟨[(2, 0), (1, 0)]⟩ = false ∧
      Memory.wf 8 ⟨[(8, 0)]⟩ = false ∧ Memory.wf 8 ⟨[(0, 0), (7, 0)]⟩ = true := by decide

/-- Rule R71, opcode 0x00 with MBZ zero. -/
theorem test_decode_nop : decodeTableWord 32 0b00000000000000000000000000000000 = some .nop := by decide

/-- Rule R71, opcode 0x01. -/
theorem test_decode_build : decodeTableWord 32 0b00000000000000000000000000000001 = some .build := by
  decide

/-- Rule R71, opcode 0x02. -/
theorem test_decode_load_default :
    decodeTableWord 32 0b00000000000000000000000000000010 = some .loadDefault := by decide

/-- Rule R71, opcode 0x03. -/
theorem test_decode_encode : decodeTableWord 32 0b00000000000000000000000000000011 = some .encode := by
  decide

/-- Rule R71, opcode 0x04. -/
theorem test_decode_decode : decodeTableWord 32 0b00000000000000000000000000000100 = some .decode := by
  decide

/-! ### One step of each command, on the spec's vectors -/

/-- Vector C1: STATUS reads as before a NOP. -/
theorem test_nop :
    goesOn (step ({ loaded [0x41] with done := true, lastOp := 0x03 }.withFetchWord 32 0))
      (fun s => s.statusWord == 0x00030002 && s.inLen == 1) = true := by decide +kernel

/-- Vector T3: the staged alphabet becomes the table; the words at 0x328 and 0x32C show it. -/
theorem test_build :
    goesOn (step ({ State.reset with alpha := stdAlphabet, delim := 0x3D }.withFetchWord 32 1))
      (fun s => s.statusWord == 0x00010002 && readTarget .tblDelim s == 0x3D &&
        readTarget (.decTbl 10) s == 0x3EFFFFFF && readTarget (.decTbl 11) s == 0x3FFFFFFF) = true := by
  decide +kernel

/-- Vector T5: DELIM_IN_ALPHA is checked before DUPLICATE, and the table stays. -/
theorem test_build_rejects :
    goesOn (step ({ State.reset with alpha := dupAlphabet, delim := 0x41 }.withFetchWord 32 1))
      (fun s => s.statusWord == 0x00010222 && readTarget .tblDelim s == 0x2E) = true := by
  decide +kernel

/-- Vector T2 after another table: the words at 0x200 and 0x23C of the predefined table come back. -/
theorem test_load_default :
    goesOn (step ({ State.reset with table := install stdAlphabet 0x3D }.withFetchWord 32 2))
      (fun s => s.statusWord == 0x00020002 && readTarget (.encTbl 0) s == 0x44434241
        && readTarget (.encTbl 15) s == 0x5F2D3938) = true := by decide +kernel

/-- Vector E11: `aéb` gives `wg.ADp.xA`. -/
theorem test_encode :
    goesOn (step ((loaded [0x61, 0xC3, 0xA9, 0x62]).withFetchWord 32 3))
      (fun s => s.statusWord == 0x00030002 && s.outLen == 9 && outBytes s 10 ==
        [some 0x77, some 0x67, some 0x2E, some 0x41, some 0x44, some 0x70, some 0x2E, some 0x78,
          some 0x41, none]) = true := by decide +kernel

/-- Worked example W9: the first bad lead of 41 FF 42 F5 is at offset 1, with CAUSE 3. Vector E23 after a
success: BAD_LEN, and every byte of OUT is unspecified from then on (rule R32). -/
theorem test_encode_errors :
    goesOn (step ((loaded [0x41, 0xFF, 0x42, 0xF5]).withFetchWord 32 3))
      (fun s => s.code == 1 && s.cause == 3 && s.errOffset == 1 && s.outLen == 0) = true ∧
    goesOn (step ({ State.reset with inLen := 257, outLen := 1, outMem := ⟨[(0, 0x41)]⟩, outSpecified := true
        }.withFetchWord 32 3))
      (fun s => s.statusWord == 0x00030042 && s.outLen == 0 && s.outMem.read 0 == some 0x41
        && s.outResult 0 == none) = true := by decide +kernel

/-- Vector D12: `wg.ADp.xA` gives 61 C3 A9 62. -/
theorem test_decode :
    goesOn (step ((loaded [0x77, 0x67, 0x2E, 0x41, 0x44, 0x70, 0x2E, 0x78, 0x41]).withFetchWord 32 4))
      (fun s => s.statusWord == 0x00040002 && s.outLen == 4 && outBytes s 4 ==
        [some 0x61, some 0xC3, some 0xA9, some 0x62]) = true := by decide +kernel

/-- Vector D18: the bad count at offset 5 is reported, and the bad symbol at 6 is not. -/
theorem test_decode_mod3 :
    goesOn (step ((loaded [0x67, 0x67, 0x2E, 0x41, 0x41, 0x2E, 0x3D]).withFetchWord 32 4))
      (fun s => s.statusWord == 0x00040212 && s.errOffset == 5 && s.outLen == 0) = true := by
  decide +kernel

/-- Vector C2: an illegal word completes with STATUS 0x00050232. -/
theorem test_illegal_word :
    goesOn (step (State.reset.withFetchWord 32 0x105)) (fun s => s.statusWord == 0x00050232) = true := by
  decide +kernel

/-! ### The register map at the ends of its ranges -/

/-- The first and the last offset of each range of rule R10. -/
theorem test_map_ends :
    [0x000, 0x003, 0x004, 0x007, 0x008, 0x00B, 0x00C, 0x00F, 0x010, 0x013, 0x014, 0x017, 0x018, 0x01B,
        0x01C, 0x01F, 0x020, 0x023, 0x024, 0x027, 0x028, 0x02B, 0x02C, 0x02F, 0x030, 0x033].map
        (fun n => targetOf (BitVec.ofNat 32 n)) =
      [.id, .id, .version, .version, .ctrl, .ctrl, .cmd, .cmd, .status, .status, .inLen, .inLen, .outLen,
        .outLen, .errOffset, .errOffset, .delim, .delim, .alphaLen, .alphaLen, .tblDelim, .tblDelim,
        .inCap, .inCap, .outCap, .outCap] ∧
    [0x034, 0x0FF, 0x100, 0x13F, 0x140, 0x1FF, 0x200, 0x2FF, 0x300, 0x3FF, 0x400, 0x00FFFFFF, 0x01000000,
        0x01FFFFFF, 0x02000000, 0x03FFFFFF, 0x04000000, 0x07FFFFFF].map
        (fun n => targetOf (BitVec.ofNat 32 n)) =
      [.reserved, .reserved, .alpha 0, .alpha 15, .reserved, .reserved, .encTbl 0, .encTbl 63, .decTbl 0,
        .decTbl 63, .reserved, .reserved, .inWin 0, .inWin 0x3FFFFF, .reserved, .reserved, .outWin 0,
        .outWin 0xFFFFFF] := by decide +kernel

/-- Read values of 95_test_vectors.md §2.1 after reset: ID, the words at 0x32C and 0x340. -/
theorem test_reset_words :
    readTarget .id State.reset = 0x4E423634 ∧ readTarget (.decTbl 11) State.reset = 0xFFFF3EFF ∧
      readTarget (.decTbl 16) State.reset = 0x020100FF := by decide +kernel

/-! ### The hypotheses of the statements can be met -/

/-- STD with the delimiter `=` passes the checks of BUILD. -/
theorem witness_AlphabetOk : AlphabetOk stdAlphabet 0x3D := by
  have h : ∀ v : Fin 64, lastWritten (stdAlphabet[v]).toNat stdAlphabet.toList 0 0xFF =
      BitVec.ofNat 8 v.val := by decide +kernel
  constructor
  · intro v w hv hw e
    have h1 := h ⟨v, hv⟩
    have h2 := h ⟨w, hw⟩
    simp only [Fin.getElem_fin] at h1 h2
    rw [e, h2] at h1
    have := congrArg BitVec.toNat h1
    simp only [BitVec.toNat_ofNat] at this
    omega
  · have h : ∀ v : Fin 64, stdAlphabet[v] ≠ 0x3D := by decide +kernel
    exact fun v hv => h ⟨v, hv⟩

/-- A table that is in order: STD with the delimiter `=`. -/
theorem witness_TableOk : TableOk (install stdAlphabet 0x3D) := by
  have hi : ∀ v : Fin 64, lastWritten (stdAlphabet[v]).toNat stdAlphabet.toList 0 invalidEntry =
      BitVec.ofNat 8 v.val := by decide +kernel
  have ho : ∀ b : Fin 256, lastWritten b.val stdAlphabet.toList 0 invalidEntry = invalidEntry ∨
      stdAlphabet.toList.contains (BitVec.ofNat 8 b.val) = true := by decide +kernel
  have hs : ∀ (v : Nat) (hv : v < 64), (install stdAlphabet 0x3D).symbolOf v = stdAlphabet[v] := by
    intro v hv
    simp only [Table.symbolOf, Laws.install_symbol, BitVec.toNat_ofNat]
    congr 1
    omega
  refine ⟨fun v => ?_, fun v w hv hw e => ?_, fun v hv e => ?_, fun v hv => ?_, fun b hb => ?_⟩
  · simp only [Laws.install_symbol, BitVec.toNat_and]
    congr 1
    rw [show BitVec.toNat (0x3F : Byte) = 2 ^ 6 - 1 from rfl, Nat.and_two_pow_sub_one_eq_mod]
    omega
  · rw [hs v hv, hs w hw] at e
    exact witness_AlphabetOk.distinct v w hv hw e
  · rw [hs v hv] at e
    exact witness_AlphabetOk.notDelim v hv e
  · rw [hs v hv, Laws.install_value]
    exact hi ⟨v, hv⟩
  · rw [Laws.install_value]
    obtain h | h := ho b.toFin
    · simpa using h
    · simp only [BitVec.val_toFin, BitVec.ofNat_toNat, BitVec.setWidth_eq, List.contains_iff_mem,
        Vector.mem_toList_iff] at h
      obtain ⟨v, hv, e⟩ := Vector.getElem_of_mem h
      exact absurd ((hs v hv).trans e) (hb v hv)

theorem witness_OpcodeMapWordsDecode : Instr.decode.wellFormed = true := rfl

theorem witness_CommandWhileBusyIsDropped : busyState.busy = true := rfl

theorem witness_BuildChecksThenInstalls_ok :
    let s := { State.reset with alpha := stdAlphabet, delim := 0x3D }
    s.busy = false ∧ s.alphaLen = 64 ∧ AlphabetOk s.alpha s.delim :=
  ⟨rfl, rfl, witness_AlphabetOk⟩

/-- Vectors T6, T5 and T4, one for each check, with ALPHA_LEN next to 64 on both sides. -/
theorem witness_BuildChecksThenInstalls_failed :
    State.reset.busy = false ∧
    ({ State.reset with alphaLen := 63 } : State).alphaLen ≠ 64 ∧
    ({ State.reset with alphaLen := 65 } : State).alphaLen ≠ 64 ∧
    (∃ (v : Nat) (hv : v < 64), dupAlphabet[v] = 0x41) ∧
    (∀ (v : Nat) (hv : v < 64), dupAlphabet[v] ≠ 0x3D) ∧
    (∃ (v w : Nat) (hv : v < w) (hw : w < 64), dupAlphabet[v] = dupAlphabet[w]) := by
  have h : ∀ v : Fin 64, dupAlphabet[v] ≠ 0x3D := by decide +kernel
  exact ⟨rfl, by decide, by decide, ⟨0, by decide, by decide +kernel⟩, fun v hv => h ⟨v, hv⟩,
    ⟨0, 63, by decide, by decide, by decide +kernel⟩⟩

theorem witness_LoadDefaultInstallsThePredefinedTable : State.reset.busy = false := rfl

/-- One byte too many, an input that is encoded, and a bad lead. -/
theorem witness_EncodeEndsAsTheRunFormSays :
    (let s := { State.reset with inLen := 257 };
      s.busy = false ∧ s.params.cap < s.inLen.toNat) ∧
    (let s := loaded [0x41, 0xC3, 0xA9];
      s.busy = false ∧ s.inLen.toNat ≤ s.params.cap ∧
        encodeRuns s.table s.input = .ok [0x67, 0x67, 0x2E, 0x41, 0x44, 0x70, 0x2E]) ∧
    (let s := loaded [0x41, 0xFF];
      s.busy = false ∧ s.inLen.toNat ≤ s.params.cap ∧
        encodeRuns s.table s.input = .error (.badLead, 1)) := by
  refine ⟨by decide, ⟨rfl, by decide, ?_⟩, rfl, by decide, ?_⟩ <;> decide +kernel

/-- The two ends of the bad leads, and the byte below them. -/
theorem witness_EncodeRejectsTheFirstBadLead :
    (let s := loaded [0xF0, 0xF1, 0xFF];
      s.busy = false ∧ s.inLen.toNat ≤ s.params.cap ∧ 1 < s.inLen.toNat ∧ 0xF1 ≤ s.inByte 1 ∧
        ∀ q : Nat, q < 1 → s.inByte q < 0xF1) ∧
    (let s := loaded [0xFF];
      0 < s.inLen.toNat ∧ 0xF1 ≤ s.inByte 0 ∧ ∀ q : Nat, q < 0 → s.inByte q < 0xF1) ∧
    (let s := loaded [0xF0, 0x00];
      s.busy = false ∧ s.inLen.toNat ≤ s.params.cap ∧ ∀ q : Nat, q < s.inLen.toNat → s.inByte q < 0xF1) := by
  refine ⟨⟨rfl, by decide, by decide, by decide, ?_⟩, ⟨by decide, by decide, by decide⟩, rfl, by decide, ?_⟩
  · decide
  · decide

/-- One symbol too many, a stream that is decoded under a table that is in order, and vectors D14, D17 and D21 for the three causes. -/
theorem witness_DecodeEndsAsTheSegmentFormSays :
    (let s := { State.reset with inLen := 257 };
      s.busy = false ∧ s.params.cap < s.inLen.toNat) ∧
    (let s := { loaded [0x67, 0x67, 0x3D, 0x41, 0x44, 0x70, 0x3D] with table := install stdAlphabet 0x3D };
      s.busy = false ∧ s.inLen.toNat ≤ s.params.cap ∧ TableOk s.table ∧
        decodeSegments s.table s.input = .ok [0x41, 0xC3, 0xA9]) ∧
    (let s := loaded [0x41, 0x42, 0x3D, 0x43];
      s.busy = false ∧ s.inLen.toNat ≤ s.params.cap ∧
        decodeSegments s.table s.input = .error (.badSymbol, 2)) ∧
    (let s := loaded [0x2E, 0x41, 0x41, 0x2E];
      decodeSegments s.table s.input = .error (.highRunMod3, 3)) ∧
    (let s := loaded [0x2E, 0x41, 0x41, 0x41];
      decodeSegments s.table s.input = .error (.truncated, 4)) := by
  refine ⟨by decide, ⟨rfl, by decide, witness_TableOk, ?_⟩, ⟨rfl, by decide, ?_⟩, ?_, ?_⟩ <;> decide +kernel

theorem witness_LongInputIsBadLen :
    let s := { State.reset with inLen := 257 }
    s.busy = false ∧ s.params.cap < s.inLen.toNat ∧ (Instr.encode = .encode ∨ Instr.encode = .decode) ∧
      (Instr.decode = .encode ∨ Instr.decode = .decode) := by decide

theorem witness_IllegalWordCompletesWithIllegalCmd :
    State.reset.busy = false ∧ State.reset.params.pacing = .atomic ∧ 5 ≤ (5 : Word).toNat ∧
      5 ≤ (0xFF : Word).toNat ∧ 5 ≤ (0x100 : Word).toNat ∧ 5 ≤ (0xFFFFFFFF : Word).toNat := by decide

theorem witness_StepRunsTheDecodedCommand :
    let s := { State.reset with inbox := [.write 0x00F 3] }
    3 < 4 ∧ s.params.pacing = .atomic ∧ s.inbox = .write (s.params.base + 0x00C + 3) 3 :: [] ∧
      Instr.encode.wellFormed = true ∧ decodeCmd 3 = .instr .encode ∧
      decodeCmd 5 = .illegal .reservedOpcode := by decide

theorem witness_AcceptStartsTheJob :
    (let s := { State.resetFor clockedParams with inbox := [.write 0x100C 3] };
      s.params.pacing = .clocked ∧ s.inbox = .write (s.params.base + 0x00C) 3 :: [] ∧ s.busy = false ∧
        (3 : Word) ≠ 0) ∧
    (let s := { busyState with inbox := [.write 0x100C 3] };
      s.params.pacing = .clocked ∧ s.inbox = .write (s.params.base + 0x00C) 3 :: [] ∧ s.busy = true) := by
  decide

theorem witness_AcceptedJobCompletes : busyState.busy = true ∧ busyState.inbox = [] := by decide

/-- A command word and an illegal one. -/
theorem witness_ClockedRunMatchesTheAtomicCommand :
    let s := State.resetFor clockedParams
    (3 : Word) ≠ 0 ∧ decodeCmd 3 = .instr .encode ∧ (7 : Word) ≠ 0 ∧
      decodeCmd 7 = .illegal .reservedOpcode ∧ s.busy = false ∧ s.params.pacing = .clocked := by decide

/-- A read, a dropped write of IN_LEN and the cycles that finish the job. -/
theorem witness_JobResultIgnoresHostAccesses :
    let es : List Event := [.read 0x1010, .write 0x1014 5, .cycle, .cycle, .cycle]
    busyState.busy = true ∧
      (∀ e ∈ es, (e.isAccess = true ∨ e = .cycle) ∧ e.isCommand busyState.params = false) ∧
      busyState.jobFuel ≤ es.count .cycle := by decide

theorem witness_ResultsStayUntilTheNextCommand :
    State.reset.busy = false ∧ Event.write 0x010 2 ≠ .reset ∧
      (Event.write 0x010 2).isCommand State.reset.params = false := by decide

theorem witness_ResetAbandonsTheJob : ({ busyState with inbox := [.reset] } : State).inbox = .reset :: [] :=
  rfl

theorem witness_PredefinedAlphabetIsUrlSafe : State.reset.busy = false := rfl

/-- The last address below BASE and the first beyond the map. -/
theorem witness_AccessOutsideTheMapHasNoEffect :
    0xFFF < busyState.params.base ∧ busyState.params.base + 0x08000000 ≤ 0x08001000 := by decide

/-- The first and the last offset. -/
theorem witness_HostReadHasNoSideEffect : 0 < 0x08000000 ∧ 0x07FFFFFF < 0x08000000 := by decide

theorem witness_WritesWhileBusyAreDropped : busyState.busy = true := rfl

theorem witness_RegisterReadsShowTheRegisters : 3 < 4 ∧ 15 < 16 := by decide

theorem witness_RegisterWritesReadBack : State.reset.busy = false ∧ 0 < 16 ∧ 15 < 16 := by decide

/-- IN holds 8 bytes here: word 1 is the last that fits, byte 7 its last byte, and byte 8 reads 0. -/
theorem witness_InWindowWriteStoresItsLanes :
    let s := { State.resetFor clockedParams with inMem := ⟨[(7, 0x41)]⟩ }
    0 < 4 ∧ 3 < 4 ∧ s.params.cap ≤ 4 * 2 + 0 ∧ 4 * 1 + 3 < s.params.cap ∧
      s.inMem.read (4 * 1 + 3) = some 0x41 ∧ s.busy = false := by decide

/-- Vector C17 of 95_test_vectors.md, and the word below IN_CAP by the lanes of rule R31. -/
theorem test_inWindow_end :
    let s := { State.reset with inMem := ⟨[(252, 0x41), (253, 0x42), (254, 0x43), (255, 0x44)]⟩ }
    readTarget (.inWin 64) s = 0 ∧ readTarget (.inWin 63) s = 0x44434241 := by decide +kernel

/-- OUT holds 25 bytes here: byte 24 is its last, and byte 25 reads 0. -/
theorem witness_OutWindowShowsTheResult :
    let s := { State.resetFor clockedParams with outMem := ⟨[(24, 0x41)]⟩, outSpecified := true }
    0 < 4 ∧ 1 < 4 ∧ s.params.outCap ≤ 4 * 6 + 1 ∧ s.work = none ∧ 4 * 6 + 0 < s.params.outCap ∧
      s.outResult (4 * 6 + 0) = some 0x41 := by decide

theorem witness_TableWindowsShowTheTable : 3 < 4 ∧ 63 < 64 := by decide

theorem witness_InterruptFollowsDoneAndEnable :
    Instr.build ≠ .nop ∧ State.reset.busy = false ∧ (2 : Word).getLsbD 1 = true := by decide

theorem witness_CapacitiesNeverChange : ∃ t : State, step busyState = .next t := ⟨_, rfl⟩

theorem witness_LoadInScriptLoadsTheInput :
    State.reset.busy = false ∧ [0x41, 0x42, 0x43, 0x44, (0x45 : Byte)].length ≤ State.reset.params.cap := by
  decide

theorem witness_OnlyBuildDefaultAndResetChangeTheTable :
    ∃ t : State, step ({ State.reset with alpha := stdAlphabet, delim := 0x3D }.withFetchWord 32 1) = .next t :=
  ⟨_, rfl⟩

/-- A LOAD_DEFAULT in progress, and a write of its word at the last byte address of CMD. -/
theorem witness_OnlyBuildDefaultAndResetChangeTheTable_default :
    (∃ t : State, step { State.resetFor clockedParams with phase := .busy .loadDefault } = .next t) ∧
      State.issues { State.reset with inbox := [.write 0x00F 2] } .loadDefault :=
  ⟨⟨_, rfl⟩, rfl, rfl, 0x00F, 0x00F, 2, [], rfl, rfl, by decide, by decide⟩

theorem witness_OnlyHostWritesChangeTheInputs :
    ∃ t : State, step { State.reset with inbox := [.write 0x014 5] } = .next t := ⟨_, rfl⟩

theorem witness_InstalledTableIsInOrder : AlphabetOk stdAlphabet 0x3D := witness_AlphabetOk

theorem witness_LookupsOfATableInOrder : TableOk (install stdAlphabet 0x3D) := witness_TableOk

theorem witness_RunsPartitionTheInput :
    encodeRuns predefinedTable [0x41, 0x80] = .ok [0x67, 0x67, 0x2E, 0x41, 0x2E] := by decide +kernel

theorem witness_LowGroupLayout : (0 : Byte) < 128 ∧ (0x7F : Byte) < 128 := by decide

theorem witness_LowRunPaddingIsZeroAndNoDelimiter :
    [(0x7F : Byte)].length ≤ 6 ∧ (packGroup [0x7F]).getLast? = some 32 ∧
      TableOk (install stdAlphabet 0x3D) ∧ 0x67 ∈ encodeRun (install stdAlphabet 0x3D) (.low, [0x41]) := by
  refine ⟨by decide, by decide, witness_TableOk, ?_⟩
  decide +kernel

/-- The ends of each range of lead and continuation bytes. -/
theorem witness_Utf8SequenceGivesThreeSymbols :
    (0xC0 : Byte) ≤ 0xC0 ∧ (0xDF : Byte) ≤ 0xDF ∧ (0xE0 : Byte) ≤ 0xE0 ∧ (0xEF : Byte) ≤ 0xEF ∧
      (0x80 : Byte) ≤ 0x80 ∧ (0xBF : Byte) ≤ 0xBF ∧
      ∀ q ∈ [[(0xC3 : Byte), 0xA9], [0xE4, 0xB8, 0xAD], [0xF0, 0x9F, 0x98, 0x80]],
        (highRunValues q).length = 3 := by decide

theorem witness_EncodedLengthBound :
    encodeRuns predefinedTable [] = .ok [] ∧
      encodeRuns predefinedTable [0x80, 0x41] = .ok [0x2E, 0x41, 0x2E, 0x67, 0x67] := by decide +kernel

/-- `aé` is in the round-trip domain. -/
theorem witness_RoundTripDomain : RoundTripDomain [0x61, 0xC3, 0xA9] := by
  intro r hr
  rw [show runsOf [0x61, 0xC3, 0xA9] = [(.low, [0x61]), (.high, [0xC3, 0xA9])] from rfl] at hr
  simp only [List.mem_cons, Prod.mk.injEq, reduceCtorEq, false_and, List.not_mem_nil, or_false,
    true_and, false_or] at hr
  exact ⟨[[0xC3, 0xA9]], by decide, by simp [hr]⟩

theorem witness_DomainEncodedLengthBound : RoundTripDomain [0x61, 0xC3, 0xA9] ∧
    encodeRuns predefinedTable [0x61, 0xC3, 0xA9] = .ok [0x77, 0x67, 0x2E, 0x41, 0x44, 0x70, 0x2E] :=
  ⟨witness_RoundTripDomain, by decide +kernel⟩

theorem witness_SegmentsRejoinToTheStream :
    [0x67, 0x67] ∈ segmentsOf predefinedTable [0x67, 0x67, 0x2E, 0x2E] := by decide

theorem witness_UnpackInvertsPack :
    [(0x7F : Byte), 0, 1, 2, 3, 0x7F].length ≤ 6 ∧ ∀ b ∈ [(0x7F : Byte), 0, 1, 2, 3, 0x7F], b < 128 := by
  decide

theorem witness_TripleReencodesToItself : (0 : Byte) < 64 ∧ (63 : Byte) < 64 := by decide

theorem witness_OverlongSequencesComeBackShorter :
    (0x80 : Byte) ≤ 0x80 ∧ (0x80 : Byte) ≤ 0x8F ∧ (0x80 : Byte) ≤ 0x9F ∧ (0x80 : Byte) ≤ 0xBF ∧
      (0x9F : Byte) ≤ 0x9F ∧ (0x8F : Byte) ≤ 0x8F ∧ (0xBF : Byte) ≤ 0xBF := by decide

theorem witness_DecodedLengthBound :
    decodeSegments predefinedTable [0x2E, 0x66, 0x59, 0x41, 0x2E] = .ok [0xF0, 0x9F, 0x98, 0x80] := by
  decide +kernel

theorem witness_SegmentBytesKeepTheirClass :
    0x41 ∈ lowSegmentBytes predefinedTable [0x67, 0x67] ∧
      0xC3 ∈ highSegmentBytes predefinedTable [0x41, 0x44, 0x70] := by decide +kernel

theorem witness_RoundTripOverTheDomain :
    TableOk (install stdAlphabet 0x3D) ∧ RoundTripDomain [0x61, 0xC3, 0xA9] :=
  ⟨witness_TableOk, witness_RoundTripDomain⟩

/-- The state of the machine round trip: `aé` under STD with `=`. -/
def roundTripState : State := { loaded [0x61, 0xC3, 0xA9] with table := install stdAlphabet 0x3D }

theorem witness_MachineRoundTrip :
    roundTripState.busy = false ∧ roundTripState.inLen.toNat ≤ roundTripState.params.cap ∧
      TableOk roundTripState.table ∧ RoundTripDomain roundTripState.input := by
  refine ⟨rfl, by decide, witness_TableOk, ?_⟩
  rw [show roundTripState.input = [0x61, 0xC3, 0xA9] from rfl]
  exact witness_RoundTripDomain

/-- The busy state with the table STD satisfies the whole invariant, with a job and a pending group. -/
theorem witness_EngineInvariantIsKept :
    let s := { busyState with table := install stdAlphabet 0x3D }
    EngineOk s ∧ ∃ t : State, step s = .next t := by
  refine ⟨⟨witness_TableOk, ⟨by decide, by decide, Laws.legalOutcome_of_outcome .ok, by decide, by decide⟩,
    ⟨by decide, by decide⟩, ⟨by decide, ?_, by decide⟩, ⟨rfl, ?_⟩⟩, _, rfl⟩
  · intro h; cases h
  · exact ⟨by decide, by decide, by decide, by decide, by decide, fun k hk => absurd hk (Nat.not_lt_zero k)⟩

theorem witness_TableInvariantIsKept :
    let s := { State.reset with table := install stdAlphabet 0x3D }
    TableOk s.table ∧ ∃ t : State, step s = .next t := ⟨witness_TableOk, _, rfl⟩

theorem witness_StatusDisciplineIsKept : StatusOk busyState ∧ ∃ t : State, step busyState = .next t :=
  ⟨⟨by decide, by decide, Laws.legalOutcome_of_outcome .ok, by decide, by decide⟩, _, rfl⟩

theorem witness_BuffersStayInsideTheirCapacity :
    BuffersOk busyState ∧ ∃ t : State, step busyState = .next t := ⟨⟨by decide, by decide⟩, _, rfl⟩

end Sys2Proof.Tests
end

section
/-! PROOFS. The active table, the read-only rows and the capacities: what an installation of a checked
alphabet gives (rules R30, R100), what each part of a step does to the table and to the parameters, and the
three statements that follow. -/

namespace Sys2Proof.Proofs

open Sys2Proof Sys2Proof.Machine Sys2Proof.Laws

/-! ### An installed table is in order -/

/-- Symbol v of an installed table is the alphabet's entry v (rules R100, R104). -/
theorem install_symbolOf (a : Vector Byte 64) (d : Byte) {v : Nat} (hv : v < 64) :
    (install a d).symbolOf v = a[v] := by
  simp only [Table.symbolOf, install_symbol, BitVec.toNat_ofNat]
  congr 1
  omega

/-- The four-fold write makes the lookup look at the low six bits alone (rules R28, R103). -/
theorem install_replicated (a : Vector Byte 64) (d v : Byte) :
    (install a d).symbol v = (install a d).symbol (v &&& 0x3F) := by
  have hmask : (v &&& 0x3F).toNat = v.toNat % 64 := by
    rw [BitVec.toNat_and]
    exact Nat.and_two_pow_sub_one_eq_mod v.toNat 6
  simp only [install_symbol, hmask, Nat.mod_mod]

/-- DEC of entry v of an alphabet without a repeat is v: one of the 64 writes reaches that index. -/
theorem install_value_of_symbol {a : Vector Byte 64} {d : Byte} (h : AlphabetOk a d) {v : Nat} (hv : v < 64) :
    (install a d).value a[v] = BitVec.ofNat 8 v := by
  have hlen : v < a.toList.length := by simpa using hv
  have hunique : ∀ (j : Nat) (hj : j < a.toList.length), a.toList[j].toNat = a[v].toNat → j = v := by
    intro j hj e
    exact h.distinct j v (by simpa using hj) hv (BitVec.eq_of_toNat_eq (by simpa using e))
  rw [install_value, lastWritten_of_unique _ _ 0 _ v hlen (by simp) hunique, Nat.zero_add]

/-- DEC of a byte outside the alphabet is INVALID: no write reaches its index. -/
theorem install_value_of_absent {a : Vector Byte 64} (d : Byte) {b : Byte}
    (hb : ∀ (v : Nat) (hv : v < 64), a[v] ≠ b) : (install a d).value b = invalidEntry := by
  rw [install_value]
  refine lastWritten_of_absent _ _ _ _ fun x hx e => ?_
  obtain ⟨v, hv, rfl⟩ := Vector.getElem_of_mem (Vector.mem_toList_iff.1 hx)
  exact hb v hv (BitVec.eq_of_toNat_eq e)

/-- An alphabet and a delimiter that pass BUILD's checks install a table with the properties of rule R30. -/
theorem tableOk_install {a : Vector Byte 64} {d : Byte} (h : AlphabetOk a d) : TableOk (install a d) where
  replicated := install_replicated a d
  distinct v w hv hw e := by
    rw [install_symbolOf a d hv, install_symbolOf a d hw] at e
    exact h.distinct v w hv hw e
  notDelim v hv := by
    rw [install_symbolOf a d hv, install_delim]
    exact h.notDelim v hv
  inverse v hv := by
    rw [install_symbolOf a d hv]
    exact install_value_of_symbol h hv
  otherwise b hb :=
    install_value_of_absent d fun v hv e => hb v hv ((install_symbolOf a d hv).trans e)

/-- The predefined alphabet and delimiter pass the checks of BUILD (rules R83, R101). -/
theorem predefined_alphabetOk : AlphabetOk predefinedAlphabet predefinedDelim :=
  (alphabetOk_of_configProblem (n := 64) (by decide)).2

/-- The predefined table has the properties of rule R30. -/
theorem predefinedTable_tableOk : TableOk predefinedTable := tableOk_install predefined_alphabetOk

/-! ### What each part of a step does to the table -/

/-- A cycle leaves the table alone, or is LOAD_DEFAULT's, or is that of a BUILD whose checks pass. -/
theorem jobCycle_table_cases (s : State) :
    (jobCycle s).table = s.table ∨
    (s.phase = .busy .loadDefault ∧ (jobCycle s).table = predefinedTable) ∨
    (s.phase = .busy .build ∧ configProblem s.alpha s.alphaLen s.delim = none ∧
      (jobCycle s).table = install s.alpha s.delim) := by
  cases hp : s.phase with
  | idle => rw [jobCycle_idle hp]; exact .inl rfl
  | busy j =>
    rw [jobCycle_busy hp]
    cases j with
    | build =>
      rw [jobWork_build]
      obtain ⟨_, -, e⟩ | ⟨hnone, e⟩ := buildCycle_cases { s with draws := s.draws + 1 }
      · rw [e]; exact .inl rfl
      · rw [e]; exact .inr (.inr ⟨rfl, hnone, rfl⟩)
    | loadDefault => exact .inr (.inl ⟨rfl, rfl⟩)
    | encode w =>
      rw [jobWork_encode]
      obtain ⟨-, e⟩ | ⟨-, -, -, e⟩ | ⟨_, -, -, -, e⟩ | ⟨-, -, e⟩ :=
        encodeCycle_cases w { s with draws := s.draws + 1 } <;> rw [e] <;> exact .inl rfl
    | decode w =>
      rw [jobWork_decode]
      obtain ⟨-, e⟩ | ⟨_, -, -, -, e⟩ | ⟨_, -, -, -, e⟩ | ⟨-, -, -, e⟩ | ⟨-, -, -, e⟩ :=
        decodeCycle_cases w { s with draws := s.draws + 1 } <;> rw [e] <;> exact .inl rfl
    | illegal c => exact .inl rfl

/-- A cycle keeps the properties of the table: what it installs has passed BUILD's checks, or is predefined. -/
theorem jobCycle_tableOk (s : State) (h : TableOk s.table) : TableOk (jobCycle s).table := by
  obtain e | ⟨-, e⟩ | ⟨-, hnone, e⟩ := jobCycle_table_cases s
  · rw [e]; exact h
  · rw [e]; exact predefinedTable_tableOk
  · rw [e]; exact tableOk_install (alphabetOk_of_configProblem hnone).2

/-- A write of a row other than CMD leaves the table alone (rules R28, R29). -/
@[simp] theorem writeTarget_table (t : Target) (v : Word) (s : State) : (writeTarget t v s).table = s.table := by
  obtain e | e | e | ⟨-, _, _, _, _, _, e, -⟩ := writeTarget_cases t v s <;>
    exact (congrArg State.table e).trans rfl

/-- Every part of a step keeps the properties of the table. -/
theorem tableOk_keptByParts : KeptByParts fun s => TableOk s.table where
  platform _ _ _ h := h
  cycle := jobCycle_tableOk
  reset _ _ := predefinedTable_tableOk
  write t v s h := by rw [writeTarget_table]; exact h
  accept _ _ _ _ _ _ _ h := h

/-- Settles O58: the reset table is the predefined one, and every part of a step keeps the properties. -/
theorem tableInvariantIsKept : Obligations.TableInvariantIsKept :=
  ⟨fun _ => predefinedTable_tableOk, fun _ _ h ht => tableOk_keptByParts.step h ht⟩

/-! ### The read-only and reserved rows -/

/-- Settles O27, row by row: each is a row whose write the model leaves without effect. -/
theorem readOnlyAndReservedRows : Obligations.ReadOnlyAndReservedRows := by
  intro s v k
  refine ⟨rfl, rfl, rfl, rfl, fun t ht => ?_⟩
  simp only [List.mem_cons, List.not_mem_nil, or_false] at ht
  obtain rfl | rfl | rfl | rfl | rfl | rfl | rfl | rfl | rfl | rfl | rfl := ht <;> rfl

/-! ### The capacities -/

/-- A write of a row other than CMD leaves the parameters alone. -/
@[simp] theorem writeTarget_params (t : Target) (v : Word) (s : State) :
    (writeTarget t v s).params = s.params := by
  obtain e | e | e | ⟨-, _, _, _, _, _, e, -⟩ := writeTarget_cases t v s <;>
    exact (congrArg State.params e).trans rfl

/-- Every part of a step keeps the parameters. -/
theorem params_keptByParts (p : Params) : KeptByParts fun s => s.params = p where
  platform _ _ _ h := h
  cycle s h := (jobCycle_sameHost s).params.trans h
  reset _ h := h
  write t v s h := (writeTarget_params t v s).trans h
  accept _ _ _ _ _ _ _ h := h

/-- A step keeps the parameters (rule R2). -/
theorem step_params {s t : State} (h : step s = .next t) : t.params = s.params :=
  (params_keptByParts s.params).step rfl h

/-- IN_CAP reads the capacity, which fits its 32 bits (rules R2, R27). -/
theorem readTarget_inCap_toNat (s : State) : (readTarget .inCap s).toNat = s.params.cap := by
  have hcap := cap_le s.params
  exact (BitVec.toNat_ofNat _ _).trans (Nat.mod_eq_of_lt (by omega))

/-- OUT_CAP reads the capacity of OUT, which fits its 32 bits (rules R3, R27). -/
theorem readTarget_outCap_toNat (s : State) : (readTarget .outCap s).toNat = s.params.outCap :=
  (BitVec.toNat_ofNat _ _).trans (Nat.mod_eq_of_lt (outCap_lt s.params))

/-- Settles O35: the two reads, the parameter's own bounds, and the parameters kept by every step. -/
theorem capacitiesNeverChange : Obligations.CapacitiesNeverChange := fun s =>
  ⟨readTarget_inCap_toNat s, s.params.inCap.2.1, cap_le s.params,
    (readTarget_outCap_toNat s).trans (outCap_eq s.params), fun _ h => step_params h⟩

end Sys2Proof.Proofs
end

section
/-! PROOFS. The address of an access: its two low bits are ignored (rule R52), and a host write never
faults. -/

namespace Sys2Proof.Proofs

open Sys2Proof Sys2Proof.Machine Sys2Proof.Laws

/-! ### The two low bits of an offset -/

/-- Dropping the two low bits twice drops them once. -/
@[simp] theorem wordOffset_wordOffset (a : Word) : wordOffset (wordOffset a) = wordOffset a := by
  simp only [wordOffset, BitVec.and_assoc, BitVec.and_self]

/-- The register map is looked up by the word's offset alone. -/
@[simp] theorem targetOf_wordOffset (a : Word) : targetOf (wordOffset a) = targetOf a := by
  simp only [targetOf, wordOffset_wordOffset]

/-- A read goes by the row its offset reaches. -/
theorem hostRead_congr {a b : Word} (h : targetOf a = targetOf b) (s : State) :
    hostRead a s = hostRead b s := by
  simp only [hostRead, h]

/-- A write goes by the row its offset reaches. -/
theorem hostWrite_congr {a b : Word} (h : targetOf a = targetOf b) (v : Word) (s : State) :
    hostWrite a v s = hostWrite b v s := by
  simp only [hostWrite, h]

/-! ### No write faults -/

/-- The issue of a command answers a next state, whatever the word. -/
theorem issueCommand_next (w : Word) (s : State) : ∃ t, issueCommand w s = .next t := by
  obtain ignored | ⟨_, _, -, -, started | run⟩ := issueCommand_cases w s
  · exact ⟨_, ignored⟩
  · exact ⟨_, started⟩
  · exact ⟨_, run⟩

/-- A host write answers a next state, at CMD and at every other row. -/
theorem hostWrite_next (a v : Word) (s : State) : ∃ t, hostWrite a v s = .next t := by
  obtain ⟨-, atCmd⟩ | ⟨-, atRow⟩ := hostWrite_cases a v s
  · rw [atCmd]; exact issueCommand_next v s
  · exact ⟨_, atRow⟩

/-- Settles O23: an offset and its word's offset reach the same row, and no write faults. -/
theorem lowAddressBitsAreIgnored : Obligations.LowAddressBitsAreIgnored := by
  intro s a v
  have sameRow : targetOf a = targetOf (a &&& 0xFFFFFFFC) := (targetOf_wordOffset a).symm
  exact ⟨hostRead_congr sameRow s, hostWrite_congr sameRow v s, hostWrite_next a v s⟩

end Sys2Proof.Proofs
end

section
/-! PROOFS. The encodings: the decode of a command word (rule R74), the bit layouts of a low group (rule R80)
and of STATUS (rule R75), and the predefined alphabet (rule R83). -/

namespace Sys2Proof.Proofs

open Sys2Proof Sys2Proof.Machine Sys2Proof.Laws

/-! ### Command words -/

/-- The MBZ field is zero exactly in the words below 256 (rule R70). -/
theorem mbz_eq_zero_iff (w : Word) : w.extractLsb' 8 24 = 0 ↔ w.toNat < 256 := by
  rw [← BitVec.toNat_inj, BitVec.extractLsb'_toNat, Nat.shiftRight_eq_div_pow]
  simp only [BitVec.ofNat_eq_ofNat, BitVec.toNat_ofNat]
  omega

/-- The OPCODE field of a word below 256 is the word (rule R70). -/
theorem opcode_toNat_of_lt {w : Word} (h : w.toNat < 256) : (w.extractLsb' 0 8).toNat = w.toNat := by
  rw [BitVec.extractLsb'_toNat, Nat.shiftRight_zero]
  exact Nat.mod_eq_of_lt h

/-- The decoder reads the encoded word of each command as that command. -/
@[simp] theorem decodeCmd_encodeInstr (i : Instr) : decodeCmd (encodeInstr i) = .instr i := by
  cases i <;> decide

/-- The commands' words are those below 5 (rule R71). -/
theorem exists_encodeInstr_iff (w : Word) : (∃ i, w = encodeInstr i) ↔ w.toNat < 5 := by
  constructor
  · rintro ⟨i, rfl⟩
    cases i <;> decide
  · intro h
    have word {i : Instr} {n : Nat} (hi : (encodeInstr i).toNat = n) (hn : w.toNat = n) :
        ∃ i, w = encodeInstr i := ⟨i, BitVec.eq_of_toNat_eq (hn.trans hi.symm)⟩
    obtain h | h | h | h | h : w.toNat = 0 ∨ w.toNat = 1 ∨ w.toNat = 2 ∨ w.toNat = 3 ∨ w.toNat = 4 := by omega
    · exact word (i := .nop) rfl h
    · exact word (i := .build) rfl h
    · exact word (i := .loadDefault) rfl h
    · exact word (i := .encode) rfl h
    · exact word (i := .decode) rfl h

/-- A word with a bit of MBZ set is illegal, whatever its opcode (rule R74). -/
theorem decodeCmd_of_mbz {w : Word} (h : 256 ≤ w.toNat) : decodeCmd w = .illegal .mbzSet := by
  have hw : w ≠ 0 := by rintro rfl; simp at h
  have hmbz : w.extractLsb' 8 24 ≠ 0 := by rw [Ne, mbz_eq_zero_iff]; omega
  rw [decodeCmd, if_neg hw, if_pos hmbz]

/-- A word whose opcode is reserved, with MBZ zero, is illegal (rule R74). -/
theorem decodeCmd_of_reserved {w : Word} (h5 : 5 ≤ w.toNat) (h : w.toNat < 256) :
    decodeCmd w = .illegal .reservedOpcode := by
  have hw : w ≠ 0 := by rintro rfl; simp at h5
  have hmbz : w.extractLsb' 8 24 = 0 := (mbz_eq_zero_iff w).2 h
  rw [decodeCmd, if_neg hw, if_neg (not_not.2 hmbz), opcode_toNat_of_lt h]
  split
  case h_5 => rfl
  all_goals omega

/-- What the decode of a word can be: a command's own word, a word with MBZ set, or a reserved opcode. -/
theorem decodeCmd_cases (w : Word) :
    (∃ i, w = encodeInstr i ∧ w.toNat < 5 ∧ decodeCmd w = .instr i) ∨
    (256 ≤ w.toNat ∧ decodeCmd w = .illegal .mbzSet) ∨
    (5 ≤ w.toNat ∧ w.toNat < 256 ∧ decodeCmd w = .illegal .reservedOpcode) := by
  by_cases h5 : w.toNat < 5
  · obtain ⟨i, rfl⟩ := (exists_encodeInstr_iff w).2 h5
    exact .inl ⟨i, rfl, h5, decodeCmd_encodeInstr i⟩
  · by_cases h : w.toNat < 256
    · exact .inr (.inr ⟨by omega, h, decodeCmd_of_reserved (by omega) h⟩)
    · exact .inr (.inl ⟨by omega, decodeCmd_of_mbz (by omega)⟩)

/-- A command has its encoded word and no other (rule R71). -/
theorem decodeCmd_eq_instr_iff (w : Word) (i : Instr) : decodeCmd w = .instr i ↔ w = encodeInstr i := by
  refine ⟨fun h => ?_, fun h => h ▸ decodeCmd_encodeInstr i⟩
  obtain ⟨_, hw, -, e⟩ | ⟨-, e⟩ | ⟨-, -, e⟩ := decodeCmd_cases w <;> cases e.symm.trans h
  exact hw

/-- MBZ_SET is the cause of the words from 256 on (rules R74, R77). -/
theorem decodeCmd_eq_mbzSet_iff (w : Word) : decodeCmd w = .illegal .mbzSet ↔ 256 ≤ w.toNat := by
  obtain ⟨_, -, _, e⟩ | ⟨_, e⟩ | ⟨_, _, e⟩ := decodeCmd_cases w <;> simp [e] <;> omega

/-- RESERVED_OPCODE is the cause of the words from 5 to 255 (rules R74, R77). -/
theorem decodeCmd_eq_reservedOpcode_iff (w : Word) :
    decodeCmd w = .illegal .reservedOpcode ↔ 5 ≤ w.toNat ∧ w.toNat < 256 := by
  obtain ⟨_, -, _, e⟩ | ⟨_, e⟩ | ⟨_, _, e⟩ := decodeCmd_cases w <;> simp [e] <;> omega

/-- Settles O2: the three ranges of words exclude each other, and a command's word decodes to it alone. -/
theorem commandDecodeIsTotalAndExact : Obligations.CommandDecodeIsTotalAndExact := fun w =>
  ⟨decodeCmd_eq_instr_iff w, decodeCmd_eq_mbzSet_iff w, decodeCmd_eq_reservedOpcode_iff w⟩

/-! ### A low group -/

/-- The value of a digit list followed by another: the second is as many places as it has digits. -/
theorem joinBits_append (w : Nat) (xs ys : List Nat) :
    joinBits w (xs ++ ys) = joinBits w xs * 2 ^ (w * ys.length) + joinBits w ys := by
  induction ys using List.reverseRecOn with
  | nil => simp [joinBits]
  | append_singleton ys d ih =>
    simp only [joinBits, ← List.append_assoc, List.foldl_append, List.foldl_cons, List.foldl_nil,
      List.length_append, List.length_singleton] at ih ⊢
    rw [ih]
    ring

/-- A list of digits below 2^w joins to less than 2^w to the power of its length. -/
theorem joinBits_lt {w : Nat} {ds : List Nat} (h : ∀ d ∈ ds, d < 2 ^ w) :
    joinBits w ds < 2 ^ (w * ds.length) := by
  induction ds with
  | nil => simp [joinBits]
  | cons d ds ih =>
    have hd : d < 2 ^ w := h d (by simp)
    have hds := ih fun x hx => h x (by simp [hx])
    rw [← List.singleton_append, joinBits_append]
    have hj : joinBits w [d] = d := by simp [joinBits]
    calc joinBits w [d] * 2 ^ (w * ds.length) + joinBits w ds
        < d * 2 ^ (w * ds.length) + 2 ^ (w * ds.length) := by rw [hj]; omega
      _ = (d + 1) * 2 ^ (w * ds.length) := by ring
      _ ≤ 2 ^ w * 2 ^ (w * ds.length) := Nat.mul_le_mul_right _ hd
      _ = 2 ^ (w * ([d] ++ ds).length) := by simp [← pow_add, Nat.mul_add, Nat.add_comm]

/-- Shifting out the digits from place k on leaves the number that the digits before it join to. -/
theorem joinBits_div_eq_take {w : Nat} (k : Nat) {ds : List Nat} (h : ∀ d ∈ ds, d < 2 ^ w) :
    joinBits w ds / 2 ^ (w * (ds.length - k)) = joinBits w (ds.take k) := by
  have hlow : joinBits w (ds.drop k) < 2 ^ (w * (ds.length - k)) := by
    simpa using joinBits_lt fun d hd => h d (List.mem_of_mem_drop hd)
  have hsplit := joinBits_append w (ds.take k) (ds.drop k)
  rw [List.take_append_drop, List.length_drop] at hsplit
  rw [hsplit, Nat.add_comm, Nat.add_mul_div_right _ _ (Nat.two_pow_pos _), Nat.div_eq_of_lt hlow, Nat.zero_add]

/-- A digit at the end of a list is the joined number's lowest. -/
theorem joinBits_concat (w : Nat) (xs : List Nat) (d : Nat) :
    joinBits w (xs ++ [d]) = joinBits w xs * 2 ^ w + d := by simp [joinBits]

/-- The layout of rule R80 in one formula: symbol j of the group with bytes `ds` is the low j bits of byte j - 1
above the high 6 - j of the seven bits of byte j, where a byte outside the group counts as 0. -/
def groupSymbol (ds : List Nat) (j : Nat) : Nat :=
  (0 :: ds).getD j 0 % 2 ^ j * 2 ^ (6 - j) + ds.getD j 0 / 2 ^ (j + 1)

/-- A byte below 128, or the 0 that a place beyond the end counts as, is a 7-bit digit. -/
theorem getD_zero_lt {ds : List Nat} (h : ∀ d ∈ ds, d < 128) (j : Nat) : ds.getD j 0 < 128 := by
  obtain hlt | hge := Nat.lt_or_ge j ds.length
  · rw [List.getD_eq_getElem _ _ hlt]; exact h _ (List.getElem_mem hlt)
  · rw [List.getD_eq_default _ _ hge]; decide

/-- The digit before place j of a list, 0 before the first, is what the places before j end in. -/
theorem joinBits_take_mod (ds : List Nat) {j : Nat} (hj : j ≤ ds.length) (h : ∀ d ∈ ds, d < 128) :
    joinBits 7 (ds.take j) % 128 = (0 :: ds).getD j 0 := by
  cases j with
  | zero => rfl
  | succ k =>
    have hk : k < ds.length := hj
    have hlt : ds[k] < 128 := h _ (List.getElem_mem hk)
    rw [List.take_succ_eq_append_getElem hk, joinBits_concat, List.getD_cons_succ, List.getD_eq_getElem _ _ hk]
    omega

/-- Place j of a list with a zero digit appended is digit j, or 0 at the end. -/
theorem take_succ_concat_zero (ds : List Nat) {j : Nat} (hj : j ≤ ds.length) :
    (ds ++ [0]).take (j + 1) = ds.take j ++ [ds.getD j 0] := by
  obtain hlt | rfl := Nat.lt_or_eq_of_le hj
  · rw [List.take_append_of_le_length hlt, List.take_succ_eq_append_getElem hlt, List.getD_eq_getElem _ _ hlt]
  · simp

/-- The shift that pads a group with zeros and selects symbol j leaves the digits up to place j, but for the
low j + 1 bits of the last. -/
theorem joinBits_select {ds : List Nat} (hlen : ds.length ≤ 6) {j : Nat} (hj : j ≤ ds.length)
    (h : ∀ d ∈ ds, d < 128) :
    (joinBits 7 ds <<< (6 - ds.length)) >>> (6 * (ds.length - j)) =
      (joinBits 7 (ds.take j) * 2 ^ 7 + ds.getD j 0) / 2 ^ (j + 1) := by
  have hdigit : ∀ d ∈ ds ++ [0], d < 2 ^ 7 := by simpa [or_imp, forall_and] using h
  have padded := joinBits_div_eq_take (j + 1) hdigit
  rw [take_succ_concat_zero ds hj, joinBits_concat, joinBits_concat, List.length_append, List.length_singleton,
    Nat.add_sub_add_right, Nat.add_zero] at padded
  calc (joinBits 7 ds <<< (6 - ds.length)) >>> (6 * (ds.length - j))
      = joinBits 7 ds * 2 ^ (6 - ds.length) * 2 ^ (ds.length + 1) /
          (2 ^ (6 * (ds.length - j)) * 2 ^ (ds.length + 1)) := by
        rw [Nat.shiftLeft_eq, Nat.shiftRight_eq_div_pow, Nat.mul_div_mul_right _ _ (Nat.two_pow_pos _)]
    _ = joinBits 7 ds * 2 ^ 7 / (2 ^ (7 * (ds.length - j)) * 2 ^ (j + 1)) := by
        have hpad : 6 - ds.length + (ds.length + 1) = 7 := by omega
        have hshift : 6 * (ds.length - j) + (ds.length + 1) = 7 * (ds.length - j) + (j + 1) := by omega
        rw [Nat.mul_assoc, ← pow_add, ← pow_add, ← pow_add, hpad, hshift]
    _ = (joinBits 7 (ds.take j) * 2 ^ 7 + ds.getD j 0) / 2 ^ (j + 1) := by
        rw [← Nat.div_div_eq_div_mul, padded]

/-- Six bits across the boundary of two 7-bit digits: the low j of the upper and the high 6 - j of the
lower. -/
theorem straddle_mod {x a b j : Nat} (hj : j ≤ 6) (hx : x % 128 = a) (hb : b < 128) :
    (x * 2 ^ 7 + b) / 2 ^ (j + 1) % 64 = a % 2 ^ j * 2 ^ (6 - j) + b / 2 ^ (j + 1) := by
  interval_cases j <;> norm_num <;> omega

/-- pack_low of rule R127 gives the layout of rule R80. -/
theorem packGroup_eq_layout {g : List Byte} (hlen : g.length ≤ 6) (h : ∀ b ∈ g, b < 128) :
    packGroup g = (List.range (g.length + 1)).map (groupSymbol (g.map BitVec.toNat)) := by
  have hdigits : ∀ d ∈ g.map BitVec.toNat, d < 128 := by simpa [BitVec.lt_def] using h
  refine List.map_congr_left fun j hj => ?_
  have hj : j ≤ g.length := Nat.le_of_lt_succ (List.mem_range.1 hj)
  have hselect := joinBits_select (by simpa using hlen) (by simpa using hj) hdigits
  have habove := joinBits_take_mod (g.map BitVec.toNat) (by simpa using hj) hdigits
  rw [List.length_map] at hselect
  rw [hselect, straddle_mod (hj.trans hlen) habove (getD_zero_lt hdigits j), groupSymbol]

/-- Settles O42: each row of rule R80's table is the one formula at the group's length. -/
theorem lowGroupLayout : Obligations.LowGroupLayout := by
  intro b0 b1 b2 b3 b4 b5 h0 h1 h2 h3 h4 h5
  refine ⟨?_, ?_, ?_, ?_, ?_, ?_⟩ <;>
    rw [packGroup_eq_layout (by simp) (by simp_all)] <;> simp [groupSymbol, List.range_succ]

/-! ### STATUS -/

/-- Bit i of a one-bit word. -/
theorem getLsbD_bitWord (b : Bool) (i : Nat) : (bitWord b).getLsbD i = (decide (i = 0) && b) := by
  cases b <;> simp [bitWord]

/-- The layout of rule R75 bit by bit: bit i of STATUS, by the field that lies over it. -/
def statusBit (s : State) (i : Nat) : Bool :=
  decide (i = 0) && s.busy || decide (i = 1) && s.done || decide (4 ≤ i) && s.code.getLsbD (i - 4) ||
    decide (8 ≤ i) && s.cause.getLsbD (i - 8) || decide (16 ≤ i) && s.lastOp.getLsbD (i - 16)

/-- The shifts and ORs that make STATUS put each field in its place. -/
theorem getLsbD_statusWord (s : State) {i : Nat} (hi : i < 32) :
    s.statusWord.getLsbD i = statusBit s i := by
  simp only [State.statusWord, statusBit, BitVec.getLsbD_or, BitVec.getLsbD_shiftLeft,
    BitVec.getLsbD_setWidth, getLsbD_bitWord, hi]
  grind

/-- A field of STATUS is what its bits are. -/
theorem extractLsb'_statusWord (s : State) {lo n : Nat} (hfit : lo + n ≤ 32) {field : BitVec n}
    (h : ∀ i < n, statusBit s (lo + i) = field.getLsbD i) : s.statusWord.extractLsb' lo n = field := by
  refine BitVec.eq_of_getLsbD_eq fun i hi => ?_
  rw [BitVec.getLsbD_extractLsb', getLsbD_statusWord s (by omega), h i hi, decide_eq_true hi, Bool.true_and]

/-- Settles O33: the two flags, then each field and each gap, whose bits no other field reaches. -/
theorem statusWordLayout : Obligations.StatusWordLayout := by
  intro s
  refine ⟨(getLsbD_statusWord s (by decide)).trans (by simp [statusBit]),
    (getLsbD_statusWord s (by decide)).trans (by simp [statusBit]), ?_⟩
  refine ⟨?_, ?_, ?_, ?_, ?_, ?_⟩ <;> refine extractLsb'_statusWord s (by decide) fun i hi => ?_ <;>
    interval_cases i <;> simp [statusBit]

/-! ### The predefined alphabet -/

/-- Entry v of the predefined alphabet, by the ranges of rule R83. -/
theorem predefinedAlphabet_formula : ∀ (v : Nat) (hv : v < 64), predefinedAlphabet[v] =
    if v < 26 then BitVec.ofNat 8 (0x41 + v)
    else if v < 52 then BitVec.ofNat 8 (0x61 + (v - 26))
    else if v < 62 then BitVec.ofNat 8 (0x30 + (v - 52))
    else if v = 62 then 0x2D else 0x5F := by
  decide

/-- A job whose first cycle ends it is run by that cycle. -/
theorem runJob_of_cycle_idle (n : Nat) {s : State} (h : (jobCycle s).phase = .idle) :
    runJob (n + 1) s = jobCycle s := by
  rw [runJob_succ, runJob_idle n h]

/-- The first cycle of LOAD_DEFAULT's job ends it, with the predefined table installed (rule R102). -/
theorem jobCycle_accept_loadDefault (w : Word) (s : State) :
    jobCycle (accept .loadDefault w s) = complete .ok 0 { accept .loadDefault w s with
      draws := s.draws + 2
      table := predefinedTable } := rfl

/-- LOAD_DEFAULT in an idle engine is its accept and that one cycle. -/
theorem runCommand_loadDefault_idle (w : Word) {s : State} (h : s.busy = false) :
    runCommand .loadDefault w s = complete .ok 0 { accept .loadDefault w s with
      draws := s.draws + 2
      table := predefinedTable } := by
  have hended : (jobCycle (accept .loadDefault w s)).phase = .idle := by
    rw [jobCycle_accept_loadDefault, complete_phase]
  rw [runCommand_idle _ _ h, State.jobFuel, runJob_of_cycle_idle _ hended, jobCycle_accept_loadDefault]

/-- Settles O21: entry by entry, then the installation by reset and by LOAD_DEFAULT's one cycle. -/
theorem predefinedAlphabetIsUrlSafe : Obligations.PredefinedAlphabetIsUrlSafe :=
  ⟨predefinedAlphabet_formula, fun p => resetFor_table p,
    fun s h => ⟨_, rfl, by rw [runCommand_loadDefault_idle _ h]; exact complete_table _ _ _⟩⟩

end Sys2Proof.Proofs
end

section
/-! PROOFS. The jobs that write the table, BUILD (rule R101) and LOAD_DEFAULT (rule R102), as equations on the
whole state, and the lookups of the table they install (rules R104, R105, R151). -/

namespace Sys2Proof.Proofs

open Sys2Proof Sys2Proof.Machine Sys2Proof.Laws

/-! ### Jobs of one cycle -/

/-- The completion of a job without working state writes the status and the offset and leaves OUT alone
(rule R190). -/
theorem complete_of_work_none (r : JobOutcome) (x : Word) {s : State} (h : s.work = none) :
    complete r x s = { s with
      phase := .idle
      done := true
      code := r.code
      cause := r.cause
      errOffset := x } := by
  simp [complete, h]

/-- A job without working state whose first cycle ends it with table `t`: all that its command changes in an
idle engine. -/
theorem runCommand_of_oneCycle {j : Job} {w : Word} {s : State} {r : JobOutcome} {t : Table}
    (h : s.busy = false) (hwork : (accept j w s).work = none)
    (hcycle : jobCycle (accept j w s) =
      complete r 0 { accept j w s with draws := s.draws + 2, table := t }) :
    runCommand j w s = { s with
      table := t
      done := true
      code := r.code
      cause := r.cause
      lastOp := lowByte w
      errOffset := 0
      draws := s.draws + 2 } := by
  have hphase : s.phase = .idle := phase_idle_of_not_busy h
  have hended : (jobCycle (accept j w s)).phase = .idle := by rw [hcycle, complete_phase]
  calc runCommand j w s = jobCycle (accept j w s) := by
        rw [runCommand_idle _ _ h, State.jobFuel, runJob_of_cycle_idle _ hended]
    _ = complete r 0 { accept j w s with draws := s.draws + 2, table := t } := hcycle
    _ = _ := by
        rw [complete_of_work_none, accept, ← hphase]
        exact hwork

/-! ### BUILD's checks -/

/-- Check 2 fails exactly where the delimiter is one of the 64 symbols (rule R101). -/
theorem delimInAlphabet_iff (a : Vector Byte 64) (d : Byte) :
    delimInAlphabet a.toList d = true ↔ ∃ (v : Nat) (hv : v < 64), a[v] = d := by
  simp only [delimInAlphabet, List.any_eq_true, beq_iff_eq, exists_eq_right, Vector.mem_toList_iff]
  exact Vector.mem_iff_getElem

/-- Check 2 passes on a delimiter outside the alphabet. -/
theorem not_delimInAlphabet {a : Vector Byte 64} {d : Byte} (h : ∀ (v : Nat) (hv : v < 64), a[v] ≠ d) :
    ¬ delimInAlphabet a.toList d = true := fun hd =>
  let ⟨v, hv, e⟩ := (delimInAlphabet_iff a d).1 hd
  h v hv e

/-- Check 3 fails exactly on a list with a repeat. -/
theorem hasDuplicate_iff_not_nodup (l : List Byte) : hasDuplicate l = true ↔ ¬ l.Nodup := by
  induction l with
  | nil => simp [hasDuplicate]
  | cons x xs ih => simp [hasDuplicate, ih, List.nodup_cons, imp_iff_not_or]

/-- Check 3 fails exactly where two of the 64 symbols are equal (rule R101). -/
theorem hasDuplicate_iff (a : Vector Byte 64) :
    hasDuplicate a.toList = true ↔ ∃ (v w : Nat) (_ : v < w) (hw : w < 64), a[v] = a[w] := by
  rw [hasDuplicate_iff_not_nodup, List.Nodup, List.pairwise_iff_getElem]
  push Not
  constructor
  · rintro ⟨v, w, _, hw, hvw, e⟩
    exact ⟨v, w, hvw, by simpa using hw, by simpa using e⟩
  · rintro ⟨v, w, hvw, hw, e⟩
    exact ⟨v, w, by simpa using hvw.trans hw, by simpa using hw, hvw, by simpa using e⟩

/-- A length other than 64 is reported, whatever the symbols (rule R101). -/
theorem configProblem_eq_alphaLen (a : Vector Byte 64) {n : Word} (d : Byte) (hn : n ≠ 64) :
    configProblem a n d = some .alphaLen := if_pos hn

/-- With the length right, a delimiter among the symbols is reported, repeats or not (rule R101). -/
theorem configProblem_eq_delimInAlpha {a : Vector Byte 64} {d : Byte}
    (hd : ∃ (v : Nat) (hv : v < 64), a[v] = d) : configProblem a 64 d = some .delimInAlpha := by
  simp [configProblem, (delimInAlphabet_iff a d).2 hd]

/-- A repeat is reported where the first two checks pass (rule R101). -/
theorem configProblem_eq_duplicate {a : Vector Byte 64} {d : Byte}
    (hd : ∀ (v : Nat) (hv : v < 64), a[v] ≠ d)
    (hdup : ∃ (v w : Nat) (_ : v < w) (hw : w < 64), a[v] = a[w]) :
    configProblem a 64 d = some .duplicate := by
  simp [configProblem, not_delimInAlphabet hd, (hasDuplicate_iff a).2 hdup]

/-- A good alphabet passes all three checks: the converse of `alphabetOk_of_configProblem`. -/
theorem configProblem_eq_none {a : Vector Byte 64} {d : Byte} (h : AlphabetOk a d) :
    configProblem a 64 d = none := by
  have hdup : ¬ hasDuplicate a.toList = true := fun hd =>
    let ⟨v, w, hvw, hw, e⟩ := (hasDuplicate_iff a).1 hd
    absurd (h.distinct v w (hvw.trans hw) hw e) hvw.ne
  simp [configProblem, not_delimInAlphabet h.notDelim, hdup]

/-! ### BUILD and LOAD_DEFAULT in an idle engine -/

/-- BUILD whose first failing check is `c` reports it and keeps the table (rules R101, R185). -/
theorem exec_build_of_problem {s : State} {c : ConfigCause} (h : s.busy = false)
    (hc : configProblem s.alpha s.alphaLen s.delim = some c) :
    exec .build s = .next { s with
      done := true
      code := 2
      cause := (JobOutcome.configError c).cause
      lastOp := 0x01
      errOffset := 0
      draws := s.draws + 2 } := by
  have hcycle : jobCycle (accept .build (encodeInstr .build) s) = complete (.configError c) 0
      { accept .build (encodeInstr .build) s with draws := s.draws + 2, table := s.table } := by
    obtain ⟨c', hc', e⟩ | ⟨hnone, -⟩ :=
      buildCycle_cases { accept .build (encodeInstr .build) s with draws := s.draws + 2 }
    · cases hc.symm.trans hc'
      exact e
    · cases hc.symm.trans hnone
  exact congrArg Host.Outcome.next (runCommand_of_oneCycle h rfl hcycle)

/-- BUILD whose checks pass installs the staged alphabet and delimiter (rules R100, R101). -/
theorem exec_build_of_passed {s : State} (h : s.busy = false)
    (hnone : configProblem s.alpha s.alphaLen s.delim = none) :
    exec .build s = .next { s with
      table := install s.alpha s.delim
      done := true
      code := 0
      cause := 0
      lastOp := 0x01
      errOffset := 0
      draws := s.draws + 2 } := by
  have hcycle : jobCycle (accept .build (encodeInstr .build) s) = complete .ok 0
      { accept .build (encodeInstr .build) s with
        draws := s.draws + 2, table := install s.alpha s.delim } := by
    obtain ⟨c, hc, -⟩ | ⟨-, e⟩ :=
      buildCycle_cases { accept .build (encodeInstr .build) s with draws := s.draws + 2 }
    · cases hnone.symm.trans hc
    · exact e
  exact congrArg Host.Outcome.next (runCommand_of_oneCycle h rfl hcycle)

/-- Settles O5: each clause's hypotheses name the check that fails first, or say that none does. -/
theorem buildChecksThenInstalls : Obligations.BuildChecksThenInstalls := by
  refine ⟨rfl, fun s h => ⟨fun hlen => ?_, fun hlen hdelim => ?_, fun hlen hdelim hdup => ?_,
    fun hlen hok => ?_⟩⟩
  · exact ⟨_, exec_build_of_problem (c := .alphaLen) h (configProblem_eq_alphaLen _ _ hlen)⟩
  · exact ⟨_, exec_build_of_problem (c := .delimInAlpha) h (hlen ▸ configProblem_eq_delimInAlpha hdelim)⟩
  · exact ⟨_, exec_build_of_problem (c := .duplicate) h (hlen ▸ configProblem_eq_duplicate hdelim hdup)⟩
  · exact ⟨_, exec_build_of_passed h (hlen ▸ configProblem_eq_none hok)⟩

/-- Settles O6: its job has no check, and its one cycle installs the predefined table. -/
theorem loadDefaultInstallsThePredefinedTable : Obligations.LoadDefaultInstallsThePredefinedTable :=
  ⟨rfl, predefined_alphabetOk, fun s h => ⟨_, congrArg Host.Outcome.next
    (runCommand_of_oneCycle h rfl (jobCycle_accept_loadDefault (encodeInstr .loadDefault) s))⟩⟩

/-! ### The lookups of a table that is in order -/

/-- Settles O39: what the 64 writes leave at each index, and the delimiter. -/
theorem installedTableIsInOrder : Obligations.InstalledTableIsInOrder := fun a d h =>
  ⟨tableOk_install h, install_delim a d, fun _ hv => install_symbolOf a d hv⟩

/-- ENC looks at the low six bits of its operand alone (rules R28, R104). -/
theorem symbol_eq_symbolOf_mod {t : Table} (ht : TableOk t) (v : Byte) :
    t.symbol v = t.symbolOf (v.toNat % 64) := by
  have hmask : v &&& 0x3F = BitVec.ofNat 8 (v.toNat % 64) := by
    refine BitVec.eq_of_toNat_eq ?_
    rw [BitVec.toNat_and, BitVec.toNat_ofNat]
    exact (Nat.and_two_pow_sub_one_eq_mod v.toNat 6).trans (by omega)
  rw [ht.replicated, hmask, Table.symbolOf]

/-- ENC never answers the delimiter (rule R104). -/
theorem symbol_ne_delim {t : Table} (ht : TableOk t) (v : Byte) : t.symbol v ≠ t.delim := by
  rw [symbol_eq_symbolOf_mod ht]
  exact ht.notDelim _ (Nat.mod_lt _ (by decide))

/-- DEC of the delimiter is INVALID, for it is no symbol (rules R30, R105). -/
theorem value_delim {t : Table} (ht : TableOk t) : t.value t.delim = invalidEntry :=
  ht.otherwise _ ht.notDelim

/-- DEC tells the 64 symbols from the other bytes (rule R105). -/
theorem value_cases {t : Table} (ht : TableOk t) (b : Byte) :
    (∃ v : Nat, v < 64 ∧ b = t.symbolOf v ∧ (t.value b).toNat = v) ∨
    ((∀ v : Nat, v < 64 → t.symbolOf v ≠ b) ∧ t.value b = invalidEntry) := by
  by_cases hb : ∃ v : Nat, v < 64 ∧ t.symbolOf v = b
  · obtain ⟨v, hv, rfl⟩ := hb
    refine .inl ⟨v, hv, rfl, ?_⟩
    rw [ht.inverse v hv, BitVec.toNat_ofNat, Nat.mod_eq_of_lt (by omega)]
  · have habsent : ∀ v : Nat, v < 64 → t.symbolOf v ≠ b := fun v hv e => hb ⟨v, hv, e⟩
    exact .inr ⟨habsent, ht.otherwise b habsent⟩

/-- The detector answers for the delimiter alone (rule R151). -/
theorem isDelim_iff (t : Table) (b : Byte) : t.isDelim b = true ↔ b = t.delim := beq_iff_eq

/-- A turn of DECODE's loop on the delimiter does not look it up (rule R151). -/
theorem decodeByte_delim (t : Table) (w : Work) : decodeByte t w t.delim = decodeDelim w := by
  obtain ⟨-, e⟩ | ⟨hne, -, -⟩ | ⟨hne, -, -⟩ := decodeByte_cases t w t.delim
  · exact e
  · exact absurd rfl hne
  · exact absurd rfl hne

/-- Settles O40: a clause for each lookup, and two for the detector. -/
theorem lookupsOfATableInOrder : Obligations.LookupsOfATableInOrder := fun t ht =>
  ⟨fun v => ⟨symbol_eq_symbolOf_mod ht v, symbol_ne_delim ht v⟩, ht.inverse, value_cases ht, value_delim ht,
    isDelim_iff t, decodeByte_delim t⟩

end Sys2Proof.Proofs
end

section
/-! PROOFS. The runs of an input (rule R122), the groups of a low run (rules R125 to R129) and the triples of a
high run (rule R133). -/

namespace Sys2Proof.Proofs

open Sys2Proof Sys2Proof.Machine Sys2Proof.Laws

/-! ### Runs -/

/-- An input is a part of class `c`, which may be empty, in front of one that does not begin in that class. -/
theorem exists_class_split (c : Mode) (x : List Byte) :
    ∃ r y, x = r ++ y ∧ (∀ b ∈ r, classOf b = c) ∧ ∀ b ∈ y.head?, classOf b ≠ c := by
  induction x with
  | nil => exact ⟨[], [], by simp⟩
  | cons b x ih =>
    by_cases h : classOf b = c
    · obtain ⟨r, y, rfl, hr, hy⟩ := ih
      exact ⟨b :: r, y, rfl, List.forall_mem_cons.2 ⟨h, hr⟩, hy⟩
    · exact ⟨[], b :: x, by simp [h]⟩

/-- The first run has the class of the first byte. -/
theorem runsOf_head_class (x : List Byte) : (runsOf x).head?.map Prod.fst = x.head?.map classOf := by
  cases x with
  | nil => rfl
  | cons b x =>
    rw [runsOf]
    split
    · rfl
    · split
      · rename_i hc
        simp [hc]
      · rfl

/-- An input that does not begin in class `c` has no first run of that class. -/
theorem runsOf_head_ne {c : Mode} {y : List Byte} (hy : ∀ b ∈ y.head?, classOf b ≠ c) :
    ∀ cr ∈ (runsOf y).head?, c ≠ cr.1 := by
  rintro ⟨c', r⟩ hcr rfl
  have hhead := runsOf_head_class y
  rw [Option.mem_def.1 hcr, Option.map_some, eq_comm, Option.map_eq_some_iff] at hhead
  obtain ⟨b, hb, hclass⟩ := hhead
  exact hy b hb hclass

/-- A maximal run in front is the first of the runs (rule R122). -/
theorem runsOf_run {c : Mode} {r y : List Byte} (hne : r ≠ []) (hr : ∀ b ∈ r, classOf b = c)
    (hy : ∀ b ∈ y.head?, classOf b ≠ c) : runsOf (r ++ y) = (c, r) :: runsOf y := by
  induction r with
  | nil => exact absurd rfl hne
  | cons b r ih =>
    obtain ⟨hb, hr⟩ := List.forall_mem_cons.1 hr
    cases r with
    | nil =>
      have hnext := runsOf_head_ne hy
      rw [List.singleton_append, runsOf, hb]
      split
      · rename_i hruns
        rw [hruns]
      · rename_i c' r' rest hruns
        rw [hruns] at hnext
        rw [if_neg (hnext _ rfl).symm, hruns]
    | cons b' r => rw [List.cons_append, runsOf, ih (List.cons_ne_nil _ _) hr, ← hb]; simp

/-- An input is empty, or a maximal run in front of an input: induction over the runs. -/
theorem runs_induction {P : List Byte → Prop} (nil : P [])
    (run : ∀ (c : Mode) (r y : List Byte), r ≠ [] → (∀ b ∈ r, classOf b = c) →
      (∀ b ∈ y.head?, classOf b ≠ c) → P y → P (r ++ y)) (x : List Byte) : P x := by
  induction hn : x.length using Nat.strong_induction_on generalizing x with
  | h n ih =>
    cases x with
    | nil => exact nil
    | cons b x =>
      obtain ⟨r, y, rfl, hr, hy⟩ := exists_class_split (classOf b) x
      refine run (classOf b) (b :: r) y (List.cons_ne_nil _ _) (by simpa using hr) hy (ih _ ?_ y rfl)
      simp only [← hn, List.length_cons, List.length_append]
      omega

/-- The runs joined in order are the input. -/
theorem runsOf_flatten (x : List Byte) : ((runsOf x).map Prod.snd).flatten = x := by
  induction x using runs_induction with
  | nil => rfl
  | run c r y hne hr hy ih => rw [runsOf_run hne hr hy, List.map_cons, List.flatten_cons, ih]

/-- Each run is non-empty and of one class. -/
theorem runsOf_uniform (x : List Byte) : ∀ cr ∈ runsOf x, cr.2 ≠ [] ∧ ∀ b ∈ cr.2, classOf b = cr.1 := by
  induction x using runs_induction with
  | nil => simp [runsOf]
  | run c r y hne hr hy ih =>
    rw [runsOf_run hne hr hy]
    exact List.forall_mem_cons.2 ⟨⟨hne, hr⟩, ih⟩

/-- Neighbouring runs differ in class. -/
theorem runsOf_alternate (x : List Byte) : (runsOf x).IsChain fun p q => p.1 ≠ q.1 := by
  induction x using runs_induction with
  | nil => exact List.isChain_nil
  | run c r y hne hr hy ih =>
    rw [runsOf_run hne hr hy]
    exact ih.cons (runsOf_head_ne hy)

/-- What the runs of an input encode to, joined in order (rule R122), whatever its leads. -/
def runsOutput (t : Table) (x : List Byte) : List Byte := (runsOf x).flatMap (encodeRun t)

@[simp] theorem runsOutput_nil (t : Table) : runsOutput t [] = [] := rfl

/-- A maximal run in front is encoded in front. -/
theorem runsOutput_run (t : Table) {c : Mode} {r y : List Byte} (hne : r ≠ [])
    (hr : ∀ b ∈ r, classOf b = c) (hy : ∀ b ∈ y.head?, classOf b ≠ c) :
    runsOutput t (r ++ y) = encodeRun t (c, r) ++ runsOutput t y := by
  rw [runsOutput, runsOf_run hne hr hy, List.flatMap_cons, runsOutput]

/-- An input without a bad lead encodes to its runs' encodings (rules R122, R132). -/
theorem encodeRuns_of_good (t : Table) {x : List Byte} (h : ∀ b ∈ x, isBadLead b = false) :
    encodeRuns t x = .ok (runsOutput t x) := by
  rw [encodeRuns, List.findIdx?_eq_none_iff.2 h, runsOutput]

/-- What the run form can answer: the first bad lead, or the runs' encodings where there is none. -/
theorem encodeRuns_cases (t : Table) (x : List Byte) :
    (∃ p, x.findIdx? isBadLead = some p ∧ encodeRuns t x = .error (.badLead, p)) ∨
    ((∀ b ∈ x, isBadLead b = false) ∧ encodeRuns t x = .ok (runsOutput t x)) := by
  cases h : x.findIdx? isBadLead with
  | some p => exact .inl ⟨p, rfl, by rw [encodeRuns, h]⟩
  | none =>
    have hgood := List.findIdx?_eq_none_iff.1 h
    exact .inr ⟨hgood, encodeRuns_of_good t hgood⟩

/-- An output of the run form is that of the runs, and the input holds no bad lead. -/
theorem encodeRuns_eq_ok_iff (t : Table) (x y : List Byte) :
    encodeRuns t x = .ok y ↔ (∀ b ∈ x, isBadLead b = false) ∧ y = runsOutput t x := by
  constructor
  · intro h
    obtain ⟨_, -, e⟩ | ⟨hgood, e⟩ := encodeRuns_cases t x <;> cases e.symm.trans h
    exact ⟨hgood, rfl⟩
  · rintro ⟨hgood, rfl⟩
    exact encodeRuns_of_good t hgood

/-- Settles O41: the three properties of the runs, and the run form read as a join. -/
theorem runsPartitionTheInput : Obligations.RunsPartitionTheInput := fun x =>
  ⟨runsOf_flatten x, runsOf_uniform x, runsOf_alternate x, fun t y h => by
    rw [((encodeRuns_eq_ok_iff t x y).1 h).2, runsOutput, List.flatMap_def]⟩

/-! ### Pieces -/

/-- Fuel beyond the length of the list adds no piece. -/
theorem piecesFuel_eq_pieces {α : Type} {n : Nat} (hn : 0 < n) {fuel : Nat} {xs : List α}
    (h : xs.length ≤ fuel) : piecesFuel n fuel xs = pieces n xs := by
  suffices H : ∀ (f f' : Nat) (xs : List α), xs.length ≤ f → xs.length ≤ f' →
      piecesFuel n f xs = piecesFuel n f' xs from H _ _ _ h le_rfl
  intro f
  induction f with
  | zero => intro f' xs hf _; cases List.length_eq_zero_iff.1 (Nat.le_zero.1 hf); cases f' <;> rfl
  | succ f ih =>
    intro f' xs hf hf'
    cases xs with
    | nil => cases f' <;> rfl
    | cons x xs =>
      cases f' with
      | zero => simp at hf'
      | succ f' =>
        simp only [List.length_cons] at hf hf'
        simp only [piecesFuel, List.isEmpty_cons, Bool.false_eq_true, if_false]
        rw [ih f' _ (by simp; omega) (by simp; omega)]

@[simp] theorem pieces_nil {α : Type} (n : Nat) : pieces n ([] : List α) = [] := rfl

/-- A list is cut at its first n entries. -/
theorem pieces_of_ne_nil {α : Type} {n : Nat} (hn : 0 < n) {xs : List α} (h : xs ≠ []) :
    pieces n xs = xs.take n :: pieces n (xs.drop n) := by
  obtain ⟨x, xs, rfl⟩ := List.exists_cons_of_ne_nil h
  rw [pieces, List.length_cons, piecesFuel, if_neg (by simp), piecesFuel_eq_pieces hn (by simp; omega)]

/-- A list that fits one piece is its only piece. -/
theorem pieces_of_length_le {α : Type} {n : Nat} (hn : 0 < n) {xs : List α} (hne : xs ≠ [])
    (h : xs.length ≤ n) : pieces n xs = [xs] := by
  rw [pieces_of_ne_nil hn hne, List.take_of_length_le h, List.drop_of_length_le h, pieces_nil]

/-- A full piece in front is the first piece. -/
theorem pieces_append {α : Type} {n : Nat} (hn : 0 < n) {p : List α} (hp : p.length = n) (xs : List α) :
    pieces n (p ++ xs) = p :: pieces n xs := by
  have hne : p ++ xs ≠ [] := by rintro h; simp_all
  rw [pieces_of_ne_nil hn hne, List.take_left' hp, List.drop_left' hp]

/-- Full pieces joined are cut where they were joined. -/
theorem pieces_flatten {α : Type} {n : Nat} (hn : 0 < n) {ps : List (List α)}
    (h : ∀ p ∈ ps, p.length = n) : pieces n ps.flatten = ps := by
  induction ps with
  | nil => rfl
  | cons p ps ih =>
    obtain ⟨hp, hps⟩ := List.forall_mem_cons.1 h
    rw [List.flatten_cons, pieces_append hn hp, ih hps]

/-- A list is shorter than n, or a full piece in front of a list: induction over the pieces. -/
theorem pieces_induction {α : Type} {n : Nat} (hn : 0 < n) {P : List α → Prop}
    (short : ∀ g, g.length < n → P g) (full : ∀ g xs, g.length = n → P xs → P (g ++ xs))
    (xs : List α) : P xs := by
  induction hlen : xs.length using Nat.strong_induction_on generalizing xs with
  | h len ih =>
    by_cases h : xs.length < n
    · exact short xs h
    · rw [← List.take_append_drop n xs]
      exact full _ _ (by simp; omega) (ih _ (by simp; omega) _ rfl)

/-! ### Low runs -/

/-- A group of m bytes gives m + 1 symbols (rule R126). -/
@[simp] theorem packGroup_length (g : List Byte) : (packGroup g).length = g.length + 1 := by simp [packGroup]

@[simp] theorem lowRunValues_nil : lowRunValues [] = [] := rfl

/-- A low run of at most 6 bytes is one group (rule R125). -/
theorem lowRunValues_of_length_le {g : List Byte} (hne : g ≠ []) (h : g.length ≤ 6) :
    lowRunValues g = packGroup g := by
  rw [lowRunValues, pieces_of_length_le (by decide) hne h, List.flatMap_singleton]

/-- A full group in front is packed in front (rule R125). -/
theorem lowRunValues_append {g : List Byte} (hg : g.length = 6) (r : List Byte) :
    lowRunValues (g ++ r) = packGroup g ++ lowRunValues r := by
  rw [lowRunValues, pieces_append (by decide) hg, List.flatMap_cons, lowRunValues]

/-- A low run of L bytes gives L + ceil(L / 6) symbols (rule R126). -/
theorem lowRunValues_length (r : List Byte) : (lowRunValues r).length = r.length + (r.length + 5) / 6 := by
  induction r using pieces_induction (n := 6) (by decide) with
  | short g hg =>
    obtain rfl | hne := eq_or_ne g []
    · rfl
    · have hpos := List.length_pos_iff.2 hne
      rw [lowRunValues_of_length_le hne hg.le, packGroup_length]
      omega
  | full g r hg ih =>
    rw [lowRunValues_append hg, List.length_append, packGroup_length, ih, List.length_append]
    omega

/-- Settles O43: the length of the packer's range, and the sum over the groups. -/
theorem lowRunLength : Obligations.LowRunLength := ⟨packGroup_length, lowRunValues_length⟩

/-- The last symbol value of a group is the group's number shifted, cut to 6 bits (rule R127). -/
theorem packGroup_getLast? (g : List Byte) :
    (packGroup g).getLast? = some ((joinBits 7 (g.map BitVec.toNat) <<< (6 - g.length)) % 64) := by
  simp [packGroup, List.getLast?_range]

/-- The zero fill of the last symbol: its 6 - m low bits (rule R129). -/
theorem packGroup_padding {g : List Byte} {v : Nat} (h : (packGroup g).getLast? = some v) :
    v % 2 ^ (6 - g.length) = 0 := by
  rw [packGroup_getLast?, Option.some.injEq, Nat.shiftLeft_eq] at h
  have hfits : 2 ^ (6 - g.length) ∣ 64 := Nat.pow_dvd_pow 2 (n := 6) (Nat.sub_le _ _)
  rw [← h, Nat.mod_mod_of_dvd _ hfits, Nat.mul_mod_left]

/-- The list holds symbols of the table alone. -/
def AllSymbols (t : Table) (seg : List Byte) : Prop := ∀ b ∈ seg, ∃ v, b = t.symbol v

/-- What ENC answers is symbols. -/
theorem allSymbols_map {t : Table} (vs : List Byte) : AllSymbols t (vs.map t.symbol) := by
  intro b hb
  obtain ⟨v, -, rfl⟩ := List.mem_map.1 hb
  exact ⟨v, rfl⟩

/-- A low run is encoded in symbols alone (rule R128). -/
theorem allSymbols_encodeRun_low (t : Table) (r : List Byte) : AllSymbols t (encodeRun t (.low, r)) := by
  intro b hb
  obtain ⟨v, -, rfl⟩ := List.mem_map.1 hb
  exact ⟨_, rfl⟩

/-- No symbol is the delimiter (rule R30). -/
theorem AllSymbols.ne_delim {t : Table} {seg : List Byte} (h : AllSymbols t seg) (ht : TableOk t) :
    ∀ b ∈ seg, b ≠ t.delim := by
  intro b hb
  obtain ⟨v, rfl⟩ := h b hb
  exact symbol_ne_delim ht v

/-- Settles O44: the zero fill, and that ENC never answers the delimiter. -/
theorem lowRunPaddingIsZeroAndNoDelimiter : Obligations.LowRunPaddingIsZeroAndNoDelimiter :=
  ⟨fun _ _ _ h => packGroup_padding h, fun t r ht => (allSymbols_encodeRun_low t r).ne_delim ht⟩

/-! ### High runs -/

/-- A byte of a high run below 0xC0 gives its low six bits (rule R131). -/
theorem highValues_of_continuation {b : Byte} (h : b ≤ 0xBF) : highValues b = some [b &&& 0x3F] :=
  if_pos (by bv_omega)

/-- The lead of a 2-byte sequence gives 0 and its low five bits (rule R131). -/
theorem highValues_of_lead2 {b : Byte} (hlo : 0xC0 ≤ b) (hhi : b ≤ 0xDF) :
    highValues b = some [0, b &&& 0x1F] := by
  rw [highValues, if_neg (by bv_omega), if_pos (by bv_omega)]

/-- The lead of a 3-byte sequence gives its low four bits (rule R131). -/
theorem highValues_of_lead3 {b : Byte} (hlo : 0xE0 ≤ b) (hhi : b ≤ 0xEF) :
    highValues b = some [b &&& 0x0F] := by
  rw [highValues, if_neg (by bv_omega), if_neg (by bv_omega), if_pos (by bv_omega)]

/-- The lead of a 4-byte sequence gives nothing (rule R131). -/
theorem highValues_lead4 : highValues 0xF0 = some [] := by decide

/-- ENC is given values of 6 bits (rule R131). -/
theorem highValues_lt {b : Byte} {vs : List Byte} (h : highValues b = some vs) : ∀ v ∈ vs, v.toNat < 64 := by
  have mask (x : Nat) {m : Nat} (hm : m < 64) : x &&& m < 64 := Nat.and_le_right.trans_lt hm
  unfold highValues at h
  split_ifs at h <;> cases h <;> simp [mask]

@[simp] theorem highRunValues_nil : highRunValues [] = [] := rfl

@[simp] theorem highRunValues_cons (b : Byte) (r : List Byte) :
    highRunValues (b :: r) = (highValues b).getD [] ++ highRunValues r := List.flatMap_cons

/-- Sequences joined give their values joined. -/
theorem highRunValues_flatten (qs : List (List Byte)) :
    highRunValues qs.flatten = (qs.map highRunValues).flatten := by
  induction qs with
  | nil => rfl
  | cons q qs ih =>
    rw [List.flatten_cons, List.map_cons, List.flatten_cons, ← ih]
    exact List.flatMap_append

/-- A high run of L bytes gives at most 2L symbols (rule R131). -/
theorem highRunValues_length_le (r : List Byte) : (highRunValues r).length ≤ 2 * r.length := by
  induction r with
  | nil => exact le_rfl
  | cons b r ih =>
    have hb : ((highValues b).getD []).length ≤ 2 := by
      cases h : highValues b with
      | none => simp
      | some vs => exact highValues_length h
    simp only [highRunValues_cons, List.length_append, List.length_cons]
    omega

/-- The values of a high run have 6 bits. -/
theorem highRunValues_lt (r : List Byte) : ∀ v ∈ highRunValues r, v.toNat < 64 := by
  intro v hv
  obtain ⟨b, -, hb⟩ := List.mem_flatMap.1 hv
  cases h : highValues b with
  | none => simp [h] at hb
  | some vs => exact highValues_lt h v (by simpa [h] using hb)

/-- A 2-byte sequence gives its triple (rules R81, R133). -/
theorem highRunValues_sequence2 {l c : Byte} (hlo : 0xC0 ≤ l) (hhi : l ≤ 0xDF) (hc : c ≤ 0xBF) :
    highRunValues [l, c] = [0, l &&& 0x1F, c &&& 0x3F] := by
  simp [highValues_of_lead2 hlo hhi, highValues_of_continuation hc]

/-- A 3-byte sequence gives its triple (rules R81, R133). -/
theorem highRunValues_sequence3 {l c1 c2 : Byte} (hlo : 0xE0 ≤ l) (hhi : l ≤ 0xEF) (h1 : c1 ≤ 0xBF)
    (h2 : c2 ≤ 0xBF) : highRunValues [l, c1, c2] = [l &&& 0x0F, c1 &&& 0x3F, c2 &&& 0x3F] := by
  simp [highValues_of_lead3 hlo hhi, highValues_of_continuation h1, highValues_of_continuation h2]

/-- A 4-byte sequence gives its triple (rules R81, R133). -/
theorem highRunValues_sequence4 {c1 c2 c3 : Byte} (h1 : c1 ≤ 0xBF) (h2 : c2 ≤ 0xBF) (h3 : c3 ≤ 0xBF) :
    highRunValues [0xF0, c1, c2, c3] = [c1 &&& 0x3F, c2 &&& 0x3F, c3 &&& 0x3F] := by
  rw [highRunValues_cons, highValues_lead4]
  simp [highValues_of_continuation h1, highValues_of_continuation h2, highValues_of_continuation h3]

/-- Joined sequences of three symbols each are cut into their triples (rules R81, R133). -/
theorem pieces_highRunValues_flatten {qs : List (List Byte)} (h : ∀ q ∈ qs, (highRunValues q).length = 3) :
    pieces 3 (highRunValues qs.flatten) = qs.map highRunValues := by
  rw [highRunValues_flatten, pieces_flatten (by decide) (List.forall_mem_map.2 h)]

/-- Each of the joined sequences gives three symbols (rule R133). -/
theorem highRunValues_flatten_length {qs : List (List Byte)} (h : ∀ q ∈ qs, (highRunValues q).length = 3) :
    (highRunValues qs.flatten).length = 3 * qs.length := by
  induction qs with
  | nil => rfl
  | cons q qs ih =>
    obtain ⟨hq, hqs⟩ := List.forall_mem_cons.1 h
    have ih := ih hqs
    rw [highRunValues_flatten] at ih ⊢
    simp only [List.map_cons, List.flatten_cons, List.length_append, List.length_cons, hq, ih]
    omega

/-- Settles O45: a clause for each length of sequence, and the cut of their join. -/
theorem utf8SequenceGivesThreeSymbols : Obligations.Utf8SequenceGivesThreeSymbols :=
  ⟨fun _ _ hlo hhi _ hc => highRunValues_sequence2 hlo hhi hc,
    fun _ _ _ hlo hhi _ h1 _ h2 => highRunValues_sequence3 hlo hhi h1 h2,
    fun _ _ _ _ h1 _ h2 _ h3 => highRunValues_sequence4 h1 h2 h3,
    fun _ h => ⟨pieces_highRunValues_flatten h, highRunValues_flatten_length h⟩⟩

end Sys2Proof.Proofs
end

section
/-! PROOFS. The encoded length (rule R136), the round-trip domain (rule R137) and its bound (rule R138). -/

namespace Sys2Proof.Proofs

open Sys2Proof Sys2Proof.Machine Sys2Proof.Laws

/-! ### The encoded length -/

@[simp] theorem encodeRun_low_length (t : Table) (r : List Byte) :
    (encodeRun t (.low, r)).length = (lowRunValues r).length := List.length_map _

@[simp] theorem encodeRun_high_length (t : Table) (r : List Byte) :
    (encodeRun t (.high, r)).length = (highRunValues r).length + 2 := by simp [encodeRun]

/-- The length of an encoding against `c / a` of the input's: a high run may exceed that share by `1 / a` where
each low run falls short of it by as much, for the runs alternate (rule R136). -/
theorem runsOutput_length_bound (t : Table) {a c : Nat}
    (hlow : ∀ r : List Byte, r ≠ [] → a * (lowRunValues r).length + 1 ≤ c * r.length) {x : List Byte}
    (hhigh : ∀ r : List Byte, (Mode.high, r) ∈ runsOf x →
      a * ((highRunValues r).length + 2) ≤ c * r.length + 1) :
    a * (runsOutput t x).length ≤ c * x.length + 1 := by
  suffices H : a * (runsOutput t x).length ≤ c * x.length + 1 ∧
      ((∀ b ∈ x.head?, classOf b ≠ .high) → a * (runsOutput t x).length ≤ c * x.length) from H.1
  induction x using runs_induction with
  | nil => simp
  | run m r y hne hr hy ih =>
    rw [runsOf_run hne hr hy] at hhigh
    obtain ⟨hafter, hafterLow⟩ := ih fun q hq => hhigh q (List.mem_cons_of_mem _ hq)
    rw [runsOutput_run t hne hr hy, List.length_append, List.length_append, Nat.mul_add, Nat.mul_add]
    cases m with
    | low =>
      have hrun := hlow r hne
      rw [encodeRun_low_length]
      exact ⟨by omega, fun _ => by omega⟩
    | high =>
      have hrun := hhigh r List.mem_cons_self
      have hrest := hafterLow hy
      rw [encodeRun_high_length]
      refine ⟨by omega, fun hhead => ?_⟩
      obtain ⟨b, r, rfl⟩ := List.exists_cons_of_ne_nil hne
      exact absurd (hr b List.mem_cons_self) (hhead b rfl)

/-- The encodings of the runs of n bytes have at most 3n + 1 bytes (rule R136). -/
theorem runsOutput_length_le (t : Table) (x : List Byte) : (runsOutput t x).length ≤ 3 * x.length + 1 := by
  have hbound := runsOutput_length_bound t (a := 1) (c := 3) (x := x) (fun r hne => ?_) (fun r hr => ?_)
  · omega
  · have hpos := List.length_pos_iff.2 hne
    rw [lowRunValues_length]
    omega
  · have hpos := List.length_pos_iff.2 (runsOf_uniform x _ hr).1
    have hvalues := highRunValues_length_le r
    dsimp only at hpos
    omega

/-- The input [0xC0] encodes to a delimiter, two symbols and a delimiter (rule R136). -/
theorem encodeRuns_lead2 (t : Table) :
    encodeRuns t [0xC0] = .ok [t.delim, t.symbol 0, t.symbol 0, t.delim] := rfl

/-- Settles O46: the bound over the runs, reached by a lead alone. -/
theorem encodedLengthBound : Obligations.EncodedLengthBound := by
  refine ⟨fun t x y h => ?_, fun t => ⟨_, encodeRuns_lead2 t, rfl⟩⟩
  obtain ⟨-, rfl⟩ := (encodeRuns_eq_ok_iff t x y).1 h
  exact ⟨by rintro rfl; rfl, runsOutput_length_le t x⟩

/-! ### The round-trip domain -/

/-- What the triple unpacker puts back on the low bits of a 2-byte lead (rule R162). -/
theorem lead2_masked : ∀ l : Byte, 0xC0 ≤ l → l ≤ 0xDF → 0xC0 ||| (l &&& 0x1F) = l := by decide

/-- What the triple unpacker puts back on the low bits of a 3-byte lead (rule R162). -/
theorem lead3_masked : ∀ l : Byte, 0xE0 ≤ l → l ≤ 0xEF → 0xE0 ||| (l &&& 0x0F) = l := by decide

/-- What the triple unpacker puts back on the low bits of a continuation byte (rule R162). -/
theorem continuation_masked : ∀ c : Byte, 0x80 ≤ c → c ≤ 0xBF → 0x80 ||| (c &&& 0x3F) = c := by decide

/-- The five bits of a 2-byte lead are below the 0x20 that rule R162 tests. -/
theorem lead2_low_bits : ∀ l : Byte, l &&& 0x1F < 0x20 := by decide

/-- The four bits of a 3-byte lead other than 0xE0 are not 0, and below the 0x10 that rule R162 tests. -/
theorem lead3_low_bits : ∀ l : Byte, 0xE1 ≤ l → l ≤ 0xEF → l &&& 0x0F ≠ 0 ∧ l &&& 0x0F < 0x10 := by decide

/-- The bounds 0xA0 and 0x90 of rule R137 on a second byte keep a triple out of the ranges that rule R162 gives to
shorter sequences. -/
theorem continuation_low_bits :
    ∀ c : Byte, c ≤ 0xBF → (0xA0 ≤ c → ¬ c &&& 0x3F < 0x20) ∧ (0x90 ≤ c → 0x10 ≤ c &&& 0x3F) := by decide

theorem contFrom_iff (lo c : Byte) : contFrom lo c = true ↔ lo ≤ c ∧ c ≤ 0xBF := by simp [contFrom]

/-- The forms of a sequence of the domain (rule R137). -/
theorem isDomainSequence_cases {q : List Byte} (h : isDomainSequence q = true) :
    (∃ l c : Byte, q = [l, c] ∧ (0xC0 ≤ l ∧ l ≤ 0xDF) ∧ 0x80 ≤ c ∧ c ≤ 0xBF) ∨
    (∃ l c1 c2 : Byte, q = [l, c1, c2] ∧ (0xE1 ≤ l ∧ l ≤ 0xEF ∧ 0x80 ≤ c1 ∨ l = 0xE0 ∧ 0xA0 ≤ c1) ∧
      c1 ≤ 0xBF ∧ 0x80 ≤ c2 ∧ c2 ≤ 0xBF) ∨
    (∃ c1 c2 c3 : Byte, q = [0xF0, c1, c2, c3] ∧ (0x90 ≤ c1 ∧ c1 ≤ 0xBF) ∧ (0x80 ≤ c2 ∧ c2 ≤ 0xBF) ∧
      0x80 ≤ c3 ∧ c3 ≤ 0xBF) := by
  unfold isDomainSequence at h
  split at h
  · rename_i l c
    simp only [Bool.and_eq_true, decide_eq_true_eq, contFrom_iff] at h
    exact .inl ⟨l, c, rfl, h⟩
  · rename_i l c1 c2
    simp only [Bool.and_eq_true, Bool.or_eq_true, decide_eq_true_eq, beq_iff_eq, contFrom_iff] at h
    obtain ⟨⟨⟨hlo, hhi⟩, h1, h1'⟩ | ⟨hl, h1, h1'⟩, h2⟩ := h
    · exact .inr (.inl ⟨l, c1, c2, rfl, .inl ⟨hlo, hhi, h1⟩, h1', h2⟩)
    · exact .inr (.inl ⟨l, c1, c2, rfl, .inr ⟨hl, h1⟩, h1', h2⟩)
  · rename_i l c1 c2 c3
    simp only [Bool.and_eq_true, beq_iff_eq, contFrom_iff] at h
    obtain ⟨⟨⟨rfl, h1⟩, h2⟩, h3⟩ := h
    exact .inr (.inr ⟨c1, c2, c3, rfl, h1, h2, h3⟩)
  · cases h

/-- A sequence of the domain gives a triple of symbol values, and that triple unpacks to the sequence
(rules R131, R162). -/
theorem exists_triple_of_isDomainSequence {q : List Byte} (h : isDomainSequence q = true) :
    ∃ d0 d1 d2, highRunValues q = [d0, d1, d2] ∧ tripleBytes d0 d1 d2 = q := by
  obtain ⟨l, c, rfl, ⟨hlo, hhi⟩, hc, hc'⟩ | ⟨l, c1, c2, rfl, hl, h1, h2, h2'⟩ |
    ⟨c1, c2, c3, rfl, ⟨h1, h1'⟩, ⟨h2, h2'⟩, h3, h3'⟩ := isDomainSequence_cases h
  · refine ⟨_, _, _, highRunValues_sequence2 hlo hhi hc', ?_⟩
    rw [tripleBytes, if_pos ⟨rfl, lead2_low_bits l⟩, lead2_masked l hlo hhi, continuation_masked c hc hc']
  · have hlo : 0xE0 ≤ l := by bv_omega
    have hhi : l ≤ 0xEF := by bv_omega
    have hc : 0x80 ≤ c1 := by bv_omega
    refine ⟨_, _, _, highRunValues_sequence3 hlo hhi h1 h2', ?_⟩
    rw [tripleBytes, if_neg ?_, if_neg ?_, lead3_masked l hlo hhi, continuation_masked c1 hc h1,
      continuation_masked c2 h2 h2']
    · obtain ⟨hlo, hhi, -⟩ | ⟨rfl, -⟩ := hl
      · have := (lead3_low_bits l hlo hhi).2
        bv_omega
      · decide
    · rintro ⟨hz, hsmall⟩
      obtain ⟨hlo, hhi, -⟩ | ⟨rfl, hc⟩ := hl
      · exact (lead3_low_bits l hlo hhi).1 hz
      · exact (continuation_low_bits c1 h1).1 hc hsmall
  · have hlead := (continuation_low_bits c1 h1').2 h1
    refine ⟨_, _, _, highRunValues_sequence4 h1' h2' h3', ?_⟩
    rw [tripleBytes, if_neg ?_, if_pos hlead, continuation_masked c1 (by bv_omega) h1',
      continuation_masked c2 h2 h2', continuation_masked c3 h3 h3']
    rintro ⟨hz, -⟩
    rw [hz] at hlead
    exact absurd hlead (by decide)

/-- A byte below 0x80 is low (rule R121). -/
theorem classOf_eq_low_iff : ∀ b : Byte, classOf b = .low ↔ b < 128 := by decide

/-- No low byte is a bad lead (rule R132). -/
theorem isBadLead_of_low {b : Byte} (h : classOf b = .low) : isBadLead b = false := by
  have hlt := (classOf_eq_low_iff b).1 h
  exact decide_eq_false (BitVec.not_le.2 (by bv_omega))

/-- Sequences of the domain give three symbols each (rule R133). -/
theorem highRunValues_length_of_domain {qs : List (List Byte)} (h : ∀ q ∈ qs, isDomainSequence q = true) :
    ∀ q ∈ qs, (highRunValues q).length = 3 := by
  intro q hq
  obtain ⟨_, _, _, e, -⟩ := exists_triple_of_isDomainSequence (h q hq)
  rw [e]
  rfl

/-- n joined sequences of the domain have at least 2n bytes. -/
theorem length_flatten_of_domain {qs : List (List Byte)} (h : ∀ q ∈ qs, isDomainSequence q = true) :
    2 * qs.length ≤ qs.flatten.length := by
  induction qs with
  | nil => simp
  | cons q qs ih =>
    obtain ⟨hq, hqs⟩ := List.forall_mem_cons.1 h
    obtain ⟨d0, d1, d2, -, rfl⟩ := exists_triple_of_isDomainSequence hq
    have hfirst := (tripleBytes_length d0 d1 d2).1
    have hrest := ih hqs
    simp only [List.length_cons, List.flatten_cons, List.length_append]
    omega

/-- No byte of a sequence of the domain is a bad lead. -/
theorem isBadLead_of_mem_isDomainSequence {q : List Byte} (h : isDomainSequence q = true) :
    ∀ b ∈ q, isBadLead b = false := by
  suffices hlt : ∀ b ∈ q, b < 0xF1 from fun b hb => decide_eq_false (BitVec.not_le.2 (hlt b hb))
  obtain ⟨l, c, rfl, ⟨-, hl⟩, -, hc⟩ | ⟨l, c1, c2, rfl, hl, h1, -, h2⟩ |
    ⟨c1, c2, c3, rfl, ⟨-, h1⟩, ⟨-, h2⟩, -, h3⟩ := isDomainSequence_cases h <;>
  simp only [List.forall_mem_cons, List.not_mem_nil, false_imp_iff, implies_true, and_true]
  · exact ⟨by bv_omega, by bv_omega⟩
  · exact ⟨by bv_omega, by bv_omega, by bv_omega⟩
  · exact ⟨by decide, by bv_omega, by bv_omega, by bv_omega⟩

/-- Over the domain the encodings of the runs stay below 7/3 of the input, but for the last run's excess
(rule R138). -/
theorem runsOutput_length_le_of_domain (t : Table) {x : List Byte} (hx : RoundTripDomain x) :
    3 * (runsOutput t x).length ≤ 7 * x.length + 1 := by
  refine runsOutput_length_bound t (fun r hne => ?_) fun r hr => ?_
  · have hpos := List.length_pos_iff.2 hne
    rw [lowRunValues_length]
    omega
  · obtain ⟨qs, hqs, rfl⟩ := hx r hr
    have hne : qs ≠ [] := by rintro rfl; exact (runsOf_uniform x _ hr).1 rfl
    have hpos := List.length_pos_iff.2 hne
    have hbytes := length_flatten_of_domain hqs
    rw [highRunValues_flatten_length (highRunValues_length_of_domain hqs)]
    omega

/-- Settles O47: the bound over the runs, which [0xC0] breaks with its 4 bytes. -/
theorem domainEncodedLengthBound : Obligations.DomainEncodedLengthBound := by
  refine ⟨fun t x y hx h => ?_, fun t => ⟨_, encodeRuns_lead2 t, by simp⟩⟩
  obtain ⟨-, rfl⟩ := (encodeRuns_eq_ok_iff t x y).1 h
  have hbound := runsOutput_length_le_of_domain t hx
  omega

/-- An input of the domain holds no bad lead, in its low runs or in its high runs. -/
theorem not_isBadLead_of_domain {x : List Byte} (hx : RoundTripDomain x) : ∀ b ∈ x, isBadLead b = false := by
  intro b hb
  rw [← runsOf_flatten x, List.mem_flatten] at hb
  obtain ⟨r, hr, hb⟩ := hb
  obtain ⟨⟨c, r⟩, hcr, rfl⟩ := List.mem_map.1 hr
  cases c with
  | low => exact isBadLead_of_low ((runsOf_uniform x _ hcr).2 b hb)
  | high =>
    obtain ⟨qs, hqs, rfl⟩ := hx r hcr
    obtain ⟨q, hq, hb⟩ := List.mem_flatten.1 hb
    exact isBadLead_of_mem_isDomainSequence (hqs q hq) b hb

end Sys2Proof.Proofs
end

section
/-! PROOFS. The round trip (rule R137): each encoded run is a segment, or a pair of delimiters about one, whose
bytes are the run. -/

namespace Sys2Proof.Proofs

open Sys2Proof Sys2Proof.Machine Sys2Proof.Laws

/-! ### Unpacking what was packed -/

/-- The base-2^w digits of a number, joined, are the number, cut to so many digits. -/
theorem joinBits_digits (w W m : Nat) :
    joinBits w ((List.range (m + 1)).map fun j => (W >>> (w * (m - j))) % 2 ^ w) = W % 2 ^ (w * (m + 1)) := by
  induction m generalizing W with
  | zero => simp [joinBits]
  | succ m ih =>
    have hdigits : (List.range (m + 1)).map (fun j => (W >>> (w * (m + 1 - j))) % 2 ^ w) =
        (List.range (m + 1)).map fun j => ((W / 2 ^ w) >>> (w * (m - j))) % 2 ^ w := by
      refine List.map_congr_left fun j hj => ?_
      have hj : j ≤ m := Nat.le_of_lt_succ (List.mem_range.1 hj)
      rw [Nat.succ_sub hj, Nat.mul_succ, Nat.add_comm, Nat.shiftRight_add, Nat.shiftRight_eq_div_pow W]
    rw [List.range_succ, List.map_append, List.map_singleton, joinBits_concat, hdigits, ih,
      Nat.mul_succ w (m + 1), Nat.add_comm (w * (m + 1)), pow_add, Nat.mod_mul, Nat.sub_self, Nat.mul_zero,
      Nat.shiftRight_zero]
    ring

/-- The symbol values of a group join to the group's number with the zero fill (rule R127). -/
theorem joinBits_packGroup {g : List Byte} (hlen : g.length ≤ 6) (h : ∀ b ∈ g, b < 128) :
    joinBits 6 (packGroup g) = joinBits 7 (g.map BitVec.toNat) * 2 ^ (6 - g.length) := by
  have hdigits : ∀ d ∈ g.map BitVec.toNat, d < 2 ^ 7 := by simpa [BitVec.lt_def] using h
  have hlt := joinBits_lt hdigits
  rw [List.length_map] at hlt
  refine (joinBits_digits 6 _ g.length).trans ?_
  rw [Nat.shiftLeft_eq, Nat.mod_eq_of_lt]
  calc _ < 2 ^ (7 * g.length) * 2 ^ (6 - g.length) := Nat.mul_lt_mul_of_pos_right hlt (Nat.two_pow_pos _)
    _ = 2 ^ (6 * (g.length + 1)) := by rw [← pow_add]; congr 1; omega

/-- Digit k of the number that 7-bit digits join to. -/
theorem joinBits_digit {ds : List Nat} (h : ∀ d ∈ ds, d < 128) {k : Nat} (hk : k < ds.length) :
    joinBits 7 ds / 2 ^ (7 * (ds.length - (k + 1))) % 128 = ds[k] := by
  rw [joinBits_div_eq_take (k + 1) h, joinBits_take_mod ds hk h, List.getD_cons_succ, List.getD_eq_getElem _ _ hk]

/-- A packed group unpacks to its bytes (rules R127, R160). -/
theorem unpackGroup_packGroup {g : List Byte} (hlen : g.length ≤ 6) (h : ∀ b ∈ g, b < 128) :
    unpackGroup (packGroup g) = g := by
  have hdigits : ∀ d ∈ g.map BitVec.toNat, d < 128 := by simpa [BitVec.lt_def] using h
  refine List.ext_getElem (by simp [unpackGroup]) fun k _ hk => ?_
  have hdigit := joinBits_digit hdigits (k := k) (by simpa using hk)
  have hshift : 6 * (g.length + 1) - 7 * (k + 1) = (6 - g.length) + 7 * (g.length - (k + 1)) := by omega
  simp only [List.length_map, List.getElem_map] at hdigit
  simp only [unpackGroup, List.getElem_map, List.getElem_range, packGroup_length, joinBits_packGroup hlen h, hshift,
    Nat.shiftRight_add]
  rw [Nat.shiftRight_eq_div_pow _ (6 - _), Nat.mul_div_cancel _ (Nat.two_pow_pos _), Nat.shiftRight_eq_div_pow,
    hdigit, BitVec.ofNat_toNat, BitVec.setWidth_eq]

/-- The groups of a low run's symbol values are its packed groups, so that each unpacks to its bytes. -/
theorem pieces_lowRunValues_unpack {r : List Byte} (h : ∀ b ∈ r, b < 128) :
    (pieces 7 (lowRunValues r)).flatMap unpackGroup = r := by
  induction r using pieces_induction (n := 6) (by decide) with
  | short g hg =>
    obtain rfl | hne := eq_or_ne g []
    · rfl
    · have hvalues : packGroup g ≠ [] := by simp [← List.length_pos_iff]
      rw [lowRunValues_of_length_le hne hg.le, pieces_of_length_le (by decide) hvalues (by simp; omega),
        List.flatMap_singleton, unpackGroup_packGroup hg.le h]
  | full g r hg ih =>
    obtain ⟨hgroup, hrest⟩ := List.forall_mem_append.1 h
    rw [lowRunValues_append hg, pieces_append (by decide) (by simp [hg]), List.flatMap_cons, ih hrest,
      unpackGroup_packGroup hg.le hgroup]

/-- DEC inverts ENC on the symbol values (rule R30). -/
theorem value_symbol {t : Table} (ht : TableOk t) {v : Byte} (hv : v.toNat < 64) : t.value (t.symbol v) = v := by
  simpa [Table.symbolOf] using ht.inverse v.toNat hv

/-- The values of a low run have 6 bits. -/
theorem lowRunValues_lt (r : List Byte) : ∀ v ∈ lowRunValues r, v < 64 := by
  intro v hv
  obtain ⟨g, -, hv⟩ := List.mem_flatMap.1 hv
  obtain ⟨j, -, rfl⟩ := List.mem_map.1 hv
  exact Nat.mod_lt _ (by decide)

/-- A low run's encoding, read as a segment, is the run. -/
theorem lowSegmentBytes_encodeRun {t : Table} (ht : TableOk t) {r : List Byte} (hr : ∀ b ∈ r, classOf b = .low) :
    lowSegmentBytes t (encodeRun t (.low, r)) = r := by
  have hvalues : (encodeRun t (.low, r)).map (fun s => (t.value s).toNat) = lowRunValues r := by
    rw [encodeRun, List.map_map]
    refine (List.map_congr_left fun v hv => ?_).trans (List.map_id _)
    have hlt := lowRunValues_lt r v hv
    have hbyte : (BitVec.ofNat 8 v : Byte).toNat = v := Nat.mod_eq_of_lt (by omega)
    rw [Function.comp_apply, value_symbol ht (hbyte.trans_lt hlt), hbyte, id]
  rw [lowSegmentBytes, hvalues, pieces_lowRunValues_unpack fun b hb => (classOf_eq_low_iff b).1 (hr b hb)]

/-- The symbols of a high run of whole sequences, read as a segment, are the run. -/
theorem highSegmentBytes_symbols {t : Table} (ht : TableOk t) {qs : List (List Byte)}
    (hqs : ∀ q ∈ qs, isDomainSequence q = true) :
    highSegmentBytes t ((highRunValues qs.flatten).map t.symbol) = qs.flatten := by
  have hvalues : ((highRunValues qs.flatten).map t.symbol).map t.value = highRunValues qs.flatten := by
    rw [List.map_map]
    exact (List.map_congr_left fun v hv => value_symbol ht (highRunValues_lt _ v hv)).trans (List.map_id _)
  have htriple : ∀ q ∈ qs, tripleOrNone (highRunValues q) = q := by
    intro q hq
    obtain ⟨d0, d1, d2, e, hbytes⟩ := exists_triple_of_isDomainSequence (hqs q hq)
    rw [e]; exact hbytes
  rw [highSegmentBytes, hvalues,
    pieces_highRunValues_flatten (highRunValues_length_of_domain hqs),
    List.flatMap_def, List.map_map]
  congr 1
  exact (List.map_congr_left htriple).trans (List.map_id _)

/-! ### Segments -/

/-- A stream without a delimiter is one segment (rule R153). -/
theorem segmentsOf_of_noDelim {t : Table} {xs : List Byte} (h : ∀ b ∈ xs, b ≠ t.delim) :
    segmentsOf t xs = [xs] := by
  induction xs with
  | nil => rfl
  | cons b xs ih =>
    obtain ⟨hb, hxs⟩ := List.forall_mem_cons.1 h
    rw [segmentsOf, if_neg (mt (isDelim_iff t b).1 hb), ih hxs]

/-- A delimiter ends the first segment (rule R153). -/
theorem segmentsOf_append_delim {t : Table} {xs : List Byte} (h : ∀ b ∈ xs, b ≠ t.delim) (ys : List Byte) :
    segmentsOf t (xs ++ t.delim :: ys) = xs :: segmentsOf t ys := by
  induction xs with
  | nil => exact if_pos ((isDelim_iff t _).2 rfl)
  | cons b xs ih =>
    obtain ⟨hb, hxs⟩ := List.forall_mem_cons.1 h
    rw [List.cons_append, segmentsOf, if_neg (mt (isDelim_iff t b).1 hb), ih hxs]

/-- There is one segment more than there are delimiters (rule R153). -/
theorem segmentsOf_ne_nil (t : Table) (y : List Byte) : segmentsOf t y ≠ [] := by
  cases y with
  | nil => simp [segmentsOf]
  | cons b y =>
    rw [segmentsOf]
    split_ifs
    · simp
    · split <;> simp

/-- A low segment at the end of the stream (rule R153). -/
theorem decodeFrom_low_last {t : Table} {seg : List Byte} (off : Nat) (h : firstBadSymbol t seg = none) :
    decodeFrom t .low off [seg] = .ok (lowSegmentBytes t seg) := by
  rw [decodeFrom, h]

/-- A low segment in front of a high one (rule R153). -/
theorem decodeFrom_low_cons {t : Table} {seg : List Byte} {off : Nat} {rest : List (List Byte)} {out : List Byte}
    (h : firstBadSymbol t seg = none) (hne : rest ≠ [])
    (hrest : decodeFrom t .high (off + seg.length + 1) rest = .ok out) :
    decodeFrom t .low off (seg :: rest) = .ok (lowSegmentBytes t seg ++ out) := by
  obtain ⟨s, ss, rfl⟩ := List.exists_cons_of_ne_nil hne
  rw [decodeFrom, h]
  simp only [hrest]

/-- A high segment of whole triples in front of a low one (rules R153, R158). -/
theorem decodeFrom_high_cons {t : Table} {seg : List Byte} {off : Nat} {rest : List (List Byte)} {out : List Byte}
    (h : firstBadSymbol t seg = none) (hmod : seg.length % 3 = 0) (hne : rest ≠ [])
    (hrest : decodeFrom t .low (off + seg.length + 1) rest = .ok out) :
    decodeFrom t .high off (seg :: rest) = .ok (highSegmentBytes t seg ++ out) := by
  obtain ⟨s, ss, rfl⟩ := List.exists_cons_of_ne_nil hne
  rw [decodeFrom, h]
  simp [hrest, hmod]

/-- Every symbol has an entry in the decode table. -/
theorem value_symbol_ne_invalid {t : Table} (ht : TableOk t) (v : Byte) : t.value (t.symbol v) ≠ invalidEntry := by
  have hlt : v.toNat % 64 < 64 := Nat.mod_lt _ (by decide)
  rw [symbol_eq_symbolOf_mod ht, ht.inverse _ hlt, invalidEntry]
  bv_omega

/-- The symbol check passes on symbols (rule R152). -/
theorem AllSymbols.firstBadSymbol {t : Table} {seg : List Byte} (h : AllSymbols t seg) (ht : TableOk t) :
    firstBadSymbol t seg = none := by
  refine List.findIdx?_eq_none_iff.2 fun b hb => ?_
  obtain ⟨v, rfl⟩ := h b hb
  exact beq_eq_false_iff_ne.2 (value_symbol_ne_invalid ht v)

/-- The run before a high run, and that run, are the first two segments of their encoding (rules R130, R153). -/
theorem segmentsOf_low_high {t : Table} (ht : TableOk t) (r h y : List Byte) :
    segmentsOf t (encodeRun t (.low, r) ++ (encodeRun t (.high, h) ++ y)) =
      encodeRun t (.low, r) :: (highRunValues h).map t.symbol :: segmentsOf t y := by
  have hhigh : encodeRun t (.high, h) ++ y = t.delim :: ((highRunValues h).map t.symbol ++ t.delim :: y) := by
    simp [encodeRun]
  rw [hhigh, segmentsOf_append_delim ((allSymbols_encodeRun_low t r).ne_delim ht),
    segmentsOf_append_delim ((allSymbols_map _).ne_delim ht)]

/-- A low run alone decodes to itself. -/
theorem decodeFrom_low_run {t : Table} (ht : TableOk t) {r : List Byte} (hr : ∀ b ∈ r, classOf b = .low)
    (off : Nat) : decodeFrom t .low off (segmentsOf t (encodeRun t (.low, r))) = .ok r := by
  have hsymbols := allSymbols_encodeRun_low t r
  rw [segmentsOf_of_noDelim (hsymbols.ne_delim ht), decodeFrom_low_last off (hsymbols.firstBadSymbol ht),
    lowSegmentBytes_encodeRun ht hr]

/-- A low run and a high run of whole sequences decode to themselves in front of a stream that decodes. -/
theorem decodeFrom_low_high {t : Table} (ht : TableOk t) {r : List Byte} (hr : ∀ b ∈ r, classOf b = .low)
    {qs : List (List Byte)} (hqs : ∀ q ∈ qs, isDomainSequence q = true) {y x : List Byte}
    (hy : ∀ off, decodeFrom t .low off (segmentsOf t y) = .ok x) (off : Nat) :
    decodeFrom t .low off (segmentsOf t (encodeRun t (.low, r) ++ (encodeRun t (.high, qs.flatten) ++ y))) =
      .ok (r ++ (qs.flatten ++ x)) := by
  have hlength := highRunValues_flatten_length (highRunValues_length_of_domain hqs)
  have htriples : ((highRunValues qs.flatten).map t.symbol).length % 3 = 0 := by
    rw [List.length_map, hlength, Nat.mul_mod_right]
  rw [segmentsOf_low_high ht, decodeFrom_low_cons ((allSymbols_encodeRun_low t r).firstBadSymbol ht)
    (List.cons_ne_nil _ _) (decodeFrom_high_cons ((allSymbols_map _).firstBadSymbol ht) htriples
      (segmentsOf_ne_nil t y) (hy _)), lowSegmentBytes_encodeRun ht hr, highSegmentBytes_symbols ht hqs]

/-- The encoded runs of an input of the domain decode to it, by induction over the runs. A low run ends with the
segment it is in, so that it is decoded with what comes after it: hence the second part. -/
theorem decodeFrom_runsOutput {t : Table} (ht : TableOk t) {x : List Byte} (hx : RoundTripDomain x) :
    (∀ off, decodeFrom t .low off (segmentsOf t (runsOutput t x)) = .ok x) ∧
    ((∀ b ∈ x.head?, classOf b ≠ .low) → ∀ (r : List Byte) (off : Nat), (∀ b ∈ r, classOf b = .low) →
      decodeFrom t .low off (segmentsOf t (encodeRun t (.low, r) ++ runsOutput t x)) = .ok (r ++ x)) := by
  induction x using runs_induction with
  | nil =>
    refine ⟨fun _ => rfl, fun _ r off hr => ?_⟩
    rw [runsOutput_nil, List.append_nil, List.append_nil, decodeFrom_low_run ht hr]
  | run c h y hne hh hy ih =>
    have hruns := runsOf_run hne hh hy
    obtain ⟨hafter, hjoined⟩ := ih fun q hq => hx q (hruns ▸ List.mem_cons_of_mem _ hq)
    rw [runsOutput_run t hne hh hy]
    cases c with
    | low =>
      refine ⟨fun off => hjoined hy h off hh, fun hhead => ?_⟩
      obtain ⟨b, h, rfl⟩ := List.exists_cons_of_ne_nil hne
      exact absurd (hh b List.mem_cons_self) (hhead b rfl)
    | high =>
      obtain ⟨qs, hqs, rfl⟩ := hx h (hruns ▸ List.mem_cons_self)
      exact ⟨decodeFrom_low_high ht (r := []) (by simp) hqs hafter,
        fun _ r off hr => decodeFrom_low_high ht hr hqs hafter off⟩

/-- Settles O54: an input of the domain holds no bad lead, and its encoded runs decode to it. -/
theorem roundTripOverTheDomain : Obligations.RoundTripOverTheDomain := fun t x ht hx =>
  ⟨runsOutput t x, encodeRuns_of_good t (not_isBadLead_of_domain hx), (decodeFrom_runsOutput ht hx).1 0⟩

end Sys2Proof.Proofs
end

section
/-! PROOFS. ENCODE, the streaming engine (rule R120), against the run form (rules R122, R132): what the loop has
emitted, joined to what the run form makes of the rest of the input, is the run form's output. -/

namespace Sys2Proof.Proofs

open Sys2Proof Sys2Proof.Machine Sys2Proof.Laws

/-! ### The run form, cut where the engine's loop stands -/

/-- A low part in front, which may be empty, is encoded in front where the low run ends with it. -/
theorem runsOutput_low (t : Table) {r y : List Byte} (hr : ∀ b ∈ r, classOf b = .low)
    (hy : ∀ b ∈ y.head?, classOf b ≠ .low) :
    runsOutput t (r ++ y) = encodeRun t (.low, r) ++ runsOutput t y := by
  obtain rfl | hne := eq_or_ne r []
  · rfl
  · exact runsOutput_run t hne hr hy

/-- A full low group in front is packed in front, for the groups of a run are counted from its start
(rule R125). -/
theorem runsOutput_full_group (t : Table) {g : List Byte} (hg : g.length = 6) (hlow : ∀ b ∈ g, classOf b = .low)
    (x : List Byte) : runsOutput t (g ++ x) = encodeRun t (.low, g) ++ runsOutput t x := by
  obtain ⟨r, y, rfl, hr, hy⟩ := exists_class_split .low x
  have hgroup : encodeRun t (.low, g ++ r) = encodeRun t (.low, g) ++ encodeRun t (.low, r) := by
    have hfirst := lowRunValues_append hg []
    rw [List.append_nil, lowRunValues_nil, List.append_nil] at hfirst
    rw [encodeRun, encodeRun, encodeRun, lowRunValues_append hg, hfirst, List.map_append]
  rw [← List.append_assoc, runsOutput_low t (List.forall_mem_append.2 ⟨hlow, hr⟩) hy, hgroup, List.append_assoc,
    runsOutput_low t hr hy]

/-- What is left to emit on input `x` inside a high run: the symbols of the run's bytes, its closing delimiter,
and the encodings of the runs after it (rule R130). -/
def highOutput (t : Table) : List Byte → List Byte
  | [] => [t.delim]
  | b :: x =>
    match classOf b with
    | .low => t.delim :: runsOutput t (b :: x)
    | .high => ((highValues b).getD []).map t.symbol ++ highOutput t x

/-- A low byte ends the high run (rule R123). -/
theorem highOutput_low (t : Table) {b : Byte} (h : classOf b = .low) (x : List Byte) :
    highOutput t (b :: x) = t.delim :: runsOutput t (b :: x) := by rw [highOutput, h]

/-- A high byte gives its symbols (rule R131). -/
theorem highOutput_high (t : Table) {b : Byte} {vs : List Byte} (h : classOf b = .high)
    (hvs : highValues b = some vs) (x : List Byte) :
    highOutput t (b :: x) = vs.map t.symbol ++ highOutput t x := by rw [highOutput, h, hvs, Option.getD_some]

/-- The rest of a high run, its delimiter, and the runs after it. -/
theorem highOutput_run (t : Table) {r y : List Byte} (hr : ∀ b ∈ r, classOf b = .high)
    (hy : ∀ b ∈ y.head?, classOf b ≠ .high) :
    highOutput t (r ++ y) = (highRunValues r).map t.symbol ++ t.delim :: runsOutput t y := by
  induction r with
  | nil =>
    cases y with
    | nil => rfl
    | cons b y =>
      have hlow : classOf b = .low := by
        cases h : classOf b with
        | low => rfl
        | high => exact absurd h (hy b rfl)
      exact highOutput_low t hlow y
  | cons b r ih =>
    obtain ⟨hb, hr⟩ := List.forall_mem_cons.1 hr
    rw [List.cons_append, highOutput, hb, highRunValues_cons, List.map_append, List.append_assoc, ← ih hr]

/-- A high byte opens a high run with a delimiter (rule R130). -/
theorem runsOutput_high (t : Table) {b : Byte} (h : classOf b = .high) (x : List Byte) :
    runsOutput t (b :: x) = t.delim :: highOutput t (b :: x) := by
  obtain ⟨r, y, rfl, hr, hy⟩ := exists_class_split .high x
  have hrun : ∀ c ∈ b :: r, classOf c = .high := List.forall_mem_cons.2 ⟨h, hr⟩
  rw [← List.cons_append, runsOutput_run t (List.cons_ne_nil _ _) hrun hy, highOutput_run t hrun hy, encodeRun]
  simp

/-- What is left to emit with mode `m` and pending group `g` on input `x`: in LOW mode the group is the start of
the input's first run. -/
def remainingOutput (t : Table) (m : Mode) (g x : List Byte) : List Byte :=
  match m with
  | .low => runsOutput t (g ++ x)
  | .high => highOutput t x

/-! ### The pending group -/

/-- The working state holds the pending group `g` of low bytes (rules R34, R125). -/
structure Holds (w : Work) (g : List Byte) : Prop where
  low : ∀ b ∈ g, classOf b = .low
  short : g.length < 6
  cnt : w.cnt.toNat = g.length
  acc : w.acc.toNat = joinBits 7 (g.map BitVec.toNat)
  high : w.mode = .high → g = []

/-- At the start of a job the group is empty (rule R34). -/
theorem holds_initial : Holds Work.initial [] := by
  constructor <;> simp [Work.initial, joinBits]

/-- The cursors play no part in the pending group. -/
theorem Holds.withCursors {w : Work} {g : List Byte} (h : Holds w g) (i o : Word) :
    Holds { w with i := i, o := o } g :=
  ⟨h.low, h.short, h.cnt, h.acc, h.high⟩

/-- An emptied group, in either mode. -/
theorem holds_nil (i o : Word) (m : Mode) (n : Word) : Holds ⟨i, o, m, 0, 0, n⟩ [] := by
  constructor <;> simp [joinBits]

/-- Bytes below 128 join to a number of 7 bits for each. -/
theorem joinBits_low_lt {g : List Byte} (h : ∀ b ∈ g, classOf b = .low) :
    joinBits 7 (g.map BitVec.toNat) < 2 ^ (7 * g.length) := by
  have hdigits : ∀ d ∈ g.map BitVec.toNat, d < 2 ^ 7 := by simpa [classOf_eq_low_iff, BitVec.lt_def] using h
  simpa using joinBits_lt hdigits

/-- The engine's pack_low on an accumulator of 42 bits is that of the run form (rule R127). -/
theorem packLow_eq (t : Table) {acc : BitVec 42} {g : List Byte} (hlen : g.length ≤ 6)
    (hlow : ∀ b ∈ g, classOf b = .low) (hacc : acc.toNat = joinBits 7 (g.map BitVec.toNat)) :
    packLow t acc g.length = (packGroup g).map fun v => t.symbol (BitVec.ofNat 8 v) := by
  have hfits : joinBits 7 (g.map BitVec.toNat) <<< (6 - g.length) < 2 ^ 42 := by
    rw [Nat.shiftLeft_eq]
    calc _ < 2 ^ (7 * g.length) * 2 ^ (6 - g.length) :=
          Nat.mul_lt_mul_of_pos_right (joinBits_low_lt hlow) (Nat.two_pow_pos _)
      _ ≤ 2 ^ 42 := by rw [← pow_add]; exact Nat.pow_le_pow_right (by decide) (by omega)
  rw [packLow, packGroup, List.map_map]
  refine List.map_congr_left fun j _ => congrArg t.symbol (BitVec.eq_of_toNat_eq ?_)
  rw [BitVec.toNat_setWidth, BitVec.toNat_and, BitVec.toNat_ushiftRight, BitVec.toNat_shiftLeft, hacc,
    Nat.mod_eq_of_lt hfits]
  exact congrArg (· % 2 ^ 8) (Nat.and_two_pow_sub_one_eq_mod _ 6)

/-- A group that is not empty encodes as its packing. -/
theorem encodeRun_of_group (t : Table) {g : List Byte} (hne : g ≠ []) (hlen : g.length ≤ 6) :
    encodeRun t (.low, g) = (packGroup g).map fun v => t.symbol (BitVec.ofNat 8 v) := by
  rw [encodeRun, lowRunValues_of_length_le hne hlen]

/-- flush_low of a pending group emits the group's encoding and empties the group. -/
theorem Holds.flushPending {w : Work} {g : List Byte} (h : Holds w g) (t : Table) :
    flushPending t w = ({ w with acc := 0, cnt := 0 }, encodeRun t (.low, g)) := by
  obtain rfl | hne := eq_or_ne g []
  · have hcnt : w.cnt = 0 := BitVec.eq_of_toNat_eq h.cnt
    have hacc : w.acc = 0 := BitVec.eq_of_toNat_eq h.acc
    rw [Machine.flushPending, if_neg (by simp [hcnt]), ← hcnt, ← hacc]
    rfl
  · have hpos := List.length_pos_iff.2 hne
    rw [Machine.flushPending, if_pos (by rw [h.cnt]; exact hpos), flushLow, h.cnt,
      packLow_eq t h.short.le h.low h.acc, encodeRun_of_group t hne h.short.le]

/-- A low byte pushed on the accumulator is the next 7-bit digit. -/
theorem acc_push {acc : BitVec 42} {b : Byte} (hacc : acc.toNat < 2 ^ 35) (hb : b < 128) :
    ((acc <<< 7) ||| b.setWidth 42).toNat = acc.toNat * 2 ^ 7 + b.toNat := by
  have hb : b.toNat < 2 ^ 7 := hb
  rw [BitVec.toNat_or, BitVec.toNat_shiftLeft, BitVec.toNat_setWidth, Nat.shiftLeft_eq,
    Nat.mod_eq_of_lt (by omega), Nat.mod_eq_of_lt (by omega), Nat.mul_comm, Nat.two_pow_add_eq_or_of_lt hb]

/-- What the loop pushes for a low byte is the group with the byte at its end. -/
theorem Holds.push_acc {w : Work} {g : List Byte} (h : Holds w g) {b : Byte} (hb : classOf b = .low) :
    ((w.acc <<< 7) ||| b.setWidth 42).toNat = joinBits 7 ((g ++ [b]).map BitVec.toNat) := by
  have hlt : w.acc.toNat < 2 ^ 35 := h.acc ▸ (joinBits_low_lt h.low).trans_le
    (Nat.pow_le_pow_right (by decide) (by have := h.short; omega))
  rw [acc_push hlt ((classOf_eq_low_iff b).1 hb), h.acc, List.map_append, List.map_singleton, joinBits_concat]

/-- The count of the pushed group does not overflow its three bits. -/
theorem Holds.push_cnt {w : Work} {g : List Byte} (h : Holds w g) (b : Byte) :
    (w.cnt + 1).toNat = (g ++ [b]).length := by
  have hshort := h.short
  rw [BitVec.toNat_add, h.cnt, List.length_append]
  exact Nat.mod_eq_of_lt (show g.length + 1 < 2 ^ 3 by omega)

/-! ### One turn of the loop -/

/-- A turn from `w` to `w'` that emits `out`: a group is pending again, the output cursor is the caller's, and what
was left is what is emitted and what is left after it. -/
structure Turn (t : Table) (w : Work) (g : List Byte) (b : Byte) (w' : Work) (g' out : List Byte) : Prop where
  holds : Holds w' g'
  cursor : w'.o = w.o
  output : ∀ x, remainingOutput t w.mode g (b :: x) = out ++ remainingOutput t w'.mode g' x

/-- What closes an open high run before a low byte (rule R130). -/
def closing (t : Table) (w : Work) : List Byte := if w.mode = .high then [t.delim] else []

/-- A low byte that completes the group: the sixth is flushed (rule R125). -/
theorem encodeLowByte_of_full {t : Table} {w : Work} (h : w.cnt + 1 = 6) (b : Byte) :
    encodeLowByte t w b = ({ w with mode := .low, acc := 0, cnt := 0 },
      closing t w ++ packLow t ((w.acc <<< 7) ||| b.setWidth 42) (w.cnt + 1).toNat) := if_pos h

/-- A low byte that leaves the group pending. -/
theorem encodeLowByte_of_short {t : Table} {w : Work} (h : w.cnt + 1 ≠ 6) (b : Byte) :
    encodeLowByte t w b =
      ({ w with mode := .low, acc := (w.acc <<< 7) ||| b.setWidth 42, cnt := w.cnt + 1 }, closing t w) := if_neg h

/-- Before a low byte an open high run is closed; then the byte joins the pending group. -/
theorem remainingOutput_low {t : Table} {w : Work} {g : List Byte} (h : Holds w g) {b : Byte}
    (hb : classOf b = .low) (x : List Byte) :
    remainingOutput t w.mode g (b :: x) = closing t w ++ runsOutput t ((g ++ [b]) ++ x) := by
  cases hm : w.mode with
  | low => simp [remainingOutput, closing, hm]
  | high => simp [remainingOutput, closing, hm, h.high hm, highOutput_low t hb]

/-- A turn on a low byte (rule R120). -/
theorem turn_low {t : Table} {w : Work} {g : List Byte} (h : Holds w g) {b : Byte} (hb : classOf b = .low) :
    ∃ g', Turn t w g b (encodeLowByte t w b).1 g' (encodeLowByte t w b).2 := by
  have hlow : ∀ c ∈ g ++ [b], classOf c = .low := by simpa [or_imp, forall_and] using ⟨h.low, hb⟩
  have hcnt := h.push_cnt b
  have hacc := h.push_acc hb
  by_cases hfull : w.cnt + 1 = 6
  · have hsix : (g ++ [b]).length = 6 := by rw [← hcnt, hfull]; rfl
    rw [encodeLowByte_of_full hfull]
    refine ⟨[], holds_nil .., rfl, fun x => ?_⟩
    rw [remainingOutput_low h hb, runsOutput_full_group t hsix hlow, encodeRun_of_group t (by simp) hsix.le,
      ← packLow_eq t hsix.le hlow hacc, ← hcnt, ← List.append_assoc]
    rfl
  · have hne : (g ++ [b]).length ≠ 6 := fun e => hfull (BitVec.eq_of_toNat_eq (hcnt.trans e))
    have hshort : (g ++ [b]).length < 6 := by
      have := h.short
      rw [List.length_append, List.length_singleton] at hne ⊢
      omega
    rw [encodeLowByte_of_short hfull]
    exact ⟨g ++ [b], ⟨hlow, hshort, hcnt, hacc, by simp⟩, rfl, remainingOutput_low h hb⟩

/-- Before a high byte the pending group is flushed and a high run is opened, where none is open. -/
theorem remainingOutput_high {t : Table} {w : Work} {g : List Byte} (h : Holds w g) {b : Byte}
    (hb : classOf b = .high) (x : List Byte) :
    remainingOutput t w.mode g (b :: x) = (openHighRun t w).2 ++ highOutput t (b :: x) := by
  cases hm : w.mode with
  | low =>
    have hhead : ∀ c ∈ (b :: x).head?, classOf c ≠ .low := by simp [hb]
    rw [remainingOutput, runsOutput_low t h.low hhead, runsOutput_high t hb, openHighRun, hm, h.flushPending]
    simp
  | high => rw [remainingOutput, openHighRun, hm, List.nil_append]

/-- Opening a high run, or staying in one, leaves no group pending. -/
theorem Holds.openHighRun {w : Work} {g : List Byte} (h : Holds w g) (t : Table) :
    (openHighRun t w).1.mode = .high ∧ (openHighRun t w).1.o = w.o ∧ Holds (openHighRun t w).1 [] := by
  cases hm : w.mode with
  | low => rw [Machine.openHighRun, hm, h.flushPending]; exact ⟨rfl, rfl, holds_nil ..⟩
  | high => rw [Machine.openHighRun, hm]; exact ⟨hm, rfl, h.high hm ▸ h⟩

/-- A turn that raises nothing (rules R120, R123). -/
theorem turn_of_encodeByte {t : Table} {w : Work} {g : List Byte} (h : Holds w g) {b : Byte}
    {r : Work × List Byte} (hr : encodeByte t w b = some r) : ∃ g', Turn t w g b r.1 g' r.2 := by
  obtain ⟨hb, e⟩ | ⟨-, -, e⟩ | ⟨vs, hb, hvs, e⟩ := encodeByte_cases t w b <;> cases e.symm.trans hr
  · exact turn_low h hb
  · obtain ⟨hmode, hcursor, hholds⟩ := h.openHighRun t
    refine ⟨[], hholds, hcursor, fun x => ?_⟩
    rw [remainingOutput_high h hb, highOutput_high t hb hvs, hmode, List.append_assoc]
    rfl

/-- The end of the input emits what is left (rules R120, R123). -/
theorem encodeEnd_output {t : Table} {w : Work} {g : List Byte} (h : Holds w g) :
    (encodeEnd t w).2 = remainingOutput t w.mode g [] := by
  cases hm : w.mode with
  | low =>
    rw [encodeEnd, hm, h.flushPending, remainingOutput, runsOutput_low t h.low (by simp), runsOutput_nil,
      List.append_nil]
  | high => rw [encodeEnd, hm, remainingOutput, highOutput]

/-- The output cursor is advanced by Emit alone. -/
theorem encodeEnd_cursor {t : Table} {w : Work} {g : List Byte} (h : Holds w g) : (encodeEnd t w).1.o = w.o := by
  cases hm : w.mode with
  | low => rw [encodeEnd, hm, h.flushPending]
  | high => rw [encodeEnd, hm]

/-- The emitter raises BAD_LEAD on the bytes 0xF1 to 0xFF (rules R131, R132). -/
theorem highValues_eq_none_iff : ∀ b : Byte, highValues b = none ↔ isBadLead b = true := by decide

/-- A turn raises BAD_LEAD on a bad lead alone (rule R132). -/
theorem encodeByte_eq_none_iff (t : Table) (w : Work) (b : Byte) :
    encodeByte t w b = none ↔ isBadLead b = true := by
  obtain ⟨hb, e⟩ | ⟨-, hnone, e⟩ | ⟨vs, -, hvs, e⟩ := encodeByte_cases t w b
  · simp [e, isBadLead_of_low hb]
  · simp [e, ← highValues_eq_none_iff, hnone]
  · simp [e, ← highValues_eq_none_iff, hvs]

end Sys2Proof.Proofs
end

section
/-! PROOFS. ENCODE on the machine (rules R120, R132, R186): the engine's cycles from the accept on, and the state
in which each of the command's three outcomes leaves an idle engine. -/

namespace Sys2Proof.Proofs

open Sys2Proof Sys2Proof.Machine Sys2Proof.Laws

/-! ### A job with a working state, from its accept to its completion -/

/-- The state while the job `j` of opcode `op`, accepted in `s`, is in progress: `m` is what OUT holds so far, and
`d` the MODEL's draw counter. -/
def jobState (s : State) (op : Byte) (j : Job) (m : Memory) (d : Nat) : State :=
  { s with
    phase := .busy j
    done := false
    code := 0
    cause := 0
    lastOp := op
    outMem := m
    draws := d }

/-- The state that the completion of an ENCODE or DECODE, accepted in `s`, leaves (rule R190). -/
def endState (s : State) (op : Byte) (r : JobOutcome) (offset len : Word) (m : Memory) (d : Nat) : State :=
  { s with
    done := true
    code := r.code
    cause := r.cause
    lastOp := op
    outLen := len
    errOffset := offset
    outMem := m
    outSpecified := decide (r = .ok)
    outEpoch := d
    draws := d }

/-- The accept is the job's first state (rule R181). -/
theorem accept_eq_jobState (j : Job) (w : Word) (s : State) :
    accept j w s = jobState s (lowByte w) j s.outMem (s.draws + 1) := rfl

/-- A cycle does the job's work and advances the draw counter. -/
theorem jobCycle_jobState (s : State) (op : Byte) (j : Job) (m : Memory) (d : Nat) :
    jobCycle (jobState s op j m d) = jobWork j (jobState s op j m (d + 1)) := rfl

/-- Emit in the course of a job moves its output cursor and writes OUT. -/
theorem emitJob_jobState (mk : Work → Job) (w : Work) (out : List Byte) (s : State) (op : Byte) (j : Job)
    (m : Memory) (d : Nat) :
    emitJob mk w out (jobState s op j m d) =
      jobState s op (mk { w with o := (emitBytes s.params.outCap m w.o out).2 })
        (emitBytes s.params.outCap m w.o out).1 d := rfl

/-- The completion of a job accepted in an idle engine (rule R190). -/
theorem complete_jobState {s : State} (hidle : s.phase = .idle) {op : Byte} {j : Job} {m : Memory} {d : Nat}
    {w : Work} (hw : (jobState s op j m d).work = some w) (r : JobOutcome) (x : Word) :
    complete r x (jobState s op j m d) =
      endState s op r x (if r = .ok then w.o else 0) (outAfter r w.o.toNat m) d := by
  rw [complete, hw]
  simp only [jobState, endState, ← hidle]

theorem jobState_work_encode (s : State) (op : Byte) (w : Work) (m : Memory) (d : Nat) :
    (jobState s op (.encode w) m d).work = some w := rfl

/-- Cycles in a row. -/
theorem runJob_add (n k : Nat) (s : State) : runJob (n + k) s = runJob k (runJob n s) := by
  induction n generalizing s with
  | zero => rw [Nat.zero_add, runJob_zero]
  | succ n ih => rw [Nat.succ_add, runJob_succ, runJob_succ, ih]

/-- A job whose cycle number k + 1 ends it is run by so many. -/
theorem runJob_of_ended {n k : Nat} {s : State} (hk : k < n) (hended : (jobCycle (runJob k s)).phase = .idle) :
    runJob n s = jobCycle (runJob k s) := by
  obtain ⟨i, rfl⟩ := Nat.exists_eq_add_of_lt hk
  rw [Nat.add_assoc, runJob_add, runJob_of_cycle_idle _ hended]

/-! ### The input and the output -/

@[simp] theorem input_length (s : State) : s.input.length = s.inLen.toNat := by simp [State.input]

/-- Byte k of the input is IN[k] (rule R54). -/
theorem getElem_input (s : State) {k : Nat} (hk : k < s.input.length) : s.input[k] = s.inByte k := by
  simp [State.input]

/-- The bytes consumed after one more turn. -/
theorem take_input_succ (s : State) {k : Nat} (hk : k < s.inLen.toNat) :
    s.input.take (k + 1) = s.input.take k ++ [s.inByte k] := by
  have hlt : k < s.input.length := by simpa using hk
  rw [List.take_succ_eq_append_getElem hlt, getElem_input]

/-- OUT holds the bytes `y` in front of the output cursor `o`. -/
structure Written (m : Memory) (o : Word) (y : List Byte) : Prop where
  cursor : o.toNat = y.length
  bytes : ∀ k, k < y.length → m.read k = y[k]?

theorem written_nil (m : Memory) : Written m 0 [] := ⟨rfl, by simp⟩

/-- Emit writes its bytes behind those already written, where they fit OUT. -/
theorem Written.emit {cap : Nat} {m : Memory} {o : Word} {y : List Byte} (h : Written m o y) {out : List Byte}
    (hfit : (y ++ out).length ≤ cap) (hcap : cap < 2 ^ 32) :
    Written (emitBytes cap m o out).1 (emitBytes cap m o out).2 (y ++ out) := by
  rw [List.length_append] at hfit
  have hcursor := h.cursor
  refine ⟨?_, fun k hk => ?_⟩
  · rw [emitBytes_cursor, BitVec.toNat_add, BitVec.toNat_ofNat, List.length_append]
    omega
  · rw [List.length_append] at hk
    rw [read_emitBytes m o out k (by omega) hcap, hcursor, List.getElem?_append]
    by_cases hlt : k < y.length
    · rw [if_neg (by omega), if_pos hlt, h.bytes k hlt]
    · rw [if_pos (by omega), if_neg hlt]

/-- What a success keeps of OUT is the bytes written, and nothing beyond them (rule R32). -/
theorem Written.read_keepBelow {m : Memory} {o : Word} {y : List Byte} (h : Written m o y) (k : Nat) :
    (m.keepBelow o.toNat).read k = y[k]? := by
  rw [Laws.read_keepBelow, h.cursor]
  split_ifs with hk
  · exact h.bytes k hk
  · exact (List.getElem?_eq_none (Nat.le_of_not_lt hk)).symm

/-! ### The loop of ENCODE -/

/-- After k bytes of the input: the cursors, the pending group, and the output `y` so far, which what is left
completes to the run form's output, whatever the bytes to come. -/
structure EncodedTo (s : State) (k : Nat) (w : Work) (m : Memory) (g y : List Byte) : Prop where
  cursor : w.i.toNat = k
  holds : Holds w g
  written : Written m w.o y
  output : ∀ x, runsOutput s.table (s.input.take k ++ x) = y ++ remainingOutput s.table w.mode g x

/-- Before the first byte nothing is emitted and all is left. -/
theorem encodedTo_initial (s : State) (m : Memory) : EncodedTo s 0 Work.initial m [] [] :=
  ⟨rfl, holds_initial, written_nil m, fun _ => rfl⟩

/-- An output so far that what is left completes fits OUT with what would end it here (rules R3, R136). -/
theorem length_le_outCap {s : State} {k : Nat} {y : List Byte} {rest : List Byte → List Byte}
    (hk : k ≤ s.params.cap) (h : ∀ x, runsOutput s.table (s.input.take k ++ x) = y ++ rest x) :
    (y ++ rest []).length ≤ s.params.outCap := by
  have hbound := runsOutput_length_le s.table (s.input.take k ++ [])
  have htake := List.length_take_le k s.input
  rw [h, List.append_nil] at hbound
  rw [outCap_eq]
  omega

/-- A turn takes the loop one byte on. -/
theorem EncodedTo.turn {s : State} {k : Nat} {w : Work} {m : Memory} {g y : List Byte} (h : EncodedTo s k w m g y)
    (hlen : s.lenOk) (hk : k < s.inLen.toNat) {r : Work × List Byte}
    (hr : encodeByte s.table w (s.inByte k) = some r) :
    ∃ g', EncodedTo s (k + 1)
      { r.1 with i := w.i + 1, o := (emitBytes s.params.outCap m r.1.o r.2).2 }
      (emitBytes s.params.outCap m r.1.o r.2).1 g' (y ++ r.2) := by
  obtain ⟨g', hturn⟩ := turn_of_encodeByte h.holds hr
  have houtput : ∀ x, runsOutput s.table (s.input.take (k + 1) ++ x) =
      (y ++ r.2) ++ remainingOutput s.table r.1.mode g' x := fun x => by
    rw [take_input_succ s hk, List.append_assoc, List.singleton_append, h.output, hturn.output, List.append_assoc]
  have hcursor : (w.i + 1).toNat = k + 1 := by
    have := h.cursor
    have := s.inLen.isLt
    bv_omega
  have hcap : s.inLen.toNat ≤ s.params.cap := hlen
  have hfit := length_le_outCap (by omega) houtput
  rw [List.length_append] at hfit
  exact ⟨g', hcursor, hturn.holds.withCursors _ _,
    hturn.cursor ▸ h.written.emit ((Nat.le_add_right _ _).trans hfit) (outCap_lt _), houtput⟩

/-- The first k cycles of ENCODE, where the first k bytes hold no bad lead. -/
theorem runJob_encode_turns {s : State} (hlen : s.lenOk) (word : Word) {k : Nat} (hk : k ≤ s.inLen.toNat)
    (hgood : ∀ j < k, isBadLead (s.inByte j) = false) :
    ∃ w m g y, runJob k (accept (.encode Work.initial) word s) =
        jobState s (lowByte word) (.encode w) m (s.draws + 1 + k) ∧ EncodedTo s k w m g y := by
  induction k with
  | zero => exact ⟨_, _, _, _, accept_eq_jobState _ _ _, encodedTo_initial s _⟩
  | succ k ih =>
    obtain ⟨w, m, g, y, hrun, h⟩ := ih (by omega) fun j hj => hgood j (by omega)
    have hcursor := h.cursor
    have hcap : s.inLen.toNat ≤ s.params.cap := hlen
    rw [runJob_add, hrun, runJob_succ, runJob_zero, jobCycle_jobState, jobWork_encode]
    obtain ⟨hover, -⟩ | ⟨-, -, hbad, -⟩ | ⟨r, -, -, hr, e⟩ | ⟨-, hend, -⟩ :=
      encodeCycle_cases w (jobState s (lowByte word) (.encode w) m (s.draws + 1 + k + 1))
    · exact absurd hover (Nat.not_lt.2 hcap)
    · have hlead := (encodeByte_eq_none_iff _ _ _).1 hbad
      rw [hcursor] at hlead
      exact absurd (hgood k (by omega)) (ne_true_of_eq_false · hlead)
    · rw [hcursor] at hr
      obtain ⟨g', hnext⟩ := h.turn hlen hk hr
      exact ⟨_, _, g', _, e.trans (emitJob_jobState ..), hnext⟩
    · exact absurd (hcursor ▸ hend) (Nat.not_le.2 hk)

/-! ### The command -/

/-- ENCODE in an idle engine is its cycles up to one that ends the job. -/
theorem exec_encode_of_ended {s t : State} (h : s.busy = false) {k : Nat} (hk : k ≤ s.inLen.toNat)
    (ht : jobCycle (runJob k (accept (.encode Work.initial) (encodeInstr .encode) s)) = t) (hidle : t.phase = .idle) :
    exec .encode s = .next t := by
  refine congrArg Host.Outcome.next ?_
  subst ht
  rw [runCommand_idle _ _ h, State.jobFuel, runJob_of_ended (by omega) hidle]

theorem lowByte_encodeInstr_encode : lowByte (encodeInstr .encode) = 0x03 := by decide

/-- ENCODE of more bytes than IN has (rule R186). -/
theorem exec_encode_badLen {s : State} (h : s.busy = false) (hover : s.params.cap < s.inLen.toNat) :
    exec .encode s = .next (endState s 0x03 .badLen 0 0 s.outMem (s.draws + 2)) := by
  have hidle := phase_idle_of_not_busy h
  refine exec_encode_of_ended h (Nat.zero_le _) ?_ hidle
  rw [runJob_zero, accept_eq_jobState, jobCycle_jobState, jobWork_encode, lowByte_encodeInstr_encode]
  obtain ⟨-, e⟩ | ⟨hle, -⟩ | ⟨_, hle, -⟩ | ⟨hle, -⟩ :=
    encodeCycle_cases Work.initial (jobState s 0x03 (.encode Work.initial) s.outMem (s.draws + 1 + 1))
  · rw [e, complete_jobState hidle (jobState_work_encode ..)]
    rfl
  all_goals exact absurd hover (Nat.not_lt.2 hle)

/-- ENCODE of an input whose first bad lead is at p (rules R132, R191). -/
theorem exec_encode_badLead {s : State} (h : s.busy = false) (hlen : s.lenOk) {p : Nat} (hp : p < s.inLen.toNat)
    (hbad : isBadLead (s.inByte p) = true) (hfirst : ∀ q < p, isBadLead (s.inByte q) = false) :
    exec .encode s = .next (endState s 0x03 (.corruptInput .badLead) (BitVec.ofNat 32 p) 0 Memory.empty
      (s.draws + p + 2)) := by
  have hidle := phase_idle_of_not_busy h
  have hcap : s.inLen.toNat ≤ s.params.cap := hlen
  obtain ⟨w, m, g, y, hrun, hloop⟩ := runJob_encode_turns hlen (encodeInstr .encode) hp.le hfirst
  have hcursor := hloop.cursor
  refine exec_encode_of_ended h hp.le ?_ hidle
  rw [hrun, jobCycle_jobState, jobWork_encode, lowByte_encodeInstr_encode]
  obtain ⟨hover, -⟩ | ⟨-, -, -, e⟩ | ⟨r, -, -, hr, -⟩ | ⟨-, hend, -⟩ :=
    encodeCycle_cases w (jobState s 0x03 (.encode w) m (s.draws + 1 + p + 1))
  · exact absurd hover (Nat.not_lt.2 hcap)
  · rw [e, complete_jobState hidle (jobState_work_encode ..), ← hcursor, BitVec.ofNat_toNat, BitVec.setWidth_eq]
    congr 1
    omega
  · have hnone := (encodeByte_eq_none_iff s.table w _).2 (hcursor ▸ hbad)
    cases hnone.symm.trans hr
  · exact absurd (hcursor ▸ hend) (Nat.not_le.2 hp)

/-- ENCODE of an input without a bad lead (rules R120, R122). -/
theorem exec_encode_ok {s : State} (h : s.busy = false) (hlen : s.lenOk)
    (hgood : ∀ q < s.inLen.toNat, isBadLead (s.inByte q) = false) :
    (runsOutput s.table s.input).length ≤ s.params.outCap ∧
    ∃ m, exec .encode s = .next (endState s 0x03 .ok 0 (BitVec.ofNat 32 (runsOutput s.table s.input).length) m
        (s.draws + s.inLen.toNat + 2)) ∧
      ∀ k, m.read k = (runsOutput s.table s.input)[k]? := by
  have hidle := phase_idle_of_not_busy h
  have hcap : s.inLen.toNat ≤ s.params.cap := hlen
  obtain ⟨w, m, g, y, hrun, hloop⟩ := runJob_encode_turns hlen (encodeInstr .encode) le_rfl hgood
  have hcursor := hloop.cursor
  have htotal : runsOutput s.table s.input = y ++ (encodeEnd s.table w).2 := by
    rw [encodeEnd_output hloop.holds, ← hloop.output, List.append_nil, List.take_of_length_le (by simp)]
  have hfit : (y ++ (encodeEnd s.table w).2).length ≤ s.params.outCap :=
    encodeEnd_output (t := s.table) hloop.holds ▸ length_le_outCap hcap hloop.output
  have hwritten := encodeEnd_cursor (t := s.table) hloop.holds ▸ hloop.written.emit hfit (outCap_lt _)
  rw [htotal]
  refine ⟨hfit, _, exec_encode_of_ended h le_rfl ?_ hidle, hwritten.read_keepBelow⟩
  rw [hrun, jobCycle_jobState, jobWork_encode, lowByte_encodeInstr_encode]
  obtain ⟨hover, -⟩ | ⟨-, hlt, -⟩ | ⟨_, -, hlt, -⟩ | ⟨-, -, e⟩ :=
    encodeCycle_cases w (jobState s 0x03 (.encode w) m (s.draws + 1 + s.inLen.toNat + 1))
  · exact absurd hover (Nat.not_lt.2 hcap)
  · exact absurd hlt (Nat.not_lt.2 hcursor.ge)
  · exact absurd hlt (Nat.not_lt.2 hcursor.ge)
  · rw [e, emitJob_jobState, complete_jobState hidle (jobState_work_encode ..), ← hwritten.cursor, BitVec.ofNat_toNat,
      BitVec.setWidth_eq]
    congr 1
    omega

/-- The bytes of the input are those of IN below IN_LEN. -/
theorem forall_mem_input {s : State} {P : Byte → Prop} :
    (∀ b ∈ s.input, P b) ↔ ∀ q < s.inLen.toNat, P (s.inByte q) := by
  simp [State.input]

/-- The first bad lead of the input, by offsets of IN. -/
theorem findIdx?_input {s : State} {p : Nat} (h : s.input.findIdx? isBadLead = some p) :
    p < s.inLen.toNat ∧ isBadLead (s.inByte p) = true ∧ ∀ q < p, isBadLead (s.inByte q) = false := by
  obtain ⟨hp, hbad, hfirst⟩ := List.findIdx?_eq_some_iff_getElem.1 h
  rw [getElem_input] at hbad
  refine ⟨input_length s ▸ hp, hbad, fun q hq => ?_⟩
  have hbefore := hfirst q hq
  rw [getElem_input] at hbefore
  exact eq_false_of_ne_true hbefore

/-- Settles O7: the run form finds a first bad lead or none, and in each case the loop ends as it says. -/
theorem encodeEndsAsTheRunFormSays : Obligations.EncodeEndsAsTheRunFormSays := by
  refine ⟨rfl, fun s h => ⟨fun hover => ⟨_, _, exec_encode_badLen h hover⟩, fun hlen y hy => ?_,
    fun hlen c p hp => ?_⟩⟩
  · obtain ⟨hgood, rfl⟩ := (encodeRuns_eq_ok_iff s.table s.input y).1 hy
    obtain ⟨hfit, m, hexec, hread⟩ := exec_encode_ok h hlen (forall_mem_input.1 hgood)
    exact ⟨hfit, _, m, hexec, hread⟩
  · obtain ⟨p', hfind, e⟩ | ⟨-, e⟩ := encodeRuns_cases s.table s.input <;> cases e.symm.trans hp
    obtain ⟨hlt, hbad, hfirst⟩ := findIdx?_input hfind
    exact ⟨_, exec_encode_badLead h hlen hlt hbad hfirst⟩

/-- Settles O8: the rejected bytes are those from 0xF1 on. -/
theorem encodeRejectsTheFirstBadLead : Obligations.EncodeRejectsTheFirstBadLead := by
  have good {b : Byte} (hb : b < 0xF1) : isBadLead b = false := decide_eq_false (BitVec.not_le.2 hb)
  refine fun s h hlen => ⟨fun p hp hbad hfirst => ?_, fun hgood => ?_⟩
  · exact ⟨_, exec_encode_badLead h hlen hp (decide_eq_true hbad) fun q hq => good (hfirst q hq)⟩
  · obtain ⟨-, m, hexec, -⟩ := exec_encode_ok h hlen fun q hq => good (hgood q hq)
    exact ⟨_, hexec, rfl⟩

end Sys2Proof.Proofs
end

section
/-! PROOFS. DECODE's segment form (rules R153, R160, R162): the overlong sequences (rule R163) and the bound on the
length of what is decoded (rule R166). -/

namespace Sys2Proof.Proofs

open Sys2Proof Sys2Proof.Machine Sys2Proof.Laws

/-! ### Overlong sequences -/

/-- The second byte of an overlong 3-byte sequence has five bits that count, and makes a 2-byte lead of them
(rule R163). -/
theorem overlong3_low_bits : ∀ c : Byte, 0x80 ≤ c → c ≤ 0x9F →
    c &&& 0x3F < 0x20 ∧ 0xC0 ||| (c &&& 0x3F) = 0xC0 ||| (c &&& 0x1F) := by decide

/-- The second byte of an overlong 4-byte sequence has four bits that count, and makes a 3-byte lead of them
(rule R163). -/
theorem overlong4_low_bits : ∀ c : Byte, 0x80 ≤ c → c ≤ 0x8F →
    (c &&& 0x3F = 0 ↔ c = 0x80) ∧ ¬ 0x10 ≤ c &&& 0x3F ∧ 0xE0 ||| (c &&& 0x3F) = 0xE0 ||| (c &&& 0x0F) := by decide

/-- The bound 0x20 of rule R162 on a symbol value is the bound 0x9F on the continuation byte that gives it. -/
theorem continuation_lt_iff : ∀ c : Byte, 0x80 ≤ c → c ≤ 0xBF → (c &&& 0x3F < 0x20 ↔ c ≤ 0x9F) := by decide

/-- A triple of the 2-byte range, from a continuation byte at its end (rule R162). -/
theorem tripleBytes_two {d0 d1 c : Byte} (h0 : d0 = 0) (h1 : d1 < 0x20) (hlo : 0x80 ≤ c) (hhi : c ≤ 0xBF) :
    tripleBytes d0 d1 (c &&& 0x3F) = [0xC0 ||| d1, c] := by
  rw [tripleBytes, if_pos ⟨h0, h1⟩, continuation_masked c hlo hhi]

/-- Settles O51: each family gives its triple, which is in the range of the shorter sequence. -/
theorem overlongSequencesComeBackShorter : Obligations.OverlongSequencesComeBackShorter := by
  refine ⟨fun c1 c2 h1 h1' h2 h2' => ?_, fun c1 c2 c3 h1 h1' h2 h2' h3 h3' => ?_⟩
  · obtain ⟨hfive, hlead⟩ := overlong3_low_bits c1 h1 h1'
    refine ⟨highRunValues_sequence3 (by decide) (by decide) (by bv_omega) h2', ?_⟩
    rw [tripleBytes_two rfl hfive h2 h2', hlead]
  · obtain ⟨hzero, hfour, hlead⟩ := overlong4_low_bits c1 h1 h1'
    refine ⟨highRunValues_sequence4 (by bv_omega) h2' h3', ?_⟩
    by_cases hshort : c1 = 0x80 ∧ c2 ≤ 0x9F
    · have hfive := (continuation_lt_iff c2 h2 h2').2 hshort.2
      rw [if_pos hshort, tripleBytes_two (hzero.2 hshort.1) hfive h3 h3', (overlong3_low_bits c2 h2 hshort.2).2]
    · have hrange : ¬ (c1 &&& 0x3F = 0 ∧ c2 &&& 0x3F < 0x20) := by rwa [hzero, continuation_lt_iff c2 h2 h2']
      rw [if_neg hshort, tripleBytes, if_neg hrange, if_neg hfour, hlead, continuation_masked c2 h2 h2',
        continuation_masked c3 h3 h3']

/-! ### The decoded length -/

/-- The pieces of a list joined are the list. -/
theorem flatten_pieces {α : Type} {n : Nat} (hn : 0 < n) (xs : List α) : (pieces n xs).flatten = xs := by
  induction xs using pieces_induction hn with
  | short g hg =>
    obtain rfl | hne := eq_or_ne g []
    · rfl
    · rw [pieces_of_length_le hn hne hg.le, List.flatten_singleton]
  | full g xs hg ih => rw [pieces_append hn hg, List.flatten_cons, ih]

/-- What gives at most four bytes for every three symbols of each piece gives no more for the pieces joined. -/
theorem length_flatMap_le {α : Type} {f : List α → List Byte} (hf : ∀ p, 3 * (f p).length ≤ 4 * p.length)
    (ps : List (List α)) : 3 * (ps.flatMap f).length ≤ 4 * ps.flatten.length := by
  induction ps with
  | nil => exact le_rfl
  | cons p ps ih =>
    have hp := hf p
    rw [List.flatMap_cons, List.flatten_cons, List.length_append, List.length_append]
    omega

@[simp] theorem unpackGroup_length (ds : List Nat) : (unpackGroup ds).length = ds.length - 1 := by
  simp [unpackGroup]

/-- Only a triple gives bytes, at most four (rule R162). -/
theorem tripleOrNone_length_le (p : List Byte) : 3 * (tripleOrNone p).length ≤ 4 * p.length := by
  unfold tripleOrNone
  split
  · rename_i d0 d1 d2
    have hfour := (tripleBytes_length d0 d1 d2).2
    simp only [List.length_cons, List.length_nil]
    omega
  · simp

/-- A low segment gives fewer bytes than it has symbols (rule R160). -/
theorem lowSegmentBytes_length_le (t : Table) (seg : List Byte) :
    3 * (lowSegmentBytes t seg).length ≤ 4 * seg.length := by
  have hgroups := length_flatMap_le (f := unpackGroup) (fun ds => by rw [unpackGroup_length]; omega)
    (pieces 7 (seg.map fun b => (t.value b).toNat))
  rwa [flatten_pieces (by decide), List.length_map] at hgroups

/-- A high segment gives at most four bytes for each of its triples (rule R162). -/
theorem highSegmentBytes_length_le (t : Table) (seg : List Byte) :
    3 * (highSegmentBytes t seg).length ≤ 4 * seg.length := by
  have htriples := length_flatMap_le tripleOrNone_length_le (pieces 3 (seg.map t.value))
  rwa [flatten_pieces (by decide), List.length_map] at htriples

/-- The segments of a stream have no more bytes than the stream (rule R153). -/
theorem segmentsOf_flatten_length_le (t : Table) (y : List Byte) : (segmentsOf t y).flatten.length ≤ y.length := by
  induction y with
  | nil => exact le_rfl
  | cons b y ih =>
    rw [segmentsOf]
    split_ifs
    · exact ih.trans (Nat.le_succ _)
    · cases hsegs : segmentsOf t y with
      | nil => simp
      | cons seg rest =>
        rw [hsegs] at ih
        exact Nat.succ_le_succ ih

/-! ### The segment form, one segment at a time -/

/-- A byte that is no symbol is the first error of a segment (rule R152). -/
theorem decodeFrom_bad {t : Table} {seg : List Byte} {p : Nat} (h : firstBadSymbol t seg = some p) (m : Mode)
    (off : Nat) (rest : List (List Byte)) : decodeFrom t m off (seg :: rest) = .error (.badSymbol, off + p) := by
  rw [decodeFrom.eq_def]
  simp only [h]

/-- A low segment of symbols gives its bytes, in front of those of what comes after it (rule R153). -/
theorem decodeFrom_low {t : Table} {seg : List Byte} (h : firstBadSymbol t seg = none) (off : Nat)
    (rest : List (List Byte)) : decodeFrom t .low off (seg :: rest) =
      (lowSegmentBytes t seg ++ ·) <$> decodeFrom t .high (off + seg.length + 1) rest := by
  cases rest with
  | nil => rw [decodeFrom_low_last off h]; exact congrArg _ (List.append_nil _).symm
  | cons s rest =>
    rw [decodeFrom, h]
    cases decodeFrom t .high (off + seg.length + 1) (s :: rest) <;> rfl

/-- A high segment that no delimiter ends is cut short (rule R159). -/
theorem decodeFrom_high_last {t : Table} {seg : List Byte} (h : firstBadSymbol t seg = none) (off : Nat) :
    decodeFrom t .high off [seg] = .error (.truncated, off + seg.length) := by
  rw [decodeFrom, h]

/-- A high segment that is no sequence of triples (rule R158). -/
theorem decodeFrom_high_partial {t : Table} {seg : List Byte} (h : firstBadSymbol t seg = none)
    (hmod : seg.length % 3 ≠ 0) (off : Nat) {rest : List (List Byte)} (hne : rest ≠ []) :
    decodeFrom t .high off (seg :: rest) = .error (.highRunMod3, off + seg.length) := by
  obtain ⟨s, rest, rfl⟩ := List.exists_cons_of_ne_nil hne
  rw [decodeFrom, h]
  exact if_pos hmod

/-- A high segment of triples gives its bytes, in front of those of what comes after it (rules R153, R158). -/
theorem decodeFrom_high {t : Table} {seg : List Byte} (h : firstBadSymbol t seg = none)
    (hmod : seg.length % 3 = 0) (off : Nat) {rest : List (List Byte)} (hne : rest ≠ []) :
    decodeFrom t .high off (seg :: rest) =
      (highSegmentBytes t seg ++ ·) <$> decodeFrom t .low (off + seg.length + 1) rest := by
  obtain ⟨s, rest, rfl⟩ := List.exists_cons_of_ne_nil hne
  rw [decodeFrom, h]
  refine (if_neg (not_not.2 hmod)).trans ?_
  cases decodeFrom t .low (off + seg.length + 1) (s :: rest) <;> rfl

/-- The bytes of a segment of kind `m` (rules R160, R162). -/
def segmentBytes (t : Table) : Mode → List Byte → List Byte
  | .low => lowSegmentBytes t
  | .high => highSegmentBytes t

/-- Where segments decode, the output is the bytes of the first and the output of the others. -/
theorem exists_of_decodeFrom_ok {t : Table} {m : Mode} {off : Nat} {seg x : List Byte} {rest : List (List Byte)}
    (h : decodeFrom t m off (seg :: rest) = .ok x) :
    ∃ m' off' out, decodeFrom t m' off' rest = .ok out ∧ x = segmentBytes t m seg ++ out := by
  have of_map {f : List Byte → List Byte} {e : Except (CorruptCause × Nat) (List Byte)} (h : f <$> e = .ok x) :
      ∃ out, e = .ok out ∧ x = f out := by
    cases e with
    | error _ => cases h
    | ok out => cases h; exact ⟨out, rfl, rfl⟩
  cases hbad : firstBadSymbol t seg with
  | some p => cases (decodeFrom_bad hbad m off rest).symm.trans h
  | none =>
    cases m with
    | low => exact ⟨_, _, of_map (decodeFrom_low hbad off rest ▸ h)⟩
    | high =>
      by_cases hne : rest = []
      · cases (hne ▸ decodeFrom_high_last hbad off).symm.trans h
      · by_cases hmod : seg.length % 3 = 0
        · exact ⟨_, _, of_map (decodeFrom_high hbad hmod off hne ▸ h)⟩
        · cases (decodeFrom_high_partial hbad hmod off hne).symm.trans h

/-! ### The bound -/

/-- A segment gives at most four bytes for every three symbols (rule R166). -/
theorem segmentBytes_length_le (t : Table) (m : Mode) (seg : List Byte) :
    3 * (segmentBytes t m seg).length ≤ 4 * seg.length := by
  cases m with
  | low => exact lowSegmentBytes_length_le t seg
  | high => exact highSegmentBytes_length_le t seg

/-- Segments that decode give at most four bytes for every three symbols (rule R166). -/
theorem decodeFrom_length_le {t : Table} {segs : List (List Byte)} {m : Mode} {off : Nat} {x : List Byte}
    (h : decodeFrom t m off segs = .ok x) : 3 * x.length ≤ 4 * segs.flatten.length := by
  induction segs generalizing m off x with
  | nil => cases h; exact le_rfl
  | cons seg rest ih =>
    obtain ⟨m', off', out, hout, rfl⟩ := exists_of_decodeFrom_ok h
    have hseg := segmentBytes_length_le t m seg
    have hrest := ih hout
    rw [List.length_append, List.flatten_cons, List.length_append]
    omega

/-- Settles O52: the bound over the segments, which have no more bytes than the stream. -/
theorem decodedLengthBound : Obligations.DecodedLengthBound := by
  intro t y x h
  have hsegs := decodeFrom_length_le h
  have hstream := segmentsOf_flatten_length_le t y
  omega

end Sys2Proof.Proofs
end

section
/-! PROOFS. DECODE, the streaming engine (rule R150), against the segment form (rule R153): what the loop has
emitted, joined to what the segment form makes of the rest of the input, is the segment form's answer. -/

namespace Sys2Proof.Proofs

open Sys2Proof Sys2Proof.Machine Sys2Proof.Laws

/-! ### Segments that begin with symbols -/

/-- The bytes are symbols of the table, as the loop reads them (rules R151, R152). -/
def ReadAsSymbols (t : Table) (g : List Byte) : Prop := ∀ b ∈ g, b ≠ t.delim ∧ t.value b ≠ invalidEntry

theorem readAsSymbols_nil (t : Table) : ReadAsSymbols t [] := by simp [ReadAsSymbols]

theorem ReadAsSymbols.concat {t : Table} {g : List Byte} (h : ReadAsSymbols t g) {b : Byte} (hb : b ≠ t.delim)
    (hv : t.value b ≠ invalidEntry) : ReadAsSymbols t (g ++ [b]) :=
  List.forall_mem_append.2 ⟨h, List.forall_mem_singleton.2 ⟨hb, hv⟩⟩

theorem ReadAsSymbols.ne_delim {t : Table} {g : List Byte} (h : ReadAsSymbols t g) : ∀ b ∈ g, b ≠ t.delim :=
  fun b hb => (h b hb).1

/-- The symbol check passes (rule R152). -/
theorem ReadAsSymbols.firstBadSymbol_eq_none {t : Table} {g : List Byte} (h : ReadAsSymbols t g) :
    firstBadSymbol t g = none :=
  List.findIdx?_eq_none_iff.2 fun b hb => beq_eq_false_iff_ne.2 (h b hb).2

/-- The first bad symbol of a segment is counted past the symbols in front of it. -/
theorem ReadAsSymbols.firstBadSymbol_append {t : Table} {g : List Byte} (h : ReadAsSymbols t g) (seg : List Byte) :
    firstBadSymbol t (g ++ seg) = (firstBadSymbol t seg).map (g.length + ·) := by
  have hg := h.firstBadSymbol_eq_none
  rw [firstBadSymbol] at hg ⊢
  rw [List.findIdx?_append, hg, Option.none_or, firstBadSymbol]
  simp only [Nat.add_comm]

/-- Symbols in front belong to the first segment (rule R153). -/
theorem ReadAsSymbols.segmentsOf_append {t : Table} {g x seg : List Byte} {rest : List (List Byte)}
    (h : ReadAsSymbols t g) (hx : segmentsOf t x = seg :: rest) :
    segmentsOf t (g ++ x) = (g ++ seg) :: rest := by
  induction g with
  | nil => exact hx
  | cons b g ih =>
    obtain ⟨hb, hg⟩ := List.forall_mem_cons.1 h
    rw [List.cons_append, segmentsOf, if_neg (mt (isDelim_iff t b).1 hb.1), ih hg, List.cons_append]

/-- A byte that is no delimiter is in the first segment (rule R153). -/
theorem segmentsOf_cons {t : Table} {b : Byte} (hb : b ≠ t.delim) {x seg : List Byte} {rest : List (List Byte)}
    (hx : segmentsOf t x = seg :: rest) : segmentsOf t (b :: x) = (b :: seg) :: rest := by
  rw [segmentsOf, if_neg (mt (isDelim_iff t b).1 hb), hx]

/-- The size of a group, which the engine unpacks where it is full (rules R160, R162). -/
def groupSize : Mode → Nat
  | .low => 7
  | .high => 3

/-- A full piece in front is unpacked in front. -/
theorem flatMap_pieces_append {α β : Type} {n : Nat} (hn : 0 < n) (f : List α → List β) {p : List α}
    (hp : p.length = n) (xs : List α) :
    (pieces n (p ++ xs)).flatMap f = (pieces n p).flatMap f ++ (pieces n xs).flatMap f := by
  have hne : p ≠ [] := List.ne_nil_of_length_pos (hp ▸ hn)
  rw [pieces_append hn hp, pieces_of_length_le hn hne hp.le, List.flatMap_cons, List.flatMap_singleton]

/-- A full group in front of a segment is unpacked in front (rules R79, R81). -/
theorem segmentBytes_append (t : Table) {m : Mode} {g : List Byte} (hg : g.length = groupSize m) (seg : List Byte) :
    segmentBytes t m (g ++ seg) = segmentBytes t m g ++ segmentBytes t m seg := by
  cases m with
  | low =>
    simp only [segmentBytes, lowSegmentBytes, List.map_append]
    exact flatMap_pieces_append (by decide) _ (by rw [List.length_map, hg, groupSize]) _
  | high =>
    simp only [segmentBytes, highSegmentBytes, List.map_append]
    exact flatMap_pieces_append (by decide) _ (by rw [List.length_map, hg, groupSize]) _

/-- A full group of symbols in front of a segment changes no error, and gives its bytes in front. -/
theorem decodeFrom_group {t : Table} {m : Mode} {g : List Byte} (hg : ReadAsSymbols t g)
    (hfull : g.length = groupSize m) (off : Nat) (seg : List Byte) (rest : List (List Byte)) :
    decodeFrom t m off ((g ++ seg) :: rest) =
      (segmentBytes t m g ++ ·) <$> decodeFrom t m (off + g.length) (seg :: rest) := by
  have hbad := hg.firstBadSymbol_append seg
  have hoff : off + (g ++ seg).length = off + g.length + seg.length := by rw [List.length_append, Nat.add_assoc]
  have hbytes := segmentBytes_append t hfull seg
  cases hseg : firstBadSymbol t seg with
  | some p =>
    rw [hseg, Option.map_some] at hbad
    rw [decodeFrom_bad hbad, decodeFrom_bad hseg, ← Nat.add_assoc]
    rfl
  | none =>
    rw [hseg, Option.map_none] at hbad
    cases m with
    | low =>
      rw [decodeFrom_low hbad, decodeFrom_low hseg, hoff, Functor.map_map]
      simp only [segmentBytes, ← List.append_assoc] at hbytes ⊢
      rw [hbytes]
    | high =>
      have hmod : (g ++ seg).length % 3 = seg.length % 3 := by rw [List.length_append, hfull]; simp [groupSize]
      by_cases hne : rest = []
      · rw [hne, decodeFrom_high_last hbad, decodeFrom_high_last hseg, hoff]
        rfl
      · by_cases hthree : seg.length % 3 = 0
        · rw [decodeFrom_high hbad (hmod.trans hthree) _ hne, decodeFrom_high hseg hthree _ hne, hoff,
            Functor.map_map]
          simp only [segmentBytes, ← List.append_assoc] at hbytes ⊢
          rw [hbytes]
        · rw [decodeFrom_high_partial hbad (hmod ▸ hthree) _ hne, decodeFrom_high_partial hseg hthree _ hne, hoff]
          rfl

/-! ### The segment form, cut where the engine's loop stands -/

/-- The segment form's answer on the input `x` from offset `k` on, in a segment of kind `m` whose pending group is
`g`, the symbols in front of offset k: the group is the start of the input's first segment. -/
def remainingDecode (t : Table) (m : Mode) (k : Nat) (g x : List Byte) : Except (CorruptCause × Nat) (List Byte) :=
  decodeFrom t m (k - g.length) (segmentsOf t (g ++ x))

/-- A symbol joins the pending group. -/
theorem remainingDecode_push (t : Table) (m : Mode) (k : Nat) (g : List Byte) (b : Byte) (x : List Byte) :
    remainingDecode t m k g (b :: x) = remainingDecode t m (k + 1) (g ++ [b]) x := by
  simp [remainingDecode]

section
variable {t : Table} {g : List Byte} {k : Nat}

/-- A full group gives its bytes, and none is pending (rules R160, R162). -/
theorem remainingDecode_full {m : Mode} (hg : ReadAsSymbols t g) (hk : g.length ≤ k) (hfull : g.length = groupSize m)
    (x : List Byte) : remainingDecode t m k g x = (segmentBytes t m g ++ ·) <$> remainingDecode t m k [] x := by
  obtain ⟨seg, rest, hx⟩ := List.exists_cons_of_ne_nil (segmentsOf_ne_nil t x)
  rw [remainingDecode, hg.segmentsOf_append hx, decodeFrom_group hg hfull, Nat.sub_add_cancel hk, ← hx]
  rfl

/-- A bad symbol (rule R152). -/
theorem remainingDecode_bad (m : Mode) (hg : ReadAsSymbols t g) (hk : g.length ≤ k) {b : Byte} (hb : b ≠ t.delim)
    (hv : t.value b = invalidEntry) (x : List Byte) :
    remainingDecode t m k g (b :: x) = .error (.badSymbol, k) := by
  obtain ⟨seg, rest, hx⟩ := List.exists_cons_of_ne_nil (segmentsOf_ne_nil t x)
  have hbad : firstBadSymbol t (g ++ b :: seg) = some g.length := by
    rw [hg.firstBadSymbol_append, firstBadSymbol, List.findIdx?_cons, hv]
    rfl
  rw [remainingDecode, hg.segmentsOf_append (segmentsOf_cons hb hx), decodeFrom_bad hbad, Nat.sub_add_cancel hk]

/-- A delimiter ends a low segment, whose last group is the pending one (rule R160). -/
theorem remainingDecode_delim_low (hg : ReadAsSymbols t g) (hk : g.length ≤ k) (x : List Byte) :
    remainingDecode t .low k g (t.delim :: x) =
      (segmentBytes t .low g ++ ·) <$> remainingDecode t .high (k + 1) [] x := by
  rw [remainingDecode, segmentsOf_append_delim hg.ne_delim, decodeFrom_low hg.firstBadSymbol_eq_none,
    Nat.sub_add_cancel hk]
  rfl

/-- A delimiter ends a high segment between two triples (rule R158). -/
theorem remainingDecode_delim_high (t : Table) (k : Nat) (x : List Byte) :
    remainingDecode t .high k [] (t.delim :: x) = remainingDecode t .low (k + 1) [] x := by
  have hnone := (readAsSymbols_nil t).firstBadSymbol_eq_none
  rw [remainingDecode, segmentsOf_append_delim (by simp), decodeFrom_high hnone rfl _ (segmentsOf_ne_nil t x)]
  exact id_map _

/-- A delimiter inside a triple (rule R158). -/
theorem remainingDecode_delim_partial (hg : ReadAsSymbols t g) (hk : g.length ≤ k) (hmod : g.length % 3 ≠ 0)
    (x : List Byte) : remainingDecode t .high k g (t.delim :: x) = .error (.highRunMod3, k) := by
  rw [remainingDecode, segmentsOf_append_delim hg.ne_delim,
    decodeFrom_high_partial hg.firstBadSymbol_eq_none hmod _ (segmentsOf_ne_nil t x), Nat.sub_add_cancel hk]

/-- The end of the input in a low segment (rule R160). -/
theorem remainingDecode_end_low (hg : ReadAsSymbols t g) :
    remainingDecode t .low k g [] = .ok (segmentBytes t .low g) := by
  rw [remainingDecode, List.append_nil, segmentsOf_of_noDelim hg.ne_delim,
    decodeFrom_low_last _ hg.firstBadSymbol_eq_none, segmentBytes]

/-- The end of the input in a high segment (rule R159). -/
theorem remainingDecode_end_high (hg : ReadAsSymbols t g) (hk : g.length ≤ k) :
    remainingDecode t .high k g [] = .error (.truncated, k) := by
  rw [remainingDecode, List.append_nil, segmentsOf_of_noDelim hg.ne_delim,
    decodeFrom_high_last hg.firstBadSymbol_eq_none, Nat.sub_add_cancel hk]

end

/-! ### The pending group -/

/-- What the loop pushes for the symbols of a group, from an empty accumulator (rule R150). -/
def groupAcc (t : Table) (g : List Byte) : BitVec 42 :=
  g.foldl (fun acc b => (acc <<< 6) ||| (t.value b).setWidth 42) 0

/-- The symbol values of a group. -/
def groupValues (t : Table) (g : List Byte) : List Nat := g.map fun b => (t.value b).toNat

@[simp] theorem groupValues_length (t : Table) (g : List Byte) : (groupValues t g).length = g.length :=
  List.length_map _

theorem groupAcc_concat (t : Table) (g : List Byte) (b : Byte) :
    groupAcc t (g ++ [b]) = (groupAcc t g <<< 6) ||| (t.value b).setWidth 42 := by
  rw [groupAcc, List.foldl_append]
  rfl

/-- In a table that is in order the values of symbols have 6 bits (rule R30). -/
theorem ReadAsSymbols.values_lt {t : Table} {g : List Byte} (hg : ReadAsSymbols t g) (ht : TableOk t) :
    ∀ d ∈ groupValues t g, d < 2 ^ 6 := by
  intro d hd
  obtain ⟨b, hb, rfl⟩ := List.mem_map.1 hd
  exact value_lt ht (hg b hb).2

/-- A symbol value pushed on an accumulator with room for it is the next 6-bit digit. -/
theorem acc_push_symbol {acc : BitVec 42} {d : Byte} (hacc : acc.toNat < 2 ^ 36) (hd : d.toNat < 2 ^ 6) :
    ((acc <<< 6) ||| d.setWidth 42).toNat = acc.toNat * 2 ^ 6 + d.toNat := by
  rw [BitVec.toNat_or, BitVec.toNat_shiftLeft, BitVec.toNat_setWidth, Nat.shiftLeft_eq,
    Nat.mod_eq_of_lt (by omega), Nat.mod_eq_of_lt (by omega), Nat.mul_comm, Nat.two_pow_add_eq_or_of_lt hd]

/-- The accumulator of a group of at most seven symbols is the number that their values join to. -/
theorem toNat_groupAcc {t : Table} (ht : TableOk t) {g : List Byte} (hg : ReadAsSymbols t g) (hlen : g.length ≤ 7) :
    (groupAcc t g).toNat = joinBits 6 (groupValues t g) := by
  induction g using List.reverseRecOn with
  | nil => rfl
  | append_singleton g b ih =>
    have hsymbols : ReadAsSymbols t g := fun c hc => hg c (List.mem_append_left _ hc)
    have hb := (hg b (by simp)).2
    rw [List.length_append, List.length_singleton] at hlen
    have hacc := ih hsymbols (by omega)
    have hroom : (groupAcc t g).toNat < 2 ^ 36 := by
      have hlt := joinBits_lt (hsymbols.values_lt ht)
      rw [groupValues_length] at hlt
      exact hacc ▸ hlt.trans_le (Nat.pow_le_pow_right (by decide) (by omega))
    rw [groupAcc_concat, acc_push_symbol hroom (value_lt ht hb), hacc, groupValues, groupValues,
      List.map_append, List.map_singleton, joinBits_concat]

/-- The engine's unpack_low is that of the segment form (rule R160). -/
theorem unpackLow_eq {acc : BitVec 42} {ds : List Nat} (hacc : acc.toNat = joinBits 6 ds) :
    unpackLow acc ds.length = unpackGroup ds := by
  refine List.map_congr_left fun k _ => BitVec.eq_of_toNat_eq ?_
  rw [BitVec.toNat_setWidth, BitVec.toNat_and, BitVec.toNat_ushiftRight, hacc]
  exact congrArg (· % 2 ^ 8) (Nat.and_two_pow_sub_one_eq_mod _ 7)

/-- Six bits of the accumulator, as unpack_high reads them (rule R162). -/
theorem toNat_sixBits (acc : BitVec 42) (k : Nat) :
    (((acc >>> k) &&& 0x3F).setWidth 8 : Byte).toNat = acc.toNat / 2 ^ k % 64 := by
  rw [BitVec.toNat_setWidth, BitVec.toNat_and, BitVec.toNat_ushiftRight, Nat.shiftRight_eq_div_pow]
  refine (congrArg (· % 2 ^ 8) (Nat.and_two_pow_sub_one_eq_mod _ 6)).trans (Nat.mod_eq_of_lt ?_)
  omega

/-- The engine's unpack_high on three symbol values is the dispatch of rule R162. -/
theorem unpackHigh_eq {acc : BitVec 42} {d0 d1 d2 : Byte} (h0 : d0.toNat < 64) (h1 : d1.toNat < 64)
    (h2 : d2.toNat < 64) (hacc : acc.toNat = joinBits 6 [d0.toNat, d1.toNat, d2.toNat]) :
    unpackHigh acc = tripleBytes d0 d1 d2 := by
  have hjoin : acc.toNat = (d0.toNat * 64 + d1.toNat) * 64 + d2.toNat := by simpa [joinBits] using hacc
  have e0 : (((acc >>> 12) &&& 0x3F).setWidth 8 : Byte) = d0 :=
    BitVec.eq_of_toNat_eq (by rw [toNat_sixBits]; omega)
  have e1 : (((acc >>> 6) &&& 0x3F).setWidth 8 : Byte) = d1 :=
    BitVec.eq_of_toNat_eq (by rw [toNat_sixBits]; omega)
  have e2 : ((acc &&& 0x3F).setWidth 8 : Byte) = d2 :=
    BitVec.eq_of_toNat_eq ((toNat_sixBits acc 0).trans (by omega))
  rw [unpackHigh, e0, e1, e2]

/-- What the engine unpacks a group to (rules R160, R162). -/
def unpackedGroup (t : Table) (m : Mode) (g : List Byte) : List Byte :=
  match m with
  | .low => unpackLow (groupAcc t g) g.length
  | .high => unpackHigh (groupAcc t g)

/-- A low group of at most seven symbols unpacks to the bytes of the segment form (rule R160). -/
theorem unpackedGroup_low {t : Table} (ht : TableOk t) {g : List Byte} (hg : ReadAsSymbols t g)
    (hlen : g.length ≤ 7) : unpackedGroup t .low g = segmentBytes t .low g := by
  obtain rfl | hne := eq_or_ne g []
  · rfl
  · have hunpack := unpackLow_eq (toNat_groupAcc ht hg hlen)
    have hvalues : groupValues t g ≠ [] := by simpa [groupValues] using hne
    rw [groupValues_length] at hunpack
    rw [unpackedGroup, hunpack, segmentBytes, lowSegmentBytes, ← groupValues,
      pieces_of_length_le (by decide) hvalues (by simpa using hlen), List.flatMap_singleton]

/-- A triple of symbols unpacks to the bytes of the segment form (rule R162). -/
theorem unpackedGroup_high {t : Table} (ht : TableOk t) {g : List Byte} (hg : ReadAsSymbols t g)
    (hlen : g.length = 3) : unpackedGroup t .high g = segmentBytes t .high g := by
  have hacc := toNat_groupAcc ht hg (by omega)
  have hlt := hg.values_lt ht
  obtain ⟨a, b, c, rfl⟩ := List.length_eq_three.1 hlen
  simp only [groupValues, List.map_cons, List.map_nil, List.forall_mem_cons] at hacc hlt
  obtain ⟨h0, h1, h2, -⟩ := hlt
  rw [unpackedGroup, unpackHigh_eq h0 h1 h2 hacc]
  simp [segmentBytes, highSegmentBytes, pieces_of_length_le, tripleOrNone]

/-- A full group unpacks to the bytes of the segment form. -/
theorem unpackedGroup_of_full {t : Table} (ht : TableOk t) {m : Mode} {g : List Byte} (hg : ReadAsSymbols t g)
    (hfull : g.length = groupSize m) : unpackedGroup t m g = segmentBytes t m g := by
  cases m with
  | low => exact unpackedGroup_low ht hg hfull.le
  | high => exact unpackedGroup_high ht hg hfull

end Sys2Proof.Proofs
end

section
/-! PROOFS. One turn of DECODE's loop (rule R150): the pending group it leaves, what it emits, and the segment form's
answer before and after it. -/

namespace Sys2Proof.Proofs

open Sys2Proof Sys2Proof.Machine Sys2Proof.Laws

/-- After k bytes of the input the working state holds the pending group `g` of symbols (rules R34, R156). -/
structure HoldsSymbols (t : Table) (k : Nat) (w : Work) (g : List Byte) : Prop where
  symbols : ReadAsSymbols t g
  short : g.length < groupSize w.mode
  consumed : g.length ≤ k
  cnt : w.cnt.toNat = g.length
  acc : w.acc = groupAcc t g
  triple : w.mode = .high → w.hcnt.toNat % 3 = g.length
  count : w.hcnt.toNat ≤ k

/-- At the start of a job the group is empty (rule R34). -/
theorem holdsSymbols_initial (t : Table) : HoldsSymbols t 0 Work.initial [] := by
  constructor <;> simp [Work.initial, readAsSymbols_nil, groupSize, groupAcc]

/-- The cursors play no part in the pending group. -/
theorem HoldsSymbols.withCursors {t : Table} {k : Nat} {w : Work} {g : List Byte} (h : HoldsSymbols t k w g)
    (i o : Word) : HoldsSymbols t k { w with i := i, o := o } g :=
  ⟨h.symbols, h.short, h.consumed, h.cnt, h.acc, h.triple, h.count⟩

/-- An emptied group, in either mode. -/
theorem holdsSymbols_nil (t : Table) {k : Nat} {m : Mode} {n : Word} (i o : Word) (hcount : n.toNat ≤ k)
    (htriple : m = .high → n.toNat % 3 = 0) : HoldsSymbols t k ⟨i, o, m, 0, 0, n⟩ [] where
  symbols := readAsSymbols_nil t
  short := by cases m <;> exact Nat.succ_pos _
  consumed := Nat.zero_le k
  cnt := rfl
  acc := rfl
  triple := htriple
  count := hcount

/-- A turn from `w` to `w'` on the byte at offset k: a group is pending again, the output cursor is the caller's, and
the segment form's answer is `out` in front of its answer after the turn. The engine emits those bytes where the
table is in order. -/
structure DecodeTurn (t : Table) (k : Nat) (w : Work) (g : List Byte) (b : Byte) (w' : Work)
    (emitted g' out : List Byte) : Prop where
  holds : HoldsSymbols t (k + 1) w' g'
  cursor : w'.o = w.o
  emits : TableOk t → emitted = out
  output : ∀ x, remainingDecode t w.mode k g (b :: x) = (out ++ ·) <$> remainingDecode t w'.mode (k + 1) g' x

section
variable {t : Table} {k : Nat} {w : Work} {g : List Byte} {b : Byte}

/-! ### A symbol -/

/-- The segment's symbol count after a symbol: it counts in HIGH mode alone (rule R150). -/
def countSymbol (w : Work) : Word :=
  match w.mode with
  | .low => w.hcnt
  | .high => w.hcnt + 1

theorem countSymbol_le (h : HoldsSymbols t k w g) : (countSymbol w).toNat ≤ k + 1 := by
  have hcount := h.count
  unfold countSymbol
  split
  · omega
  · exact (BitVec.toNat_add ..).trans_le ((Nat.mod_le _ _).trans (Nat.succ_le_succ hcount))

/-- In HIGH mode the count after a symbol is one more, for the input is too short for it to wrap. -/
theorem countSymbol_mod (h : HoldsSymbols t k w g) (hk : k + 1 < 2 ^ 32) (hm : w.mode = .high) (b : Byte) :
    (countSymbol w).toNat % 3 = (g ++ [b]).length % 3 := by
  have hcount := h.count
  have htriple := h.triple hm
  have hnext : (w.hcnt + 1).toNat = w.hcnt.toNat + 1 := by bv_omega
  rw [countSymbol, hm, hnext, List.length_append, List.length_singleton]
  omega

/-- The count of the pushed group does not overflow its three bits. -/
theorem HoldsSymbols.push_cnt (h : HoldsSymbols t k w g) (b : Byte) : (w.cnt + 1).toNat = (g ++ [b]).length := by
  have hseven : groupSize w.mode ≤ 7 := by cases w.mode <;> decide
  have hshort := h.short
  rw [BitVec.toNat_add, h.cnt, List.length_append]
  exact Nat.mod_eq_of_lt (show g.length + 1 < 2 ^ 3 by omega)

/-- A symbol that completes the group: the group is unpacked (rules R160, R162). -/
theorem HoldsSymbols.decodeSymbol_of_full (h : HoldsSymbols t k w g) (hfull : (g ++ [b]).length = groupSize w.mode) :
    decodeSymbol w (t.value b) = ({ w with acc := 0, cnt := 0, hcnt := countSymbol w },
      unpackedGroup t w.mode (g ++ [b])) := by
  have hcnt := h.push_cnt b
  rw [hfull] at hcnt
  obtain ⟨i, o, m, acc, cnt, n⟩ := w
  cases m with
  | low =>
    have hseven : cnt + 1 = 7 := BitVec.eq_of_toNat_eq hcnt
    rw [unpackedGroup, groupAcc_concat, ← h.acc, ← h.push_cnt b]
    exact if_pos hseven
  | high =>
    have hthree : cnt + 1 = 3 := BitVec.eq_of_toNat_eq hcnt
    rw [unpackedGroup, groupAcc_concat, ← h.acc]
    exact if_pos hthree

/-- A symbol that leaves the group pending. -/
theorem HoldsSymbols.decodeSymbol_of_short (h : HoldsSymbols t k w g)
    (hshort : (g ++ [b]).length ≠ groupSize w.mode) :
    decodeSymbol w (t.value b) =
      ({ w with acc := groupAcc t (g ++ [b]), cnt := w.cnt + 1, hcnt := countSymbol w }, []) := by
  rw [← h.push_cnt b] at hshort
  rw [groupAcc_concat, ← h.acc]
  obtain ⟨i, o, m, acc, cnt, n⟩ := w
  cases m with
  | low =>
    have hseven : cnt + 1 ≠ 7 := fun e => hshort (congrArg BitVec.toNat e)
    exact if_neg hseven
  | high =>
    have hthree : cnt + 1 ≠ 3 := fun e => hshort (congrArg BitVec.toNat e)
    exact if_neg hthree

/-- A turn on a symbol (rules R150, R156). -/
theorem turn_symbol (h : HoldsSymbols t k w g) (hk : k + 1 < 2 ^ 32) (hb : b ≠ t.delim)
    (hv : t.value b ≠ invalidEntry) :
    ∃ g' out, DecodeTurn t k w g b (decodeSymbol w (t.value b)).1 (decodeSymbol w (t.value b)).2 g' out := by
  have hsymbols := h.symbols.concat hb hv
  have hconsumed : (g ++ [b]).length ≤ k + 1 := by simpa using h.consumed
  have hcount := countSymbol_le h
  by_cases hfull : (g ++ [b]).length = groupSize w.mode
  · rw [h.decodeSymbol_of_full hfull]
    refine ⟨[], segmentBytes t w.mode (g ++ [b]), holdsSymbols_nil t _ _ hcount fun hm => ?_, rfl,
      fun ht => unpackedGroup_of_full ht hsymbols hfull, fun x => ?_⟩
    · rw [countSymbol_mod h hk hm b, hfull, hm, groupSize]
    · rw [remainingDecode_push, remainingDecode_full hsymbols hconsumed hfull]
  · have hshort : (g ++ [b]).length < groupSize w.mode := by
      have := h.short
      rw [List.length_append, List.length_singleton] at hfull ⊢
      omega
    rw [h.decodeSymbol_of_short hfull]
    refine ⟨g ++ [b], [], ⟨hsymbols, hshort, hconsumed, h.push_cnt b, rfl, fun hm => ?_, hcount⟩, rfl, fun _ => rfl,
      fun x => ?_⟩
    · rw [countSymbol_mod h hk hm b]
      exact Nat.mod_eq_of_lt (hshort.trans_eq (congrArg groupSize hm))
    · rw [remainingDecode_push]
      exact (id_map _).symm

/-! ### A delimiter -/

/-- flush_low_dec of a pending group empties it and emits what it unpacks to (rule R160). -/
theorem HoldsSymbols.flushPendingDec (h : HoldsSymbols t k w g) :
    flushPendingDec w = ({ w with acc := 0, cnt := 0 }, unpackedGroup t .low g) := by
  obtain rfl | hne := eq_or_ne g []
  · have hcnt : w.cnt = 0 := BitVec.eq_of_toNat_eq h.cnt
    have hacc : w.acc = 0 := h.acc
    rw [Machine.flushPendingDec, if_neg (by simp [hcnt]), ← hcnt, ← hacc]
    rfl
  · have hpos := List.length_pos_iff.2 hne
    rw [Machine.flushPendingDec, if_pos (h.cnt ▸ hpos), flushLowDec, h.acc, h.cnt, unpackedGroup]

/-- What a pending low group unpacks to is the bytes of the segment form. -/
theorem HoldsSymbols.unpackedGroup_low (h : HoldsSymbols t k w g) (hm : w.mode = .low) (ht : TableOk t) :
    unpackedGroup t .low g = segmentBytes t .low g := by
  have hshort := h.short
  rw [hm] at hshort
  exact Proofs.unpackedGroup_low ht h.symbols hshort.le

/-- What a delimiter does: it ends a low segment, it falls inside a triple, or it ends a high segment
(rules R150, R158). -/
theorem decodeDelim_cases (w : Work) :
    (w.mode = .low ∧ decodeDelim w =
      .ok ({ (flushPendingDec w).1 with mode := .high, hcnt := 0 }, (flushPendingDec w).2)) ∨
    (w.mode = .high ∧ w.hcnt.toNat % 3 ≠ 0 ∧ decodeDelim w = .error .highRunMod3) ∨
    (w.mode = .high ∧ w.hcnt.toNat % 3 = 0 ∧ decodeDelim w = .ok ({ w with mode := .low }, [])) := by
  unfold decodeDelim
  cases hm : w.mode with
  | low => exact .inl ⟨rfl, rfl⟩
  | high =>
    by_cases hmod : w.hcnt.toNat % 3 = 0
    · exact .inr (.inr ⟨rfl, hmod, if_neg (not_not.2 hmod)⟩)
    · exact .inr (.inl ⟨rfl, hmod, if_pos hmod⟩)

/-- A turn on a delimiter that raises nothing (rules R150, R153). -/
theorem turn_delim (h : HoldsSymbols t k w g) {r : Work × List Byte} (hr : decodeDelim w = .ok r) :
    ∃ g' out, DecodeTurn t k w g t.delim r.1 r.2 g' out := by
  obtain ⟨hm, e⟩ | ⟨-, -, e⟩ | ⟨hm, hmod, e⟩ := decodeDelim_cases w <;> cases e.symm.trans hr
  · rw [h.flushPendingDec]
    refine ⟨[], segmentBytes t .low g, holdsSymbols_nil t _ _ (Nat.zero_le _) fun _ => rfl, rfl,
      h.unpackedGroup_low hm, fun x => ?_⟩
    rw [hm, remainingDecode_delim_low h.symbols h.consumed]
  · have hnil : g = [] := List.length_eq_zero_iff.1 ((h.triple hm).symm.trans hmod)
    subst hnil
    refine ⟨[], [], ⟨h.symbols, Nat.succ_pos _, Nat.zero_le _, h.cnt, h.acc, by simp, h.count.trans (Nat.le_succ k)⟩, rfl,
      fun _ => rfl, fun x => ?_⟩
    rw [hm, remainingDecode_delim_high]
    exact (id_map _).symm

/-! ### A turn -/

/-- A turn that raises nothing (rule R150). -/
theorem turn_of_decodeByte (h : HoldsSymbols t k w g) (hk : k + 1 < 2 ^ 32) {r : Work × List Byte}
    (hr : decodeByte t w b = .ok r) : ∃ g' out, DecodeTurn t k w g b r.1 r.2 g' out := by
  obtain ⟨rfl, e⟩ | ⟨-, -, e⟩ | ⟨hb, hv, e⟩ := decodeByte_cases t w b
  · exact turn_delim h (e.symm.trans hr)
  · cases e.symm.trans hr
  · cases e.symm.trans hr
    exact turn_symbol h hk hb hv

/-- What a turn raises is the segment form's first error (rules R152, R158). -/
theorem remainingDecode_of_error (h : HoldsSymbols t k w g) {c : CorruptCause} (hr : decodeByte t w b = .error c)
    (x : List Byte) : remainingDecode t w.mode k g (b :: x) = .error (c, k) := by
  obtain ⟨rfl, e⟩ | ⟨hb, hv, e⟩ | ⟨-, -, e⟩ := decodeByte_cases t w b
  · obtain ⟨-, e'⟩ | ⟨hm, hmod, e'⟩ | ⟨-, -, e'⟩ := decodeDelim_cases w <;> cases (e.trans e').symm.trans hr
    have hpartial : g.length % 3 ≠ 0 := by rw [← h.triple hm, Nat.mod_mod]; exact hmod
    rw [hm, remainingDecode_delim_partial h.symbols h.consumed hpartial]
  · cases e.symm.trans hr
    exact remainingDecode_bad _ h.symbols h.consumed hb hv x
  · cases e.symm.trans hr

end

end Sys2Proof.Proofs
end

section
/-! PROOFS. DECODE on the machine (rules R150, R186): the engine's cycles from the accept on, and the state in which
each of the command's outcomes leaves an idle engine. -/

namespace Sys2Proof.Proofs

open Sys2Proof Sys2Proof.Machine Sys2Proof.Laws

theorem jobState_work_decode (s : State) (op : Byte) (w : Work) (m : Memory) (d : Nat) :
    (jobState s op (.decode w) m d).work = some w := rfl

/-- The input from offset k on begins with IN[k]. -/
theorem drop_input (s : State) {k : Nat} (hk : k < s.inLen.toNat) :
    s.input.drop k = s.inByte k :: s.input.drop (k + 1) := by
  have hlt : k < s.input.length := by simpa using hk
  rw [List.drop_eq_getElem_cons hlt, getElem_input]

/-- What the segment form accepts fits OUT (rules R3, R166). -/
theorem decoded_length_le_outCap {s : State} (hlen : s.lenOk) {y : List Byte}
    (h : decodeSegments s.table s.input = .ok y) : y.length ≤ s.params.outCap := by
  have hcap : s.inLen.toNat ≤ s.params.cap := hlen
  have hbound := (decodedLengthBound s.table s.input y h).2
  rw [input_length] at hbound
  rw [outCap_eq]
  omega

/-! ### The loop of DECODE -/

/-- The input decodes under a table that is in order: here alone OUT's bytes matter. -/
def Decodes (s : State) : Prop := TableOk s.table ∧ ∃ y, decodeSegments s.table s.input = .ok y

/-- After k bytes of the input: the cursors, the pending group, and the segment form's output `y` so far, in front of
its answer on what is left. The output is in OUT where the input decodes. -/
structure DecodedTo (s : State) (k : Nat) (w : Work) (m : Memory) (g y : List Byte) : Prop where
  cursor : w.i.toNat = k
  holds : HoldsSymbols s.table k w g
  written : Decodes s → Written m w.o y
  output : decodeSegments s.table s.input =
    (y ++ ·) <$> remainingDecode s.table w.mode k g (s.input.drop k)

/-- Before the first byte nothing is emitted and all is left. -/
theorem decodedTo_initial (s : State) (m : Memory) : DecodedTo s 0 Work.initial m [] [] :=
  ⟨rfl, holdsSymbols_initial s.table, fun _ => written_nil m, (id_map _).symm⟩

/-- The output so far fits OUT where the input decodes. -/
theorem length_le_outCap_of_decodes {s : State} (hlen : s.lenOk) {y : List Byte}
    {e : Except (CorruptCause × Nat) (List Byte)} (houtput : decodeSegments s.table s.input = (y ++ ·) <$> e)
    (h : Decodes s) : y.length ≤ s.params.outCap := by
  obtain ⟨-, out, hout⟩ := h
  have hfit := decoded_length_le_outCap hlen hout
  rw [houtput] at hout
  cases e with
  | error _ => cases hout
  | ok rest =>
    cases hout
    rw [List.length_append] at hfit
    omega

/-- A turn takes the loop one byte on. -/
theorem DecodedTo.turn {s : State} {k : Nat} {w : Work} {m : Memory} {g y : List Byte} (h : DecodedTo s k w m g y)
    (hlen : s.lenOk) (hk : k < s.inLen.toNat) {r : Work × List Byte}
    (hr : decodeByte s.table w (s.inByte k) = .ok r) :
    ∃ g' y', DecodedTo s (k + 1)
      { r.1 with i := w.i + 1, o := (emitBytes s.params.outCap m r.1.o r.2).2 }
      (emitBytes s.params.outCap m r.1.o r.2).1 g' y' := by
  have hword := s.inLen.isLt
  have hcursor := h.cursor
  obtain ⟨g', out, hturn⟩ := turn_of_decodeByte h.holds (by omega) hr
  have houtput : decodeSegments s.table s.input =
      ((y ++ out) ++ ·) <$> remainingDecode s.table r.1.mode (k + 1) g' (s.input.drop (k + 1)) := by
    simp only [h.output, drop_input s hk, hturn.output, Functor.map_map, List.append_assoc]
  refine ⟨g', y ++ out, ⟨by bv_omega, hturn.holds.withCursors _ _, fun hdec => ?_, houtput⟩⟩
  have hfit := length_le_outCap_of_decodes hlen houtput hdec
  rw [hturn.cursor, hturn.emits hdec.1]
  exact (h.written hdec).emit hfit (outCap_lt _)

/-! ### The command -/

/-- The state `u` in which a DECODE of opcode `op`, accepted in `s`, ends where the segment form answers `res`. Where
the table is not in order the output of a success is left open (log entry 13). -/
def DecodeEnds (s : State) (op : Byte) (res : Except (CorruptCause × Nat) (List Byte)) (u : State) : Prop :=
  match res with
  | .error (c, p) => ∃ d, u = endState s op (.corruptInput c) (BitVec.ofNat 32 p) 0 Memory.empty d
  | .ok y => ∃ len m d, u = endState s op .ok 0 len m d ∧
      (TableOk s.table → len = BitVec.ofNat 32 y.length ∧ ∀ k, m.read k = y[k]?)

/-- An ended job leaves the phase in which it was accepted. -/
theorem DecodeEnds.phase {s : State} {op : Byte} {res : Except (CorruptCause × Nat) (List Byte)} {u : State}
    (h : DecodeEnds s op res u) : u.phase = s.phase := by
  cases res with
  | error e => obtain ⟨d, rfl⟩ := h; rfl
  | ok y => obtain ⟨len, m, d, rfl, -⟩ := h; rfl

/-- A cycle that raises an error ends the job (rule R184). -/
theorem decodeEnds_corrupt {s : State} (hidle : s.phase = .idle) {op : Byte} {w : Work} {m : Memory} {d : Nat}
    {res : Except (CorruptCause × Nat) (List Byte)} {c : CorruptCause} {x : Word} (hres : res = .error (c, x.toNat)) :
    DecodeEnds s op res (complete (.corruptInput c) x (jobState s op (.decode w) m d)) := by
  rw [hres, complete_jobState hidle (jobState_work_decode ..)]
  refine ⟨d, ?_⟩
  rw [BitVec.ofNat_toNat, BitVec.setWidth_eq]
  rfl

/-- The end of the input in LOW mode ends the job with its output (rules R150, R160). -/
theorem DecodedTo.decodeEnds {s : State} {k : Nat} {w : Work} {m : Memory} {g y : List Byte}
    (h : DecodedTo s k w m g y) (hidle : s.phase = .idle) (hlen : s.lenOk) (hend : s.input.drop k = [])
    (hm : w.mode = .low) (op : Byte) (d : Nat) :
    DecodeEnds s op (decodeSegments s.table s.input)
      (complete .ok 0 (emitJob .decode (flushPendingDec w).1 (flushPendingDec w).2
        (jobState s op (.decode w) m d))) := by
  have htotal : decodeSegments s.table s.input = .ok (y ++ segmentBytes s.table .low g) := by
    rw [h.output, hend, hm, remainingDecode_end_low h.holds.symbols]
    rfl
  rw [htotal, h.holds.flushPendingDec, emitJob_jobState, complete_jobState hidle (jobState_work_decode ..)]
  refine ⟨_, _, d, rfl, fun ht => ?_⟩
  have hwritten := (h.written ⟨ht, _, htotal⟩).emit (decoded_length_le_outCap hlen htotal) (outCap_lt _)
  rw [h.holds.unpackedGroup_low hm ht]
  refine ⟨?_, hwritten.read_keepBelow⟩
  rw [← hwritten.cursor, BitVec.ofNat_toNat, BitVec.setWidth_eq]
  rfl

/-- A cycle of DECODE ends the job as the segment form says, or takes the loop one byte on. -/
theorem DecodedTo.cycle {s : State} {k : Nat} {w : Work} {m : Memory} {g y : List Byte} (h : DecodedTo s k w m g y)
    (hidle : s.phase = .idle) (hlen : s.lenOk) (hk : k ≤ s.inLen.toNat) (op : Byte) (d : Nat) :
    DecodeEnds s op (decodeSegments s.table s.input) (jobCycle (jobState s op (.decode w) m d)) ∨
    k < s.inLen.toNat ∧ ∃ w' m' g' y', jobCycle (jobState s op (.decode w) m d) =
      jobState s op (.decode w') m' (d + 1) ∧ DecodedTo s (k + 1) w' m' g' y' := by
  have hcap : s.inLen.toNat ≤ s.params.cap := hlen
  have hcursor := h.cursor
  have houtput := h.output
  rw [jobCycle_jobState, jobWork_decode]
  obtain ⟨hover, -⟩ | ⟨c, -, hlt, hr, e⟩ | ⟨r, -, hlt, hr, e⟩ | ⟨-, hend, hm, e⟩ | ⟨-, hend, hm, e⟩ :=
    decodeCycle_cases w (jobState s op (.decode w) m (d + 1))
  · exact absurd hover (Nat.not_lt.2 hcap)
  · have hlt : k < s.inLen.toNat := hcursor ▸ hlt
    have hraises : decodeByte s.table w (s.inByte k) = .error c := hcursor ▸ hr
    rw [drop_input s hlt, remainingDecode_of_error h.holds hraises, ← hcursor] at houtput
    exact .inl (e ▸ decodeEnds_corrupt hidle houtput)
  · have hlt : k < s.inLen.toNat := hcursor ▸ hlt
    rw [hcursor] at hr
    obtain ⟨g', y', hnext⟩ := h.turn hlen hlt hr
    exact .inr ⟨hlt, _, _, g', y', e.trans (emitJob_jobState ..), hnext⟩
  · have hk : k = s.inLen.toNat := hk.antisymm (hcursor ▸ hend)
    have hdrop : s.input.drop k = [] := List.drop_eq_nil_of_le (by rw [input_length, hk])
    rw [hdrop, hm, remainingDecode_end_high h.holds.symbols h.holds.consumed, hk] at houtput
    exact .inl (e ▸ decodeEnds_corrupt hidle houtput)
  · have hdrop : s.input.drop k = [] := List.drop_eq_nil_of_le (by rw [input_length, ← hcursor]; exact hend)
    exact .inl (e ▸ h.decodeEnds hidle hlen hdrop hm op (d + 1))

/-- The cycles from offset k on end the job as the segment form says. -/
theorem DecodedTo.run {s : State} (hidle : s.phase = .idle) (hlen : s.lenOk) (op : Byte) (n : Nat) {k : Nat}
    {w : Work} {m : Memory} {g y : List Byte} (h : DecodedTo s k w m g y) (hn : k + n = s.inLen.toNat) (d : Nat) :
    DecodeEnds s op (decodeSegments s.table s.input) (runJob (n + 2) (jobState s op (.decode w) m d)) := by
  induction n generalizing k w m g y d with
  | zero =>
    rw [runJob_succ]
    obtain hends | ⟨hlt, -⟩ := h.cycle hidle hlen (by omega) op d
    · rwa [runJob_idle _ (hends.phase.trans hidle)]
    · omega
  | succ n ih =>
    rw [runJob_succ]
    obtain hends | ⟨-, w', m', g', y', e, hnext⟩ := h.cycle hidle hlen (by omega) op d
    · rwa [runJob_idle _ (hends.phase.trans hidle)]
    · rw [e]
      exact ih hnext (by omega) _

theorem lowByte_encodeInstr_decode : lowByte (encodeInstr .decode) = 0x04 := by decide

/-- DECODE in an idle engine is the engine's cycles from its first state on. -/
theorem exec_decode {s : State} (h : s.busy = false) :
    exec .decode s = .next (runJob (s.inLen.toNat + 2)
      (jobState s 0x04 (.decode Work.initial) s.outMem (s.draws + 1))) := by
  refine congrArg Host.Outcome.next ?_
  rw [runCommand_idle _ _ h, accept_eq_jobState, lowByte_encodeInstr_decode, State.jobFuel]

/-- DECODE of more symbols than IN has (rule R186). -/
theorem exec_decode_badLen {s : State} (h : s.busy = false) (hover : s.params.cap < s.inLen.toNat) :
    exec .decode s = .next (endState s 0x04 .badLen 0 0 s.outMem (s.draws + 2)) := by
  have hidle := phase_idle_of_not_busy h
  have hcycle : jobCycle (jobState s 0x04 (.decode Work.initial) s.outMem (s.draws + 1)) =
      endState s 0x04 .badLen 0 0 s.outMem (s.draws + 2) := by
    rw [jobCycle_jobState, jobWork_decode]
    obtain ⟨-, e⟩ | ⟨_, hle, -⟩ | ⟨_, hle, -⟩ | ⟨hle, -⟩ | ⟨hle, -⟩ :=
      decodeCycle_cases Work.initial (jobState s 0x04 (.decode Work.initial) s.outMem (s.draws + 1 + 1))
    · rw [e, complete_jobState hidle (jobState_work_decode ..)]
      rfl
    all_goals exact absurd hover (Nat.not_lt.2 hle)
  rw [exec_decode h, runJob_succ, hcycle]
  exact congrArg _ (runJob_idle _ hidle)

/-- DECODE of an input that fits IN ends as the segment form says (rules R150, R153). -/
theorem exec_decode_ends {s : State} (h : s.busy = false) (hlen : s.lenOk) :
    ∃ u, exec .decode s = .next u ∧ DecodeEnds s 0x04 (decodeSegments s.table s.input) u :=
  ⟨_, exec_decode h, (decodedTo_initial s s.outMem).run (phase_idle_of_not_busy h) hlen 0x04 _ (Nat.zero_add _) _⟩

/-- Settles O9: the loop ends as the segment form says, and what that accepts fits OUT. -/
theorem decodeEndsAsTheSegmentFormSays : Obligations.DecodeEndsAsTheSegmentFormSays := by
  refine ⟨rfl, fun s h => ⟨fun hover => ⟨_, _, exec_decode_badLen h hover⟩, fun hlen ht y hy => ?_,
    fun hlen c p hp => ?_⟩⟩
  · obtain ⟨u, hexec, hends⟩ := exec_decode_ends h hlen
    rw [hy] at hends
    obtain ⟨len, m, d, rfl, hout⟩ := hends
    obtain ⟨rfl, hread⟩ := hout ht
    exact ⟨decoded_length_le_outCap hlen hy, d, m, hexec, hread⟩
  · obtain ⟨u, hexec, hends⟩ := exec_decode_ends h hlen
    rw [hp] at hends
    obtain ⟨d, rfl⟩ := hends
    cases c <;> exact ⟨d, hexec⟩

end Sys2Proof.Proofs
end

section
/-! PROOFS. The outcomes as a host meets them: an illegal command word (rule R183), and the interrupt output, which
completions raise and W1C, the mask and an accept lower (rules R16, R195). -/

namespace Sys2Proof.Proofs

open Sys2Proof Sys2Proof.Machine Sys2Proof.Laws

/-! ### Illegal command words -/

/-- The job of an illegal word in an idle engine: its one cycle reports ILLEGAL_CMD (rule R183). -/
theorem execIllegal_idle (w : Word) (c : IllegalCause) {s : State} (h : s.busy = false) :
    execIllegal w c s = .next { s with
      done := true
      code := 3
      cause := (JobOutcome.illegalCmd c).cause
      lastOp := w.extractLsb' 0 8
      errOffset := 0
      draws := s.draws + 2 } :=
  congrArg Host.Outcome.next (runCommand_of_oneCycle (r := .illegalCmd c) (t := s.table) h rfl rfl)

/-- Every word from 5 on is illegal, and CAUSE tells whether its MBZ field is zero (rules R74, R77). -/
theorem exists_illegalCause {w : Word} (h5 : 5 ≤ w.toNat) :
    ∃ c, decodeCmd w = .illegal c ∧
      (JobOutcome.illegalCmd c).cause = if w.extractLsb' 8 24 = 0 then 1 else 2 := by
  by_cases hmbz : w.extractLsb' 8 24 = 0
  · rw [if_pos hmbz]
    exact ⟨_, decodeCmd_of_reserved h5 ((mbz_eq_zero_iff w).1 hmbz), rfl⟩
  · rw [if_neg hmbz]
    exact ⟨_, decodeCmd_of_mbz (Nat.le_of_not_lt fun hlt => hmbz ((mbz_eq_zero_iff w).2 hlt)), rfl⟩

/-- Where jobs are atomic, writing an illegal word to CMD is the whole of its job (log entry 6). -/
theorem issueCommand_illegal {w : Word} {c : IllegalCause} {s : State} (hatomic : s.params.pacing = .atomic)
    (hc : decodeCmd w = .illegal c) : issueCommand w s = execIllegal w c s := by
  simp only [issueCommand, hatomic, hc]

/-- Settles O11: the word decodes as illegal, and its job's one cycle reports the cause. -/
theorem illegalWordCompletesWithIllegalCmd : Obligations.IllegalWordCompletesWithIllegalCmd := by
  intro s w h h5
  obtain ⟨c, hc, hcause⟩ := exists_illegalCause h5
  refine ⟨c, s.draws + 2, hc, ?_, fun hatomic => issueCommand_illegal hatomic hc⟩
  rw [execIllegal_idle w c h, hcause]

/-! ### Every command completes -/

/-- A BUILD in an idle engine completes, whether a check fails or all pass. -/
theorem exec_build_done {s : State} (h : s.busy = false) : ∃ t, exec .build s = .next t ∧ t.done = true := by
  cases hc : configProblem s.alpha s.alphaLen s.delim with
  | some c => exact ⟨_, exec_build_of_problem h hc, rfl⟩
  | none => exact ⟨_, exec_build_of_passed h hc, rfl⟩

/-- An ENCODE in an idle engine completes, on BAD_LEN and on either answer of the run form. -/
theorem exec_encode_done {s : State} (h : s.busy = false) : ∃ t, exec .encode s = .next t ∧ t.done = true := by
  obtain ⟨-, hforms⟩ := encodeEndsAsTheRunFormSays
  obtain ⟨-, hok, herror⟩ := hforms s h
  by_cases hlen : s.lenOk
  · cases hruns : encodeRuns s.table s.input with
    | error e =>
      obtain ⟨_, hexec⟩ := herror hlen e.1 e.2 hruns
      exact ⟨_, hexec, rfl⟩
    | ok y =>
      obtain ⟨-, _, _, hexec, -⟩ := hok hlen y hruns
      exact ⟨_, hexec, rfl⟩
  · exact ⟨_, exec_encode_badLen h (Nat.lt_of_not_le hlen), rfl⟩

theorem DecodeEnds.done {s : State} {op : Byte} {res : Except (CorruptCause × Nat) (List Byte)} {u : State}
    (h : DecodeEnds s op res u) : u.done = true := by
  cases res with
  | error e => obtain ⟨d, rfl⟩ := h; rfl
  | ok y => obtain ⟨len, m, d, rfl, -⟩ := h; rfl

/-- A DECODE in an idle engine completes, on BAD_LEN and on either answer of the segment form, whatever the
table. -/
theorem exec_decode_done {s : State} (h : s.busy = false) : ∃ t, exec .decode s = .next t ∧ t.done = true := by
  by_cases hlen : s.lenOk
  · obtain ⟨u, hexec, hends⟩ := exec_decode_ends h hlen
    exact ⟨u, hexec, hends.done⟩
  · exact ⟨_, exec_decode_badLen h (Nat.lt_of_not_le hlen), rfl⟩

/-- Every command but NOP sets DONE (rules R16, R190). -/
theorem exec_done {i : Instr} (hi : i ≠ .nop) {s : State} (h : s.busy = false) :
    ∃ t, exec i s = .next t ∧ t.done = true := by
  cases i with
  | nop => exact absurd rfl hi
  | build => exact exec_build_done h
  | loadDefault =>
    obtain ⟨-, -, hexec⟩ := loadDefaultInstallsThePredefinedTable
    obtain ⟨_, hexec⟩ := hexec s h
    exact ⟨_, hexec, rfl⟩
  | encode => exact exec_encode_done h
  | decode => exact exec_decode_done h

/-- No command writes CTRL (rule R13). -/
theorem exec_irqEn {i : Instr} {s t : State} (h : exec i s = .next t) : t.irqEn = s.irqEn := by
  obtain ⟨-, e⟩ | ⟨j, -, e⟩ := exec_cases i s <;> cases e.symm.trans h
  · rfl
  · exact runCommand_induct (P := fun u => u.irqEn = s.irqEn)
      (fun u hu => (jobCycle_sameHost u).irqEn.trans hu) j _ (fun _ _ hu => hu) s rfl

/-! ### The interrupt output -/

/-- irq is high while IRQ_EN and DONE are 1 (rule R195). -/
theorem irq_iff (s : State) : s.irq = true ↔ s.irqEn = true ∧ s.done = true := Bool.and_eq_true_iff

/-- After a completion irq is IRQ_EN. -/
theorem irq_of_done {s : State} (h : s.done = true) : s.irq = s.irqEn := by rw [State.irq, h, Bool.and_true]

/-- While DONE is 0, irq is low. -/
theorem irq_of_not_done {s : State} (h : s.done = false) : s.irq = false := by rw [State.irq, h, Bool.and_false]

/-- A write to STATUS is W1C on DONE (rule R16). -/
theorem acknowledge_eq (v : Word) (s : State) :
    acknowledge v s = if v.getLsbD 1 = true then { s with done := false } else s := by
  cases hbit : v.getLsbD 1 with
  | true => simp only [acknowledge, hbit, Bool.not_true, Bool.and_false, if_true]
  | false => simp only [acknowledge, hbit, Bool.not_false, Bool.and_true, Bool.false_eq_true, if_false]

/-- Settles O34: a completion sets DONE and leaves IRQ_EN; W1C, the accept and reset clear DONE, and CTRL masks. -/
theorem interruptFollowsDoneAndEnable : Obligations.InterruptFollowsDoneAndEnable := by
  refine fun s => ⟨irq_iff s, fun i hi h => ?_, fun v => acknowledge_eq v s,
    fun v hbit => irq_of_not_done ?_, rfl, rfl, fun job w => irq_of_not_done (accept_done job w s),
    irq_of_not_done (resetFor_done s.params)⟩
  · obtain ⟨t, hexec, hdone⟩ := exec_done hi h
    exact ⟨t, hexec, (irq_of_done hdone).trans (exec_irqEn hexec)⟩
  · exact (acknowledge_done v s).trans (by rw [hbit, Bool.not_true, Bool.and_false])

end Sys2Proof.Proofs
end

section
/-! PROOFS. Reset (rules R210, R211), and what a host write does while a job is in progress (rules R214, R215). -/

namespace Sys2Proof.Proofs

open Sys2Proof Sys2Proof.Machine Sys2Proof.Laws

/-! ### Host writes while BUSY is 1 -/

/-- No command is accepted while BUSY is 1 (rules R181, R215). -/
theorem startCommand_busy (j : Job) (w : Word) {s : State} (h : s.busy = true) : startCommand j w s = s :=
  if_pos h

/-- A write to CMD is dropped while BUSY is 1, in both latency forms (rules R181, R215). -/
theorem issueCommand_busy (w : Word) {s : State} (h : s.busy = true) : issueCommand w s = .next s := by
  obtain ignored | ⟨j, w', -, -, started | run⟩ := issueCommand_cases w s
  · exact ignored
  · rw [started, startCommand_busy j w' h]
  · rw [run, runCommand_busy j w' h]

/-- While BUSY is 1 the RWF rows are frozen (rules R11, R214); the rest but CTRL and STATUS take no write at all. -/
theorem writeTarget_busy {t : Target} (hctrl : t ≠ .ctrl) (hstatus : t ≠ .status) (v : Word) {s : State}
    (h : s.busy = true) : writeTarget t v s = s := by
  cases t with
  | ctrl => exact absurd rfl hctrl
  | status => exact absurd rfl hstatus
  | inLen | delim | alphaLen | alpha _ | inWin _ => exact frozen_busy h _
  | id | version | cmd | outLen | errOffset | tblDelim | inCap | outCap | encTbl _ | decTbl _ | outWin _
  | reserved => rfl

/-- Settles O26: at CMD no command is issued, and of the other rows CTRL and STATUS alone are not frozen. -/
theorem writesWhileBusyAreDropped : Obligations.WritesWhileBusyAreDropped := by
  intro s a v h
  obtain ⟨hcmd, atCmd⟩ | ⟨-, atRow⟩ := hostWrite_cases a v s
  · rw [atCmd, issueCommand_busy v h, hcmd]
  · rw [atRow]
    split
    case h_1 hctrl => rw [hctrl]; rfl
    case h_2 hstatus => rw [hstatus]; rfl
    case h_3 hctrl hstatus => rw [writeTarget_busy hctrl hstatus v h]

/-! ### The reset values -/

/-- STATUS is 0 after reset: every field in it is (rules R75, R210). -/
theorem resetFor_statusWord (p : Params) : (State.resetFor p).statusWord = 0 := by
  simp only [State.statusWord, busy_of_phase_idle (resetFor_phase p), resetFor_done, resetFor_code, resetFor_cause,
    resetFor_lastOp]
  decide

/-- The first symbol of the predefined alphabet is `A` (rule R210). -/
theorem predefinedTable_value_A : predefinedTable.value 0x41 = 0 :=
  install_value_of_symbol predefined_alphabetOk (v := 0) (by decide)

/-- The last symbol of the predefined alphabet is `_`, at every index whose low six bits are ones (rule R210). -/
theorem predefinedTable_symbol_last {v : Byte} (h : v.toNat % 64 = 63) : predefinedTable.symbol v = 0x5F := by
  simp only [predefinedTable, install_symbol, h]
  rfl

/-- Settles O19: the registers and the buffers hold their reset values, and the table is the predefined one. -/
theorem resetValuesAreThoseOfTheSpec : Obligations.ResetValuesAreThoseOfTheSpec := fun p =>
  ⟨rfl, rfl, rfl, resetFor_statusWord p, rfl, rfl, rfl, rfl, rfl, resetFor_alpha p, resetFor_table p, rfl, rfl,
    predefinedTable_value_A, predefinedTable_symbol_last (v := 0x7F) rfl,
    predefinedTable_symbol_last (v := 0x3F) rfl, value_delim predefinedTable_tableOk,
    resetFor_phase p, rfl, irq_of_not_done (resetFor_done p),
    fun k => ⟨read_empty k, read_empty k, outResult_of_unspecified (resetFor_outSpecified p) k⟩⟩

/-! ### Reset as an event -/

/-- A step with an event in line delivers it, and it leaves the line. -/
theorem step_of_inbox_cons {s : State} {e : Event} {rest : List Event} (h : s.inbox = e :: rest) :
    step s = deliver e { s with inbox := rest } := by
  simp only [step, stepNext, h]

/-- Settles O20: the delivery of reset is `hardReset`, which looks at neither the phase nor any register. -/
theorem resetAbandonsTheJob : Obligations.ResetAbandonsTheJob := fun s _ h =>
  ⟨s.draws + 1, step_of_inbox_cons h⟩

end Sys2Proof.Proofs
end

section
/-! PROOFS. The round trip on the machine (rule R137): the bytes that ENCODE leaves in OUT, given back as input, are
the stream that DECODE undoes. -/

namespace Sys2Proof.Proofs

open Sys2Proof Sys2Proof.Machine Sys2Proof.Laws

/-- A byte that IN lists is the byte of the input (rule R31). -/
theorem inByte_of_read {s : State} {i : Nat} {b : Byte} (h : s.inMem.read i = some b) : s.inByte i = b := by
  simp only [State.inByte, h]

/-- IN that lists the bytes of `y` below IN_LEN, which is their count, is the input `y`. -/
theorem input_eq_of_read {s : State} {y : List Byte} (hlen : s.inLen.toNat = y.length)
    (h : ∀ k < y.length, s.inMem.read k = y[k]?) : s.input = y := by
  refine List.ext_getElem ((input_length s).trans hlen) fun k _ hk => ?_
  rw [getElem_input, inByte_of_read ((h k hk).trans (List.getElem?_eq_getElem hk))]

/-- ENCODE of an input of the round-trip domain: a success whose specified bytes are the runs' encodings. -/
theorem exec_encode_domain {s : State} (h : s.busy = false) (hlen : s.lenOk) (hx : RoundTripDomain s.input) :
    ∃ t, exec .encode s = .next t ∧ t.busy = false ∧ t.code = 0 ∧ t.table = s.table ∧
      t.outLen.toNat = (runsOutput s.table s.input).length ∧
      ∀ k, t.outResult k = (runsOutput s.table s.input)[k]? := by
  have hgood := forall_mem_input.1 (not_isBadLead_of_domain hx)
  obtain ⟨hfit, m, hexec, hread⟩ := exec_encode_ok h hlen hgood
  exact ⟨_, hexec, h, rfl, rfl, Nat.mod_eq_of_lt (hfit.trans_lt (outCap_lt _)),
    fun k => (outResult_of_specified rfl k).trans (hread k)⟩

/-- DECODE of an input that the segment form decodes, under a table that is in order: a success whose specified bytes
are the segment form's. -/
theorem exec_decode_ok {s : State} (h : s.busy = false) (hlen : s.lenOk) (ht : TableOk s.table) {x : List Byte}
    (hx : decodeSegments s.table s.input = .ok x) :
    ∃ u, exec .decode s = .next u ∧ u.code = 0 ∧ u.outLen = BitVec.ofNat 32 x.length ∧
      ∀ k, u.outResult k = x[k]? := by
  obtain ⟨u, hexec, hends⟩ := exec_decode_ends h hlen
  rw [hx] at hends
  obtain ⟨len, m, d, rfl, hout⟩ := hends
  obtain ⟨hcount, hread⟩ := hout ht
  exact ⟨_, hexec, rfl, hcount, fun k => (outResult_of_specified rfl k).trans (hread k)⟩

/-- Settles O55: the second input is the runs' encodings, which decode to the first. -/
theorem machineRoundTrip : Obligations.MachineRoundTrip := by
  intro s h hlen ht hx
  obtain ⟨t, hexec, hidle, hcode, htable, hcount, hresult⟩ := exec_encode_domain h hlen hx
  refine ⟨t, hexec, hcode, fun hfits m hm => ?_⟩
  have hinput : State.input { t with inMem := m, inLen := t.outLen } = runsOutput s.table s.input :=
    input_eq_of_read hcount fun k hk => (hm k (hk.trans_eq hcount.symm)).trans (hresult k)
  have hback : decodeSegments t.table (State.input { t with inMem := m, inLen := t.outLen }) = .ok s.input := by
    rw [hinput, htable]
    exact (decodeFrom_runsOutput ht hx).1 0
  obtain ⟨u, hexec', hcode', hcount', hresult'⟩ :=
    exec_decode_ok (s := { t with inMem := m, inLen := t.outLen }) hidle hfits (htable ▸ ht) hback
  refine ⟨u, hexec', hcode', ?_, fun k hk => ?_⟩
  · rw [hcount', input_length, BitVec.ofNat_toNat, BitVec.setWidth_eq]
  · have hlt : k < s.input.length := by simpa using hk
    rw [hresult', List.getElem?_eq_getElem hlt, getElem_input]

end Sys2Proof.Proofs
end

section
/-! PROOFS. The invariants of STATUS (rules R16 to R18, R22, R77) and of the buffers (rules R31, R32, R57): what one
cycle, whatever its job, does to the state, and what each part of a step keeps. -/

namespace Sys2Proof.Proofs

open Sys2Proof Sys2Proof.Machine Sys2Proof.Laws

/-! ### What a cycle does, whatever its job -/

theorem phase_cases (s : State) : s.phase = .idle ∨ ∃ j, s.phase = .busy j := by
  cases hb : s.busy with
  | false => exact .inl (phase_idle_of_not_busy hb)
  | true => exact .inr (phase_busy_of_busy hb)

/-- ENCODE and DECODE, the two jobs with a working state (rule R34). -/
def IsTransform (mk : Work → Job) : Prop := mk = .encode ∨ mk = .decode

theorem IsTransform.work {mk : Work → Job} (h : IsTransform mk) {s : State} {w : Work}
    (hp : s.phase = .busy (mk w)) : s.work = some w := by
  obtain rfl | rfl := h <;> simp only [State.work, hp]

/-- The four things a cycle can be: none, where the engine is idle; a completion that emits nothing, whose offset is in
the buffer and 0 but for CORRUPT_INPUT; one input byte consumed; and the end of the input. -/
theorem jobCycle_cases (s : State) :
    (s.phase = .idle ∧ jobCycle s = s) ∨
    (∃ r x tbl, s.busy = true ∧ (r.code ≠ 1 → x = 0) ∧ x.toNat ≤ s.params.cap ∧
      jobCycle s = complete r x { s with draws := s.draws + 1, table := tbl }) ∨
    (∃ mk w w' out, IsTransform mk ∧ s.phase = .busy (mk w) ∧ w.i.toNat < s.inLen.toNat ∧ w'.i = w.i + 1 ∧
      jobCycle s = emitJob mk w' out { s with draws := s.draws + 1 }) ∨
    (∃ mk w out, IsTransform mk ∧ s.busy = true ∧
      jobCycle s = complete .ok 0 (emitJob mk w out { s with draws := s.draws + 1 })) := by
  obtain hp | ⟨j, hp⟩ := phase_cases s
  · exact .inl ⟨hp, jobCycle_idle hp⟩
  have hb := busy_of_phase_busy hp
  right
  rw [jobCycle_busy hp]
  cases j with
  | build =>
    obtain ⟨c, -, e⟩ | ⟨-, e⟩ := buildCycle_cases { s with draws := s.draws + 1 }
    · exact .inl ⟨.configError c, 0, s.table, hb, fun _ => rfl, Nat.zero_le _, e⟩
    · exact .inl ⟨.ok, 0, _, hb, fun _ => rfl, Nat.zero_le _, e⟩
  | loadDefault => exact .inl ⟨.ok, 0, _, hb, fun _ => rfl, Nat.zero_le _, rfl⟩
  | illegal c => exact .inl ⟨.illegalCmd c, 0, s.table, hb, fun _ => rfl, Nat.zero_le _, rfl⟩
  | encode w =>
    obtain ⟨-, e⟩ | ⟨hcap, hlt, -, e⟩ | ⟨r, -, hlt, -, e⟩ | ⟨-, -, e⟩ :=
      encodeCycle_cases w { s with draws := s.draws + 1 }
    · exact .inl ⟨.badLen, 0, s.table, hb, fun _ => rfl, Nat.zero_le _, e⟩
    · exact .inl ⟨.corruptInput .badLead, w.i, s.table, hb, fun h => absurd rfl h, hlt.le.trans hcap, e⟩
    · exact .inr (.inl ⟨.encode, w, _, _, .inl rfl, hp, hlt, rfl, e⟩)
    · exact .inr (.inr ⟨.encode, _, _, .inl rfl, hb, e⟩)
  | decode w =>
    obtain ⟨-, e⟩ | ⟨c, hcap, hlt, -, e⟩ | ⟨r, -, hlt, -, e⟩ | ⟨hcap, -, -, e⟩ | ⟨-, -, -, e⟩ :=
      decodeCycle_cases w { s with draws := s.draws + 1 }
    · exact .inl ⟨.badLen, 0, s.table, hb, fun _ => rfl, Nat.zero_le _, e⟩
    · exact .inl ⟨.corruptInput c, w.i, s.table, hb, fun h => absurd rfl h, hlt.le.trans hcap, e⟩
    · exact .inr (.inl ⟨.decode, w, _, _, .inr rfl, hp, hlt, rfl, e⟩)
    · exact .inl ⟨.corruptInput .truncated, s.inLen, s.table, hb, fun h => absurd rfl h, hcap, e⟩
    · exact .inr (.inr ⟨.decode, _, _, .inr rfl, hb, e⟩)

/-! ### What a host write leaves alone -/

/-- A write of a row other than CMD leaves the results of the last job alone (rule R59). -/
theorem writeTarget_sameResults (t : Target) (v : Word) (s : State) : SameResults s (writeTarget t v s) := by
  obtain e | e | e | ⟨-, _, _, _, _, _, e, -⟩ := writeTarget_cases t v s <;> rw [e] <;> constructor <;> rfl

/-- A write of a row other than CMD may clear DONE and never sets it (rule R16). -/
theorem done_of_writeTarget_done {t : Target} {v : Word} {s : State} (h : (writeTarget t v s).done = true) :
    s.done = true := by
  obtain e | e | e | ⟨-, _, _, _, _, _, e, -⟩ := writeTarget_cases t v s <;> rw [e] at h
  · exact h
  · exact h
  · exact (Bool.and_eq_true_iff.1 h).1
  · exact h

/-! ### STATUS and ERR_OFFSET -/

/-- The discipline of STATUS goes by the phase, the outcome and the offset, and survives an acknowledgement. -/
theorem statusOk_congr {s t : State} (h : StatusOk s) (hr : SameResults s t) (hp : t.params = s.params)
    (hd : t.done = true → s.done = true) : StatusOk t := by
  have hb : t.busy = s.busy := busy_congr hr.phase.symm
  constructor
  · intro hdone
    rw [hb]
    exact h.doneIdle (hd hdone)
  · rw [hb, ← hr.code, ← hr.cause]
    exact h.busyClear
  · rw [← hr.code, ← hr.cause]
    exact h.legal
  · rw [hb, ← hr.code, ← hr.errOffset]
    exact h.noOffset
  · rw [← hr.errOffset, hp]
    exact h.offsetBound

theorem legalOutcome_zero : legalOutcome 0 0 := by simp [legalOutcome]

/-- A completion records a legal pair, and an offset for CORRUPT_INPUT alone (rules R77, R190). -/
theorem statusOk_complete {r : JobOutcome} {x : Word} {s : State} (hr : r.code ≠ 1 → x = 0)
    (hx : x.toNat ≤ s.params.cap) : StatusOk (complete r x s) where
  doneIdle _ := rfl
  busyClear h := nomatch h
  legal := legalOutcome_of_outcome r
  noOffset _ := hr
  offsetBound := hx

/-- Emit leaves STATUS of a job in progress as it is. -/
theorem statusOk_emitJob {s : State} (h : StatusOk s) (hb : s.busy = true) (mk : Work → Job) (w : Work)
    (out : List Byte) : StatusOk (emitJob mk w out s) where
  doneIdle hd := absurd ((h.doneIdle hd).symm.trans hb) Bool.false_ne_true
  busyClear _ := h.busyClear hb
  legal := h.legal
  noOffset hidle := nomatch hidle
  offsetBound := h.offsetBound

theorem jobCycle_statusOk (s : State) (h : StatusOk s) : StatusOk (jobCycle s) := by
  obtain ⟨-, e⟩ | ⟨r, x, tbl, -, hr, hx, e⟩ | ⟨mk, w, w', out, -, hp, -, -, e⟩ | ⟨mk, w, out, -, -, e⟩ :=
    jobCycle_cases s <;> rw [e]
  · exact h
  · exact statusOk_complete hr hx
  · have hdraws : StatusOk { s with draws := s.draws + 1 } :=
      ⟨h.doneIdle, h.busyClear, h.legal, h.noOffset, h.offsetBound⟩
    exact statusOk_emitJob hdraws (busy_of_phase_busy hp) mk w' out
  · exact statusOk_complete (fun _ => rfl) (Nat.zero_le _)

/-- STATUS and ERR_OFFSET are 0 after reset (rule R210). -/
theorem statusOk_resetFor (p : Params) : StatusOk (State.resetFor p) where
  doneIdle _ := rfl
  busyClear h := nomatch h
  legal := legalOutcome_zero
  noOffset _ _ := rfl
  offsetBound := Nat.zero_le _

/-- Every part of a step keeps the discipline of STATUS and ERR_OFFSET. -/
theorem statusOk_keptByParts : KeptByParts StatusOk where
  platform _ _ _ h := ⟨h.doneIdle, h.busyClear, h.legal, h.noOffset, h.offsetBound⟩
  cycle := jobCycle_statusOk
  reset s _ :=
    have h := statusOk_resetFor s.params
    ⟨h.doneIdle, h.busyClear, h.legal, h.noOffset, h.offsetBound⟩
  write t v s h := statusOk_congr h (writeTarget_sameResults t v s) (writeTarget_params t v s) done_of_writeTarget_done
  accept _ _ _ _ _ _ _ h :=
    { doneIdle := fun hd => nomatch hd
      busyClear := fun _ => ⟨rfl, rfl⟩
      legal := legalOutcome_zero
      noOffset := fun hidle => nomatch hidle
      offsetBound := h.offsetBound }

/-- Settles O59: an accept clears the outcome, a completion records a legal one, and no other part sets any. -/
theorem statusDisciplineIsKept : Obligations.StatusDisciplineIsKept := fun _ _ h ht => statusOk_keptByParts.step h ht

/-! ### The buffers -/

/-- What a completion leaves of OUT is canonical where OUT was (rules R32, R191). -/
theorem wf_outAfter {size : Nat} {m : Memory} (h : m.wf size = true) (r : JobOutcome) (o : Nat) :
    (outAfter r o m).wf size = true := by
  cases r with
  | ok => exact wf_keepBelow o h
  | badLen => exact h
  | corruptInput _ | configError _ | illegalCmd _ => exact wf_empty size

theorem buffersOk_complete {s : State} (h : BuffersOk s) (r : JobOutcome) (x : Word) : BuffersOk (complete r x s) := by
  refine ⟨h.inCanonical, ?_⟩
  rw [complete_outMem]
  split
  · exact h.outCanonical
  · exact wf_outAfter h.outCanonical r _

theorem buffersOk_emitJob {s : State} (h : BuffersOk s) (mk : Work → Job) (w : Work) (out : List Byte) :
    BuffersOk (emitJob mk w out s) :=
  ⟨h.inCanonical, wf_emitBytes h.outCanonical w.o out⟩

theorem jobCycle_buffersOk (s : State) (h : BuffersOk s) : BuffersOk (jobCycle s) := by
  have hdraws (tbl : Table) : BuffersOk { s with draws := s.draws + 1, table := tbl } :=
    ⟨h.inCanonical, h.outCanonical⟩
  obtain ⟨-, e⟩ | ⟨r, x, tbl, -, -, -, e⟩ | ⟨mk, w, w', out, -, -, -, -, e⟩ | ⟨mk, w, out, -, -, e⟩ :=
    jobCycle_cases s <;> rw [e]
  · exact h
  · exact buffersOk_complete (hdraws tbl) r x
  · exact buffersOk_emitJob (hdraws s.table) mk w' out
  · exact buffersOk_complete (buffersOk_emitJob (hdraws s.table) mk w out) .ok 0

/-- A write of a row stores nothing outside IN (rule R31). -/
theorem writeTarget_buffersOk (t : Target) (v : Word) (s : State) (h : BuffersOk s) :
    BuffersOk (writeTarget t v s) := by
  obtain e | e | e | ⟨-, _, _, _, _, m, e, hm⟩ := writeTarget_cases t v s <;> rw [e]
  · exact h
  · exact ⟨h.inCanonical, h.outCanonical⟩
  · exact ⟨h.inCanonical, h.outCanonical⟩
  · obtain rfl | ⟨k, rfl⟩ := hm
    · exact ⟨h.inCanonical, h.outCanonical⟩
    · exact ⟨wf_writeLanes k v 4 h.inCanonical, h.outCanonical⟩

/-- Every part of a step keeps the buffers in canonical form. -/
theorem buffersOk_keptByParts : KeptByParts BuffersOk where
  platform _ _ _ h := ⟨h.inCanonical, h.outCanonical⟩
  cycle := jobCycle_buffersOk
  reset _ _ := ⟨wf_empty _, wf_empty _⟩
  write := writeTarget_buffersOk
  accept _ _ _ _ _ _ _ h := ⟨h.inCanonical, h.outCanonical⟩

/-- Settles O60: no lane and no emitted byte is stored outside its buffer. -/
theorem buffersStayInsideTheirCapacity : Obligations.BuffersStayInsideTheirCapacity := fun _ _ h ht =>
  buffersOk_keptByParts.step h ht

end Sys2Proof.Proofs
end

section
/-! PROOFS. The working state of ENCODE and DECODE (rules R34, R125, R136, R156, R166): what one turn of each loop
does to the pending group, and how many bytes it emits for it. -/

namespace Sys2Proof.Proofs

open Sys2Proof Sys2Proof.Machine Sys2Proof.Laws

/-! ### The pending group of ENCODE -/

/-- The part of `EncodeOk` that a turn looks at: a group of fewer than six values of 7 bits, empty in a high run. -/
structure LowGroupOk (w : Work) : Prop where
  group : w.cnt.toNat < 6
  accBound : w.acc.toNat < 2 ^ (7 * w.cnt.toNat)
  highEmpty : w.mode = .high → w.cnt = 0

/-- An emptied group. -/
theorem lowGroupOk_empty {w : Work} (hcnt : w.cnt = 0) (hacc : w.acc = 0) : LowGroupOk w :=
  ⟨by rw [hcnt]; decide, by rw [hcnt, hacc]; decide, fun _ => hcnt⟩

theorem pendingSymbols_of_empty {w : Work} (h : w.cnt = 0) : pendingSymbols w = 0 := if_pos h

theorem pendingSymbols_of_pos {w : Work} (h : 0 < w.cnt.toNat) : pendingSymbols w = w.cnt.toNat + 1 :=
  if_neg fun e => by rw [e] at h; exact absurd h (by decide)

theorem cnt_eq_zero {w : Work} (h : ¬ 0 < w.cnt.toNat) : w.cnt = 0 :=
  BitVec.eq_of_toNat_eq (Nat.eq_zero_of_not_pos h)

/-- The accumulator of an empty group is empty. -/
theorem acc_eq_zero {w : Work} {n : Nat} (h : w.acc.toNat < 2 ^ (n * w.cnt.toNat)) (hcnt : w.cnt = 0) : w.acc = 0 := by
  rw [hcnt] at h
  exact BitVec.eq_of_toNat_eq (Nat.lt_one_iff.1 h)

/-- flush_low empties the group and emits the symbols that were pending (rules R126, R127). -/
theorem LowGroupOk.flushPending {w : Work} (h : LowGroupOk w) (t : Table) :
    ∃ out, flushPending t w = ({ w with acc := 0, cnt := 0 }, out) ∧ out.length = pendingSymbols w := by
  by_cases hpos : 0 < w.cnt.toNat
  · refine ⟨_, if_pos hpos, ?_⟩
    rw [packLow_length, pendingSymbols_of_pos hpos]
  · have hcnt := cnt_eq_zero hpos
    refine ⟨[], ?_, (pendingSymbols_of_empty hcnt).symm⟩
    rw [Machine.flushPending, if_neg hpos, ← hcnt, ← acc_eq_zero h.accBound hcnt]

/-- What closes an open high run is at most one byte, and none where a group is pending. -/
theorem LowGroupOk.closing_length {w : Work} (h : LowGroupOk w) (t : Table) :
    (closing t w).length ≤ 1 ∧ (0 < w.cnt.toNat → (closing t w).length = 0) := by
  unfold closing
  split_ifs with hm
  · exact ⟨le_rfl, fun hpos => by rw [h.highEmpty hm] at hpos; exact absurd hpos (by decide)⟩
  · exact ⟨Nat.zero_le _, fun _ => rfl⟩

/-- What a turn of ENCODE's loop from `w` to `r` keeps, and its share of the bound of rule R136: three bytes for an
input byte, those that become pending counted. -/
structure EncodeTurnOk (w : Work) (r : Work × List Byte) : Prop where
  group : LowGroupOk r.1
  cursor : r.1.o = w.o
  bound : r.2.length + pendingSymbols r.1 ≤ pendingSymbols w + 3

/-- A turn on a low byte: the byte is pending, or its group is full and is flushed. -/
theorem LowGroupOk.turn_low {w : Work} (h : LowGroupOk w) (t : Table) {b : Byte} (hb : classOf b = .low) :
    EncodeTurnOk w (encodeLowByte t w b) := by
  have hgroup := h.group
  obtain ⟨hclose, hnone⟩ := h.closing_length t
  have hnext : (w.cnt + 1).toNat = w.cnt.toNat + 1 := by bv_omega
  by_cases hfull : w.cnt + 1 = 6
  · have hfive : w.cnt.toNat = 5 := by rw [hfull] at hnext; exact (Nat.succ.inj hnext).symm
    have hnone := hnone (by omega)
    rw [encodeLowByte_of_full hfull]
    refine ⟨lowGroupOk_empty rfl rfl, rfl, ?_⟩
    rw [List.length_append, packLow_length, hfull, pendingSymbols_of_empty rfl, pendingSymbols_of_pos (by omega), hfive,
      hnone]
    decide
  · have hsix : w.cnt.toNat + 1 ≠ 6 := fun e => hfull (BitVec.eq_of_toNat_eq (hnext.trans e))
    have hroom : w.acc.toNat < 2 ^ 35 :=
      h.accBound.trans_le (Nat.pow_le_pow_right (by decide) (by omega))
    have hbyte : b.toNat < 2 ^ 7 := (classOf_eq_low_iff b).1 hb
    rw [encodeLowByte_of_short hfull]
    refine ⟨⟨?_, ?_, fun hm => nomatch hm⟩, rfl, ?_⟩
    · dsimp only
      omega
    · have hbound := h.accBound
      dsimp only
      rw [acc_push hroom ((classOf_eq_low_iff b).1 hb), hnext, Nat.mul_succ, pow_add]
      omega
    · rw [pendingSymbols_of_pos (w := { w with mode := .low, acc := _, cnt := w.cnt + 1 }) (by dsimp only; omega)]
      dsimp only
      by_cases hpos : 0 < w.cnt.toNat
      · have := hnone hpos
        rw [pendingSymbols_of_pos hpos]
        omega
      · rw [pendingSymbols_of_empty (cnt_eq_zero hpos)]
        omega

/-- Opening a high run, or staying in one, leaves no group pending and emits one byte more than was pending at most. -/
theorem LowGroupOk.openHighRun {w : Work} (h : LowGroupOk w) (t : Table) :
    (openHighRun t w).1.cnt = 0 ∧ (openHighRun t w).1.acc = 0 ∧ (openHighRun t w).1.o = w.o ∧
      (openHighRun t w).2.length ≤ pendingSymbols w + 1 := by
  cases hm : w.mode with
  | low =>
    obtain ⟨out, e, hlen⟩ := h.flushPending t
    rw [Machine.openHighRun, hm, e]
    exact ⟨rfl, rfl, rfl, by rw [List.length_append, hlen, List.length_singleton]⟩
  | high =>
    rw [Machine.openHighRun, hm]
    exact ⟨h.highEmpty hm, acc_eq_zero h.accBound (h.highEmpty hm), rfl, Nat.zero_le _⟩

/-- A turn of ENCODE's loop that raises nothing. -/
theorem LowGroupOk.turn {t : Table} {w : Work} (h : LowGroupOk w) {b : Byte} {r : Work × List Byte}
    (hr : encodeByte t w b = some r) : EncodeTurnOk w r := by
  obtain ⟨hb, e⟩ | ⟨-, -, e⟩ | ⟨vs, -, hvs, e⟩ := encodeByte_cases t w b <;> cases e.symm.trans hr
  · exact h.turn_low t hb
  · obtain ⟨hcnt, hacc, hcursor, hlen⟩ := h.openHighRun t
    have hvalues := highValues_length hvs
    refine ⟨lowGroupOk_empty hcnt hacc, hcursor, ?_⟩
    rw [List.length_append, List.length_map, pendingSymbols_of_empty hcnt]
    omega

/-- The end of the input emits what is pending and at most one delimiter (rule R136). -/
theorem LowGroupOk.encodeEnd {w : Work} (h : LowGroupOk w) (t : Table) :
    (encodeEnd t w).1.o = w.o ∧ (encodeEnd t w).2.length ≤ pendingSymbols w + 1 := by
  cases hm : w.mode with
  | low =>
    obtain ⟨out, e, hlen⟩ := h.flushPending t
    rw [Machine.encodeEnd, hm, e]
    exact ⟨rfl, hlen.le.trans (Nat.le_succ _)⟩
  | high =>
    rw [Machine.encodeEnd, hm]
    exact ⟨rfl, Nat.le_add_left _ _⟩

/-! ### The pending group of DECODE -/

/-- The part of `DecodeOk` that a turn looks at, after k bytes of the input: a group of values of 6 bits that is not
full, which in a high segment is what its symbol count leaves over whole triples. -/
structure SymbolGroupOk (k : Nat) (w : Work) : Prop where
  group : w.cnt.toNat < 7
  accBound : w.acc.toNat < 2 ^ (6 * w.cnt.toNat)
  triple : w.mode = .high → w.cnt.toNat = w.hcnt.toNat % 3
  highCount : w.hcnt.toNat ≤ k

/-- An emptied group, in either mode. -/
theorem symbolGroupOk_empty {k : Nat} {i o n : Word} {m : Mode} (hcount : n.toNat ≤ k)
    (htriple : m = .high → n.toNat % 3 = 0) : SymbolGroupOk k ⟨i, o, m, 0, 0, n⟩ :=
  ⟨Nat.succ_pos 6, Nat.two_pow_pos _, fun hm => (htriple hm).symm, hcount⟩

/-- What a turn of DECODE's loop from `w` to `r` keeps, and its share of the bound of rule R166: four bytes for three
symbols, those that become pending counted. -/
structure DecodeTurnOk (k : Nat) (w : Work) (r : Work × List Byte) : Prop where
  group : SymbolGroupOk (k + 1) r.1
  cursor : r.1.o = w.o
  bound : 3 * r.2.length + 4 * r.1.cnt.toNat ≤ 4 * w.cnt.toNat + 4

/-- flush_low_dec empties the group and emits a byte less than it has symbols (rule R160). -/
theorem SymbolGroupOk.flushPendingDec {k : Nat} {w : Work} (h : SymbolGroupOk k w) :
    ∃ out, flushPendingDec w = ({ w with acc := 0, cnt := 0 }, out) ∧ out.length = w.cnt.toNat - 1 := by
  by_cases hpos : 0 < w.cnt.toNat
  · exact ⟨_, if_pos hpos, unpackLow_length _ _⟩
  · have hcnt := cnt_eq_zero hpos
    refine ⟨[], ?_, by rw [hcnt]; rfl⟩
    rw [Machine.flushPendingDec, if_neg hpos, ← hcnt, ← acc_eq_zero h.accBound hcnt]

/-- A turn on a delimiter that raises nothing. -/
theorem SymbolGroupOk.turn_delim {k : Nat} {w : Work} (h : SymbolGroupOk k w) {r : Work × List Byte}
    (hr : decodeDelim w = .ok r) : DecodeTurnOk k w r := by
  obtain ⟨-, e⟩ | ⟨-, -, e⟩ | ⟨hm, hmod, e⟩ := decodeDelim_cases w <;> cases e.symm.trans hr
  · obtain ⟨out, eflush, hlen⟩ := h.flushPendingDec
    rw [eflush]
    refine ⟨symbolGroupOk_empty (Nat.zero_le _) fun _ => rfl, rfl, ?_⟩
    simp only [hlen, BitVec.ofNat_eq_ofNat, BitVec.toNat_ofNat]
    omega
  · refine ⟨⟨h.group, h.accBound, (fun hlow => nomatch hlow), h.highCount.trans (Nat.le_succ k)⟩, rfl, ?_⟩
    exact (Nat.zero_add _).trans_le (Nat.le_add_right _ _)

/-- A symbol that leaves the group pending. -/
theorem decodeSymbol_of_short {w : Work} (h : (w.cnt + 1).toNat ≠ groupSize w.mode) (d : Byte) :
    decodeSymbol w d =
      ({ w with acc := (w.acc <<< 6) ||| d.setWidth 42, cnt := w.cnt + 1, hcnt := countSymbol w }, []) := by
  obtain ⟨i, o, m, acc, cnt, n⟩ := w
  cases m with
  | low => exact if_neg fun e : cnt + 1 = 7 => h (congrArg BitVec.toNat e)
  | high => exact if_neg fun e : cnt + 1 = 3 => h (congrArg BitVec.toNat e)

/-- A symbol that completes the group: it gives four bytes for three symbols at most (rules R160, R162). -/
theorem decodeSymbol_of_full {w : Work} (h : (w.cnt + 1).toNat = groupSize w.mode) (d : Byte) :
    ∃ out, decodeSymbol w d = ({ w with acc := 0, cnt := 0, hcnt := countSymbol w }, out) ∧
      3 * out.length ≤ 4 * groupSize w.mode := by
  obtain ⟨i, o, m, acc, cnt, n⟩ := w
  cases m with
  | low =>
    have hseven : cnt + 1 = 7 := BitVec.eq_of_toNat_eq h
    refine ⟨_, if_pos hseven, ?_⟩
    dsimp only
    rw [unpackLow_length, hseven]
    decide
  | high =>
    have hthree : cnt + 1 = 3 := BitVec.eq_of_toNat_eq h
    refine ⟨_, if_pos hthree, ?_⟩
    exact Nat.mul_le_mul_left 3 (tripleBytes_length _ _ _).2

/-- The count of a high segment after a symbol, which does not wrap, for the input is too short. -/
theorem SymbolGroupOk.countSymbol {k : Nat} {w : Work} (h : SymbolGroupOk k w) (hk : k + 1 < 2 ^ 32) :
    (countSymbol w).toNat ≤ k + 1 ∧ (w.mode = .high → (countSymbol w).toNat = w.hcnt.toNat + 1) := by
  have hcount := h.highCount
  unfold Proofs.countSymbol
  split
  case h_1 hm => exact ⟨by omega, fun hhigh => nomatch hm.symm.trans hhigh⟩
  case h_2 hm =>
    have hnext : (w.hcnt + 1).toNat = w.hcnt.toNat + 1 := by bv_omega
    exact ⟨by omega, fun _ => hnext⟩

/-- The pending group has room for another symbol, in either mode. -/
theorem SymbolGroupOk.cnt_lt {k : Nat} {w : Work} (h : SymbolGroupOk k w) : w.cnt.toNat < groupSize w.mode := by
  cases hm : w.mode with
  | low => exact h.group
  | high => rw [h.triple hm]; exact Nat.mod_lt _ (by decide)

/-- A turn on a symbol of six bits. -/
theorem SymbolGroupOk.turn_symbol {k : Nat} {w : Work} (h : SymbolGroupOk k w) (hk : k + 1 < 2 ^ 32) {d : Byte}
    (hd : d.toNat < 64) : DecodeTurnOk k w (decodeSymbol w d) := by
  have hgroup := h.group
  have hroom := h.cnt_lt
  have hnext : (w.cnt + 1).toNat = w.cnt.toNat + 1 := by bv_omega
  obtain ⟨hcount, hhigh⟩ := h.countSymbol hk
  by_cases hfull : (w.cnt + 1).toNat = groupSize w.mode
  · obtain ⟨out, e, hlen⟩ := decodeSymbol_of_full hfull d
    rw [e]
    refine ⟨symbolGroupOk_empty hcount fun hm => ?_, rfl, ?_⟩
    · have htriple := h.triple hm
      have hthree : w.cnt.toNat + 1 = 3 := by rw [← hnext, hfull, hm, groupSize]
      have hcnt := hhigh hm
      omega
    · simp only [BitVec.ofNat_eq_ofNat, BitVec.toNat_ofNat]
      omega
  · rw [decodeSymbol_of_short hfull]
    have hsize : groupSize w.mode ≤ 7 := by cases w.mode <;> decide
    have hacc : w.acc.toNat < 2 ^ 36 :=
      h.accBound.trans_le (Nat.pow_le_pow_right (by decide) (by omega))
    have hbound := h.accBound
    refine ⟨⟨?_, ?_, fun hm => ?_, hcount⟩, rfl, ?_⟩
    · dsimp only
      omega
    · dsimp only
      rw [acc_push_symbol hacc hd, hnext, Nat.mul_succ, pow_add]
      omega
    · have htriple := h.triple hm
      have hcnt := hhigh hm
      have hthree : groupSize w.mode = 3 := by rw [show w.mode = .high from hm, groupSize]
      dsimp only
      omega
    · simp only [List.length_nil]
      omega

/-- A turn of DECODE's loop that raises nothing, under a table that is in order. -/
theorem SymbolGroupOk.turn {t : Table} (ht : TableOk t) {k : Nat} {w : Work} (h : SymbolGroupOk k w)
    (hk : k + 1 < 2 ^ 32) {b : Byte} {r : Work × List Byte} (hr : decodeByte t w b = .ok r) :
    DecodeTurnOk k w r := by
  obtain ⟨-, e⟩ | ⟨-, -, e⟩ | ⟨-, hv, e⟩ := decodeByte_cases t w b
  · exact h.turn_delim (e.symm.trans hr)
  · cases e.symm.trans hr
  · cases e.symm.trans hr
    exact h.turn_symbol hk (value_lt ht hv)

end Sys2Proof.Proofs
end

section
/-! PROOFS. The invariant of the engine (rules R3, R21, R30, R32, R34): the result and the working state of the job,
cycle by cycle, and the whole from its parts. -/

namespace Sys2Proof.Proofs

open Sys2Proof Sys2Proof.Machine Sys2Proof.Laws

/-! ### The result -/

/-- Every byte of OUT below `n` is known. -/
def KnownBelow (m : Memory) (n : Nat) : Prop := ∀ k < n, (m.read k).isSome = true

/-- Emit moves the cursor past its bytes and leaves all before it known, where they fit OUT. -/
theorem KnownBelow.emit {cap : Nat} {m : Memory} {o : Word} (h : KnownBelow m o.toNat) {out : List Byte}
    (hfit : o.toNat + out.length ≤ cap) (hcap : cap < 2 ^ 32) :
    (emitBytes cap m o out).2.toNat = o.toNat + out.length ∧
      KnownBelow (emitBytes cap m o out).1 (emitBytes cap m o out).2.toNat := by
  have hcursor : (emitBytes cap m o out).2.toNat = o.toNat + out.length := by
    rw [emitBytes_cursor, BitVec.toNat_add, BitVec.toNat_ofNat]
    omega
  refine ⟨hcursor, fun k hk => ?_⟩
  rw [hcursor] at hk
  rw [read_emitBytes m o out k hfit hcap]
  split_ifs with hnew
  · rw [List.getElem?_eq_getElem (by omega), Option.isSome_some]
  · exact h k (by omega)

/-- The result goes by the phase, OUT_LEN and OUT. -/
theorem resultOk_congr {s t : State} (h : ResultOk s) (hr : SameResults s t) (hp : t.params = s.params) :
    ResultOk t where
  lenBound := by rw [← hr.outLen, hp]; exact h.lenBound
  known := by rw [work_congr hr.phase.symm, ← hr.outLen, ← hr.outMem]; exact h.known
  specified := by rw [← hr.outLen, ← hr.outSpecified]; exact h.specified

/-- A job without a working state leaves the result as it is, whatever table it installs (rule R190). -/
theorem resultOk_complete_of_work_none {s : State} (h : ResultOk s) (hw : s.work = none) (r : JobOutcome) (x : Word)
    (d : Nat) (tbl : Table) : ResultOk (complete r x { s with draws := d, table := tbl }) := by
  rw [complete_of_work_none (s := { s with draws := d, table := tbl }) r x hw]
  exact ⟨h.lenBound, fun _ => h.known hw, h.specified⟩

/-- A failed ENCODE or DECODE leaves OUT_LEN 0 (rule R21). -/
theorem resultOk_complete_failed {s : State} {w : Work} (hw : s.work = some w) {r : JobOutcome} (hr : r ≠ .ok)
    (x : Word) : ResultOk (complete r x s) := by
  have hlen : (complete r x s).outLen = 0 := by rw [complete_outLen, hw]; exact if_neg hr
  refine ⟨?_, fun _ k hk => ?_, fun hne => absurd hlen hne⟩
  · rw [hlen]
    exact Nat.zero_le _
  · rw [hlen] at hk
    exact absurd hk (Nat.not_lt_zero k)

/-- A successful ENCODE or DECODE leaves the bytes in front of its output cursor (rules R21, R32). -/
theorem resultOk_complete_ok {s : State} {w : Work} (hw : s.work = some w) (hfit : w.o.toNat ≤ s.params.outCap)
    (hknown : KnownBelow s.outMem w.o.toNat) (x : Word) : ResultOk (complete .ok x s) := by
  have hlen : (complete .ok x s).outLen = w.o := by rw [complete_outLen, hw]; exact if_pos rfl
  refine ⟨hlen ▸ hfit, fun _ k hk => ?_, fun _ => ?_⟩
  · rw [hlen] at hk
    rw [complete_outMem, hw]
    exact (congrArg Option.isSome ((read_keepBelow _ _ _).trans (if_pos hk))).trans (hknown k hk)
  · rw [complete_outSpecified, hw]
    rfl

/-- In the course of an ENCODE or DECODE nothing is asked of the bytes of OUT. -/
theorem resultOk_emitJob {mk : Work → Job} (hmk : IsTransform mk) {s : State} (h : ResultOk s) (w : Work)
    (out : List Byte) : ResultOk (emitJob mk w out s) :=
  ⟨h.lenBound, fun hw => (nomatch (hmk.work (emitJob_phase mk w out s)).symm.trans hw), h.specified⟩

/-! ### The job in progress -/

theorem jobOk_of_idle {s : State} (h : s.phase = .idle) : JobOk s := by rw [JobOk, h]; trivial

/-- The job goes by the phase, LAST_OP and OUT, and by IN_LEN while it is in progress. -/
theorem jobOk_congr {s t : State} (h : JobOk s) (hr : SameResults s t) (hl : s.busy = true → t.inLen = s.inLen) :
    JobOk t := by
  obtain hp | ⟨j, hp⟩ := phase_cases s
  · exact jobOk_of_idle (hr.phase ▸ hp)
  · have hl := hl (busy_of_phase_busy hp)
    rw [JobOk, hp] at h
    rw [JobOk, ← hr.phase, hp]
    cases j with
    | build | loadDefault => exact hr.lastOp ▸ h
    | illegal c => trivial
    | encode w =>
      obtain ⟨hop, hw⟩ := h
      exact ⟨hr.lastOp ▸ hop, hl ▸ hw.cursor, hw.group, hw.accBound, hw.highEmpty, hw.outBound, hr.outMem ▸ hw.known⟩
    | decode w =>
      obtain ⟨hop, hw⟩ := h
      exact ⟨hr.lastOp ▸ hop, hl ▸ hw.cursor, hw.group, hw.accBound, hw.triple, hw.highCount, hw.outBound,
        hr.outMem ▸ hw.known⟩

/-- At the start of an ENCODE nothing is consumed, pending or emitted (rule R34). -/
theorem encodeOk_initial (s : State) : EncodeOk s Work.initial where
  cursor := Nat.zero_le _
  group := by decide
  accBound := by decide
  highEmpty _ := rfl
  outBound := by decide
  known _ hk := absurd hk (Nat.not_lt_zero _)

/-- At the start of a DECODE nothing is consumed, pending or emitted (rule R34). -/
theorem decodeOk_initial (s : State) : DecodeOk s Work.initial where
  cursor := Nat.zero_le _
  group := by decide
  accBound := by decide
  triple _ := rfl
  highCount := Nat.zero_le _
  outBound := by decide
  known _ hk := absurd hk (Nat.not_lt_zero _)

/-- An accepted job is in order from the start, and LAST_OP names it (rules R19, R34). -/
theorem jobOk_accept {c : Decoded} {j : Job} (hj : jobOf c = some j) {w : Word}
    (hw : ∀ i, c = .instr i → lowByte w = opcodeOf i) (s : State) : JobOk (accept j w s) := by
  cases c with
  | illegal c => cases hj; trivial
  | instr i =>
    have hop := hw i rfl
    cases i <;> cases hj
    · exact hop
    · exact hop
    · exact ⟨hop, encodeOk_initial _⟩
    · exact ⟨hop, decodeOk_initial _⟩

/-- The input cursor of a job that has consumed one more byte does not wrap. -/
theorem cursor_succ {i n : Word} (h : i.toNat < n.toNat) : (i + 1).toNat = i.toNat + 1 := by bv_omega

/-- A turn of ENCODE keeps its working state in order: three bytes of OUT for each byte of the input are enough
(rule R136). -/
theorem encodeOk_turn {s : State} {w : Work} (h : EncodeOk s w) (hcap : s.inLen.toNat ≤ s.params.cap)
    (hlt : w.i.toNat < s.inLen.toNat) {r : Work × List Byte} (hr : EncodeTurnOk w r) :
    EncodeOk (emitJob .encode { r.1 with i := w.i + 1 } r.2 s)
      { r.1 with i := w.i + 1, o := (emitBytes s.params.outCap s.outMem r.1.o r.2).2 } := by
  have hbound := h.outBound
  have hturn := hr.bound
  have hnext := cursor_succ hlt
  have hstart : KnownBelow s.outMem r.1.o.toNat := hr.cursor.symm ▸ h.known
  have hfit : r.1.o.toNat + r.2.length ≤ s.params.outCap := by rw [hr.cursor, outCap_eq]; omega
  obtain ⟨hcursor, hknown⟩ := hstart.emit hfit (outCap_lt _)
  have hsame := congrArg BitVec.toNat hr.cursor
  refine ⟨hnext ▸ hlt, hr.group.group, hr.group.accBound, hr.group.highEmpty, ?_, hknown⟩
  change (emitBytes s.params.outCap s.outMem r.1.o r.2).2.toNat + pendingSymbols r.1 ≤ 3 * (w.i + 1).toNat
  omega

/-- A turn of DECODE keeps its working state in order: four bytes of OUT for three symbols are enough (rule R166). -/
theorem decodeOk_turn {s : State} {w : Work} (h : DecodeOk s w) (hcap : s.inLen.toNat ≤ s.params.cap)
    (hlt : w.i.toNat < s.inLen.toNat) {r : Work × List Byte} (hr : DecodeTurnOk w.i.toNat w r) :
    DecodeOk (emitJob .decode { r.1 with i := w.i + 1 } r.2 s)
      { r.1 with i := w.i + 1, o := (emitBytes s.params.outCap s.outMem r.1.o r.2).2 } := by
  have hbound := h.outBound
  have hturn := hr.bound
  have hnext := cursor_succ hlt
  have hstart : KnownBelow s.outMem r.1.o.toNat := hr.cursor.symm ▸ h.known
  have hfit : r.1.o.toNat + r.2.length ≤ s.params.outCap := by rw [hr.cursor, outCap_eq]; omega
  obtain ⟨hcursor, hknown⟩ := hstart.emit hfit (outCap_lt _)
  have hsame := congrArg BitVec.toNat hr.cursor
  refine ⟨hnext ▸ hlt, hr.group.group, hr.group.accBound, hr.group.triple, hnext ▸ hr.group.highCount, ?_, hknown⟩
  change 3 * (emitBytes s.params.outCap s.outMem r.1.o r.2).2.toNat + 4 * r.1.cnt.toNat ≤ 4 * (w.i + 1).toNat
  omega

/-! ### The cycles -/

/-- What the cycles of a job keep of the engine's invariant, beside STATUS and the buffers. -/
structure WorkOk (s : State) : Prop where
  table : TableOk s.table
  result : ResultOk s
  job : JobOk s

/-- A completed job leaves no working state to be in order. -/
theorem resultOk_and_jobOk_complete {r : JobOutcome} {x : Word} {s : State} (h : ResultOk (complete r x s)) :
    ResultOk (complete r x s) ∧ JobOk (complete r x s) :=
  ⟨h, jobOk_of_idle (complete_phase r x s)⟩

/-- The end of an ENCODE or DECODE whose last bytes fit OUT leaves them known. -/
theorem resultOk_end {mk : Work → Job} (hmk : IsTransform mk) {s : State} {o : Word}
    (hknown : KnownBelow s.outMem o.toNat) {w : Work} (ho : w.o = o) {out : List Byte}
    (hfit : o.toNat + out.length ≤ s.params.outCap) : ResultOk (complete .ok 0 (emitJob mk w out s)) := by
  subst ho
  obtain ⟨hcursor, hknown⟩ := hknown.emit hfit (outCap_lt _)
  exact resultOk_complete_ok (hmk.work (emitJob_phase ..)) (hcursor ▸ hfit) hknown 0

/-- A cycle of ENCODE keeps the result and the working state in order. -/
theorem encodeCycle_workOk {s : State} {w : Work} (hp : s.phase = .busy (.encode w)) (hr : ResultOk s)
    (hop : s.lastOp = opcodeOf .encode) (h : EncodeOk s w) :
    ResultOk (encodeCycle w s) ∧ JobOk (encodeCycle w s) := by
  have hmk : IsTransform .encode := .inl rfl
  have hgroup : LowGroupOk w := ⟨h.group, h.accBound, h.highEmpty⟩
  obtain ⟨-, e⟩ | ⟨-, -, -, e⟩ | ⟨r, hcap, hlt, hturn, e⟩ | ⟨hcap, -, e⟩ := encodeCycle_cases w s <;> rw [e]
  · exact resultOk_and_jobOk_complete (resultOk_complete_failed (hmk.work hp) (by decide) _)
  · exact resultOk_and_jobOk_complete (resultOk_complete_failed (hmk.work hp) (by decide) _)
  · exact ⟨resultOk_emitJob hmk hr _ _, hop, encodeOk_turn h hcap hlt (hgroup.turn hturn)⟩
  · obtain ⟨hcursor, hlen⟩ := hgroup.encodeEnd s.table
    have hbound := h.outBound
    have hconsumed := h.cursor
    exact resultOk_and_jobOk_complete (resultOk_end hmk h.known hcursor (by rw [outCap_eq]; omega))

/-- A cycle of DECODE keeps the result and the working state in order, under a table that is. -/
theorem decodeCycle_workOk {s : State} {w : Work} (hp : s.phase = .busy (.decode w)) (ht : TableOk s.table)
    (hr : ResultOk s) (hop : s.lastOp = opcodeOf .decode) (h : DecodeOk s w) :
    ResultOk (decodeCycle w s) ∧ JobOk (decodeCycle w s) := by
  have hmk : IsTransform .decode := .inr rfl
  have hgroup : SymbolGroupOk w.i.toNat w := ⟨h.group, h.accBound, h.triple, h.highCount⟩
  obtain ⟨-, e⟩ | ⟨_, -, -, -, e⟩ | ⟨r, hcap, hlt, hturn, e⟩ | ⟨-, -, -, e⟩ | ⟨hcap, -, -, e⟩ :=
    decodeCycle_cases w s <;> rw [e]
  · exact resultOk_and_jobOk_complete (resultOk_complete_failed (hmk.work hp) (by decide) _)
  · exact resultOk_and_jobOk_complete (resultOk_complete_failed (hmk.work hp) (by simp) _)
  · have hword := s.inLen.isLt
    exact ⟨resultOk_emitJob hmk hr _ _, hop, decodeOk_turn h hcap hlt (hgroup.turn ht (by omega) hturn)⟩
  · exact resultOk_and_jobOk_complete (resultOk_complete_failed (hmk.work hp) (by decide) _)
  · obtain ⟨out, e, hlen⟩ := hgroup.flushPendingDec
    have hbound := h.outBound
    have hconsumed := h.cursor
    rw [e]
    exact resultOk_and_jobOk_complete (resultOk_end hmk h.known rfl (out := out) (by rw [outCap_eq]; omega))

/-- The jobs without a working state. -/
theorem work_eq_none {s : State} {j : Job} (hp : s.phase = .busy j) (he : ∀ w, j ≠ .encode w)
    (hd : ∀ w, j ≠ .decode w) : s.work = none := by
  rw [State.work, hp]
  cases j with
  | encode w => exact absurd rfl (he w)
  | decode w => exact absurd rfl (hd w)
  | build | loadDefault | illegal _ => rfl

/-- A cycle keeps the result and the working state in order, under a table that is. -/
theorem jobCycle_resultOk_jobOk {s : State} (h : WorkOk s) : ResultOk (jobCycle s) ∧ JobOk (jobCycle s) := by
  obtain hp | ⟨j, hp⟩ := phase_cases s
  · rw [jobCycle_idle hp]
    exact ⟨h.result, h.job⟩
  have hr : ResultOk { s with draws := s.draws + 1 } := ⟨h.result.lenBound, h.result.known, h.result.specified⟩
  have hj := h.job
  rw [JobOk, hp] at hj
  rw [jobCycle_busy hp]
  cases j with
  | build =>
    have hw : s.work = none := work_eq_none hp (by simp) (by simp)
    obtain ⟨c, -, e⟩ | ⟨-, e⟩ := buildCycle_cases { s with draws := s.draws + 1 } <;> rw [jobWork_build, e] <;>
      exact resultOk_and_jobOk_complete (resultOk_complete_of_work_none h.result hw _ _ _ _)
  | loadDefault =>
    have hw : s.work = none := work_eq_none hp (by simp) (by simp)
    rw [jobWork_loadDefault]
    exact resultOk_and_jobOk_complete (resultOk_complete_of_work_none h.result hw _ _ _ _)
  | illegal c =>
    have hw : s.work = none := work_eq_none hp (by simp) (by simp)
    exact resultOk_and_jobOk_complete (resultOk_complete_of_work_none h.result hw _ _ _ _)
  | encode w =>
    obtain ⟨hop, hw⟩ := hj
    exact encodeCycle_workOk (s := { s with draws := s.draws + 1 }) hp hr hop
      ⟨hw.cursor, hw.group, hw.accBound, hw.highEmpty, hw.outBound, hw.known⟩
  | decode w =>
    obtain ⟨hop, hw⟩ := hj
    exact decodeCycle_workOk (s := { s with draws := s.draws + 1 }) hp h.table hr hop
      ⟨hw.cursor, hw.group, hw.accBound, hw.triple, hw.highCount, hw.outBound, hw.known⟩

theorem jobCycle_workOk (s : State) (h : WorkOk s) : WorkOk (jobCycle s) :=
  have ⟨hresult, hjob⟩ := jobCycle_resultOk_jobOk h
  ⟨jobCycle_tableOk s h.table, hresult, hjob⟩

/-! ### The invariant of the engine -/

/-- A write of a row leaves IN_LEN alone while a job is in progress (rule R214). -/
theorem writeTarget_inLen_of_busy (t : Target) (v : Word) {s : State} (h : s.busy = true) :
    (writeTarget t v s).inLen = s.inLen := by
  obtain e | e | e | ⟨hidle, -⟩ := writeTarget_cases t v s
  · rw [e]
  · rw [e]
  · rw [e, acknowledge_inLen]
  · exact absurd (hidle.symm.trans h) Bool.false_ne_true

/-- OUT_LEN is 0 after reset (rule R210). -/
theorem resultOk_resetFor (p : Params) : ResultOk (State.resetFor p) :=
  ⟨Nat.zero_le _, fun _ _ hk => absurd hk (Nat.not_lt_zero _), fun hne => absurd rfl hne⟩

/-- Every part of a step keeps the table, the result and the working state in order. -/
theorem workOk_keptByParts : KeptByParts WorkOk where
  platform s es d h :=
    have hr : SameResults s { s with inbox := es, readData := d } := by constructor <;> rfl
    ⟨h.table, resultOk_congr h.result hr rfl, jobOk_congr h.job hr fun _ => rfl⟩
  cycle := jobCycle_workOk
  reset s _ :=
    have hr := resultOk_resetFor s.params
    ⟨predefinedTable_tableOk, ⟨hr.lenBound, hr.known, hr.specified⟩, jobOk_of_idle rfl⟩
  write t v s h :=
    have hr := writeTarget_sameResults t v s
    ⟨hr.table ▸ h.table, resultOk_congr h.result hr (writeTarget_params t v s),
      jobOk_congr h.job hr (writeTarget_inLen_of_busy t v)⟩
  accept _ j w s hj hw hidle h :=
    have hnone : s.work = none := by simp only [State.work, phase_idle_of_not_busy hidle]
    ⟨h.table, ⟨h.result.lenBound, fun _ => h.result.known hnone, h.result.specified⟩, jobOk_accept hj hw s⟩

/-- Settles O56: nothing is in progress, listed or emitted, and the table is the predefined one. -/
theorem resetStateIsInOrder : Obligations.ResetStateIsInOrder := fun p =>
  ⟨predefinedTable_tableOk, statusOk_resetFor p, ⟨wf_empty _, wf_empty _⟩, resultOk_resetFor p, jobOk_of_idle rfl⟩

/-- Settles O57: STATUS and the buffers by their own invariants, and the rest by the parts of a step. -/
theorem engineInvariantIsKept : Obligations.EngineInvariantIsKept := by
  intro s t h ht
  have hwork := workOk_keptByParts.step ⟨h.table, h.result, h.job⟩ ht
  exact ⟨hwork.table, statusDisciplineIsKept s t h.status ht, buffersStayInsideTheirCapacity s t h.buffers ht,
    hwork.result, hwork.job⟩

end Sys2Proof.Proofs
end

section
/-! PROOFS. The register map and the host's accesses (rules R10, R52, R53, R56): where an access goes, what a read
answers, and that no access and no step fails. -/

namespace Sys2Proof.Proofs

open Sys2Proof Sys2Proof.Machine Sys2Proof.Laws

/-! ### Where an access goes -/

/-- An access inside the map reaches the engine at its offset (rule R10). -/
theorem engineOffset_base_add (p : Params) {n : Nat} (h : n < 0x08000000) :
    engineOffset p (p.base + n) = some (BitVec.ofNat 32 n) := by
  rw [engineOffset, Nat.add_sub_cancel_left, if_pos ⟨Nat.le_add_right _ _, h⟩]

/-- An access outside the map does not reach the engine (rule R10). -/
theorem engineOffset_outside {p : Params} {addr : Nat} (h : addr < p.base ∨ p.base + 0x08000000 ≤ addr) :
    engineOffset p addr = none := by
  refine if_neg fun hin => ?_
  obtain ⟨hlo, hhi⟩ := hin
  rw [mapBytes] at hhi
  omega

/-- The mask of rule R52 keeps the bits from 2 on. -/
theorem wordMask_getLsbD : ∀ i < 32, (0xFFFFFFFC : Word).getLsbD i = !decide (i < 2) := by decide

/-- Dropping the bits 1 and 0 of an offset is rounding it down to a word (rule R52). -/
theorem wordOffset_toNat (a : Word) : (wordOffset a).toNat = a.toNat / 4 * 4 := by
  have hshift : wordOffset a = a >>> 2 <<< 2 := by
    refine BitVec.eq_of_getLsbD_eq fun i hi => ?_
    rw [wordOffset, BitVec.getLsbD_and, wordMask_getLsbD i hi, BitVec.getLsbD_shiftLeft, BitVec.getLsbD_ushiftRight]
    by_cases hlow : i < 2
    · simp [hlow]
    · simp [hlow, hi, Nat.add_sub_of_le (Nat.le_of_not_lt hlow)]
  have hword := a.isLt
  rw [hshift, BitVec.toNat_shiftLeft, BitVec.toNat_ushiftRight, Nat.shiftRight_eq_div_pow, Nat.shiftLeft_eq,
    Nat.mod_eq_of_lt (by omega)]

/-- The row an offset reaches, by ranges of the offset itself: a range that begins and ends at a word holds an offset
where it holds the offset's word (rules R10, R52). -/
theorem targetOf_ofNat {n : Nat} (h : n < 2 ^ 32) : targetOf (BitVec.ofNat 32 n) =
    if n < 0x100 then registerOf (n / 4)
    else if n < 0x140 then .alpha ((n - 0x100) / 4)
    else if n < 0x200 then .reserved
    else if n < 0x300 then .encTbl ((n - 0x200) / 4)
    else if n < 0x400 then .decTbl ((n - 0x300) / 4)
    else if n < 0x01000000 then .reserved
    else if n < 0x02000000 then .inWin ((n - 0x01000000) / 4)
    else if n < 0x04000000 then .reserved
    else if n < 0x08000000 then .outWin ((n - 0x04000000) / 4)
    else .reserved := by
  have hoff : (wordOffset (BitVec.ofNat 32 n)).toNat = n / 4 * 4 := by
    rw [wordOffset_toNat, BitVec.toNat_ofNat, Nat.mod_eq_of_lt h]
  have hlt {c : Nat} (hc : 4 ∣ c) : n / 4 * 4 < c ↔ n < c := by omega
  have hsub {c : Nat} (hc : 4 ∣ c) : (n / 4 * 4 - c) / 4 = (n - c) / 4 := by omega
  simp only [targetOf, hoff, hlt (by decide : 4 ∣ 0x100), hlt (by decide : 4 ∣ 0x140), hlt (by decide : 4 ∣ 0x200),
    hlt (by decide : 4 ∣ 0x300), hlt (by decide : 4 ∣ 0x400), hlt (by decide : 4 ∣ 0x01000000),
    hlt (by decide : 4 ∣ 0x02000000), hlt (by decide : 4 ∣ 0x04000000), hlt (by decide : 4 ∣ 0x08000000),
    hsub (by decide : 4 ∣ 0x100), hsub (by decide : 4 ∣ 0x200), hsub (by decide : 4 ∣ 0x300),
    hsub (by decide : 4 ∣ 0x01000000), hsub (by decide : 4 ∣ 0x04000000), Nat.mul_div_left _ (by decide : 0 < 4)]

/-- A register's offset and the three after it reach the register (rules R10, R52). -/
theorem targetOf_register {n k : Nat} (hk : k < 64) (hlo : 4 * k ≤ n) (hhi : n < 4 * k + 4) :
    targetOf (BitVec.ofNat 32 n) = registerOf k := by
  rw [targetOf_ofNat (by omega), if_pos (by omega), show n / 4 = k by omega]

/-- Word numbers from 13 on are no registers (rule R10). -/
theorem registerOf_reserved {k : Nat} (h : 13 ≤ k) : registerOf k = .reserved := by
  unfold registerOf
  split
  case h_14 => rfl
  all_goals omega

/-- Settles O22: a register's row by its word number, and a window's by its range. -/
theorem registerMapRows : Obligations.RegisterMapRows := by
  intro n
  refine ⟨fun h => targetOf_register (k := 0) (by decide) (Nat.zero_le n) h, targetOf_register (k := 1) (by decide),
    targetOf_register (k := 2) (by decide), targetOf_register (k := 3) (by decide),
    targetOf_register (k := 4) (by decide), targetOf_register (k := 5) (by decide),
    targetOf_register (k := 6) (by decide), targetOf_register (k := 7) (by decide),
    targetOf_register (k := 8) (by decide), targetOf_register (k := 9) (by decide),
    targetOf_register (k := 10) (by decide), targetOf_register (k := 11) (by decide),
    targetOf_register (k := 12) (by decide), fun hlo hhi => ?_, ?_⟩
  · rw [targetOf_register (k := n / 4) (by omega) (by omega) (by omega), registerOf_reserved (by omega)]
  · refine ⟨?_, ?_, ?_, ?_, ?_, ?_, ?_, ?_⟩ <;>
      · intro hlo hhi
        rw [targetOf_ofNat (by omega)]
        grind

end Sys2Proof.Proofs
end

section
/-! PROOFS. What a host reads and writes at each row (rules R13 to R32, R51, R53): the lanes of a word, the registers
and the windows. -/

namespace Sys2Proof.Proofs

open Sys2Proof Sys2Proof.Machine Sys2Proof.Laws

/-! ### Lanes -/

/-- A word is its lanes. -/
theorem wordOfLanes_laneOf (v : Word) : wordOfLanes (laneOf v) = v := by
  refine BitVec.eq_of_getLsbD_eq fun i hi => ?_
  simp only [wordOfLanes, laneOf, BitVec.getLsbD_append, BitVec.getLsbD_extractLsb']
  grind

/-- A window's word is fixed by its four bytes. -/
theorem windowWord_congr {f g : Nat → Byte} {k l : Nat} (h : ∀ j < 4, f (4 * k + j) = g (4 * l + j)) :
    windowWord f k = windowWord g l := by
  simp only [windowWord, wordOfLanes, h 0 (by decide), h 1 (by decide), h 2 (by decide), h 3 (by decide)]

/-- A window whose four bytes are the lanes of `v` reads as `v`. -/
theorem windowWord_eq {f : Nat → Byte} {k : Nat} {v : Word} (h : ∀ j < 4, f (4 * k + j) = laneOf v j) :
    windowWord f k = v := by
  rw [← wordOfLanes_laneOf v]
  simp only [windowWord, wordOfLanes, h 0 (by decide), h 1 (by decide), h 2 (by decide), h 3 (by decide)]

/-! ### Reads -/

/-- What a row reads as does not depend on the MODEL's record of the last read. -/
theorem readTarget_readData (t : Target) (s : State) (d : Option Word) :
    readTarget t { s with readData := d } = readTarget t s := by
  cases t <;> rfl

/-- Settles O24: such an address has no offset in the engine. -/
theorem accessOutsideTheMapHasNoEffect : Obligations.AccessOutsideTheMapHasNoEffect := by
  intro s addr v mask h
  simp only [deliver, engineOffset_outside h, and_self]

/-- Settles O25: the second read finds the state of the first but for the record, which no row shows. -/
theorem hostReadHasNoSideEffect : Obligations.HostReadHasNoSideEffect := by
  intro s n h
  simp only [deliver, engineOffset_base_add s.params h, hostRead, readTarget_readData, and_self]

/-- Byte i of ALPHA as a read shows it (rule R25). -/
theorem alphaByte_of_lt (s : State) {i : Nat} (h : i < 64) : s.alphaByte i = s.alpha[i] := by
  simp [State.alphaByte, h]

/-- Settles O28: the row at each of the offsets, and the lanes of the ALPHA window. -/
theorem registerReadsShowTheRegisters : Obligations.RegisterReadsShowTheRegisters := fun s =>
  ⟨rfl, rfl, rfl, rfl, rfl, rfl, rfl, rfl, fun _ _ hj _ =>
    (lane_windowWord s.alphaByte _ hj).trans (alphaByte_of_lt s (by omega))⟩

/-- Settles O32: the lanes of the two windows, inside the 256 bytes of each table. -/
theorem tableWindowsShowTheTable : Obligations.TableWindowsShowTheTable := by
  intro s k j hj hk
  have hlt : 4 * k + j < 256 := by omega
  refine ⟨(lane_windowWord s.encByte k hj).trans ?_, (lane_windowWord s.decByte k hj).trans ?_⟩
  · simp [State.encByte, hlt]
  · simp [State.decByte, hlt]

/-- A specified byte of OUT reads as it while no ENCODE or DECODE is in progress (rule R32). -/
theorem outByte_of_outResult {s : State} {i : Nat} {b : Byte} (hw : s.work = none) (h : s.outResult i = some b) :
    s.outByte i = b := by
  simp only [State.outByte, hw, h]

/-- Settles O31: the lane is byte 4k + j of the window, which is 0 from OUT_CAP on. -/
theorem outWindowShowsTheResult : Obligations.OutWindowShowsTheResult := by
  intro s k j hj
  have hlane := lane_windowWord s.outWinByte k hj
  refine ⟨fun h => hlane.trans (if_neg (Nat.not_lt.2 h)), fun b hw hlt hb => hlane.trans ?_⟩
  exact (if_pos hlt).trans (outByte_of_outResult hw hb)

/-! ### Writes of the registers -/

/-- A register of eight bits reads back with zeros above (rule R23). -/
theorem lowByte_setWidth (v : Word) : (lowByte v).setWidth 32 = v &&& 0xFF := by
  refine BitVec.eq_of_toNat_eq ?_
  have hmask := Nat.and_two_pow_sub_one_eq_mod v.toNat 8
  rw [lowByte, BitVec.toNat_setWidth, BitVec.extractLsb'_toNat, Nat.shiftRight_zero, BitVec.toNat_and]
  exact (Nat.mod_eq_of_lt (by omega)).trans hmask.symm

/-- A register of one bit reads back with zeros above (rule R13). -/
theorem bitWord_getLsbD_zero (v : Word) : bitWord (v.getLsbD 0) = v &&& 1 := by
  refine BitVec.eq_of_getLsbD_eq fun i hi => ?_
  have hone : (1 : Word).getLsbD i = decide (i = 0) := by simp
  rw [getLsbD_bitWord, BitVec.getLsbD_and, hone, Bool.and_comm]
  by_cases h : i = 0 <;> simp [h]

/-- Byte i of ALPHA after a write of word k. -/
theorem writeAlpha_getElem (k : Nat) (v : Word) (a : Vector Byte 64) {i : Nat} (h : i < 64) :
    (writeAlpha k v a)[i] = if i / 4 = k then laneOf v (i % 4) else a[i] := by
  simp [writeAlpha]

/-- What a write stores in an idle engine, row by row (rules R20, R23, R24, R25, R31). -/
theorem writeTarget_inLen {s : State} (h : s.busy = false) (v : Word) :
    writeTarget .inLen v s = { s with inLen := v } := frozen_idle h _

theorem writeTarget_alphaLen {s : State} (h : s.busy = false) (v : Word) :
    writeTarget .alphaLen v s = { s with alphaLen := v } := frozen_idle h _

theorem writeTarget_delim {s : State} (h : s.busy = false) (v : Word) :
    writeTarget .delim v s = { s with delim := lowByte v } := frozen_idle h _

theorem writeTarget_alpha {s : State} (h : s.busy = false) (k : Nat) (v : Word) :
    writeTarget (.alpha k) v s = { s with alpha := writeAlpha k v s.alpha } := frozen_idle h _

theorem writeTarget_inWin {s : State} (h : s.busy = false) (k : Nat) (v : Word) :
    writeTarget (.inWin k) v s = { s with inMem := writeLanes s.params.cap k v 4 s.inMem } := frozen_idle h _

/-- A word of ALPHA reads back as written, and the others as before (rules R25, R51). -/
theorem readTarget_alpha_writeTarget {s : State} (h : s.busy = false) (v : Word) {k l : Nat} (hl : l < 16) :
    readTarget (.alpha l) (writeTarget (.alpha k) v s) = if l = k then v else readTarget (.alpha l) s := by
  have hbyte (j : Nat) (hj : j < 4) : State.alphaByte { s with alpha := writeAlpha k v s.alpha } (4 * l + j) =
      if l = k then laneOf v j else s.alphaByte (4 * l + j) := by
    rw [alphaByte_of_lt _ (by omega), alphaByte_of_lt _ (by omega), writeAlpha_getElem k v s.alpha (by omega),
      show (4 * l + j) / 4 = l by omega, show (4 * l + j) % 4 = j by omega]
  rw [writeTarget_alpha h]
  split_ifs with hkl
  · exact windowWord_eq fun j hj => (hbyte j hj).trans (if_pos hkl)
  · exact windowWord_congr fun j hj => (hbyte j hj).trans (if_neg hkl)

/-- Settles O29: an idle engine is not frozen, and each field reads back with the bits it has. -/
theorem registerWritesReadBack : Obligations.RegisterWritesReadBack := by
  intro s v h
  refine ⟨writeTarget_inLen h v, writeTarget_alphaLen h v, ?_, ?_, ?_, bitWord_getLsbD_zero v,
    fun k l _ hl => readTarget_alpha_writeTarget h v hl, fun k => ⟨_, writeTarget_alpha h k v⟩,
    writeTarget_delim h v, rfl⟩
  · rw [writeTarget_inLen h]; rfl
  · rw [writeTarget_alphaLen h]; rfl
  · rw [writeTarget_delim h]; exact lowByte_setWidth v

/-! ### The IN window -/

/-- Byte i of IN after a write of word k, by the word and the lane of i (rules R31, R53). -/
theorem read_writeLanes_word (cap k : Nat) (v : Word) (m : Memory) (i : Nat) :
    (writeLanes cap k v 4 m).read i =
      if i / 4 = k ∧ i < cap then some (laneOf v (i % 4)) else m.read i := by
  rw [read_writeLanes]
  by_cases hk : i / 4 = k
  · have hlane : i - 4 * k = i % 4 := by omega
    rw [hlane]
    exact if_congr (by omega) rfl rfl
  · rw [if_neg (by omega), if_neg (by omega)]

/-- A byte that IN lists shows in the window below IN_CAP (rule R31). -/
theorem inWinByte_of_read {s : State} {i : Nat} {b : Byte} (hlt : i < s.params.cap) (h : s.inMem.read i = some b) :
    s.inWinByte i = b := (if_pos hlt).trans (inByte_of_read h)

/-- Settles O30: the lane is byte 4k + j of the window, and a write stores the lanes below IN_CAP. -/
theorem inWindowWriteStoresItsLanes : Obligations.InWindowWriteStoresItsLanes := by
  intro s k
  refine ⟨fun j hj => ?_, fun v h => ⟨writeLanes s.params.cap k v 4 s.inMem, writeTarget_inWin h k v,
    read_writeLanes_word s.params.cap k v s.inMem, fun hfits => windowWord_eq fun j hj => ?_⟩⟩
  · have hlane := lane_windowWord s.inWinByte k hj
    exact ⟨fun hge => hlane.trans (if_neg (Nat.not_lt.2 hge)), fun b hlt hb => hlane.trans (inWinByte_of_read hlt hb)⟩
  · refine inWinByte_of_read (by dsimp only; omega) ((read_writeLanes_word _ k v _ _).trans ?_)
    rw [if_pos ⟨by omega, by omega⟩, show (4 * k + j) % 4 = j by omega]

end Sys2Proof.Proofs
end

section
/-! PROOFS. Commands as the host issues them, and what a step can do, said once (rules R14, R59, R62, R74, R181,
R186): who changes the results, the table and the inputs. -/

namespace Sys2Proof.Proofs

open Sys2Proof Sys2Proof.Machine Sys2Proof.Laws

/-! ### Command words -/

/-- The table's 32 bits of a command's word decode to the command (rule R71). -/
theorem decodeTableWord_encodeInstr (i : Instr) : decodeTableWord 32 (encodeInstr i).toNat = some i := by
  rw [decodeTableWord, Nat.mod_eq_of_lt (encodeInstr i).isLt, BitVec.ofNat_toNat, BitVec.setWidth_eq,
    decodeCmd_encodeInstr]

/-- Settles O1: the five words are the encoded words of the commands. -/
theorem opcodeMapWordsDecode : Obligations.OpcodeMapWordsDecode :=
  ⟨decodeCmd_encodeInstr .nop, decodeCmd_encodeInstr .build, decodeCmd_encodeInstr .loadDefault,
    decodeCmd_encodeInstr .encode, decodeCmd_encodeInstr .decode,
    fun i _ => ⟨decodeCmd_encodeInstr i, decodeTableWord_encodeInstr i⟩⟩

/-- Every word but 0 stands for a job (rule R181). -/
theorem exists_jobOf {w : Word} (hw : w ≠ 0) : ∃ j, jobOf (decodeCmd w) = some j := by
  obtain ⟨i, rfl, -, e⟩ | ⟨-, e⟩ | ⟨-, -, e⟩ := decodeCmd_cases w <;> rw [e]
  · cases i with
    | nop => exact absurd rfl hw
    | build | loadDefault | encode | decode => exact ⟨_, rfl⟩
  · exact ⟨_, rfl⟩
  · exact ⟨_, rfl⟩

/-! ### Commands -/

/-- Settles O3: NOP has no job. -/
theorem nopHasNoEffect : Obligations.NopHasNoEffect := fun _ => rfl

/-- No command is run while BUSY is 1 (rules R181, R215). -/
theorem exec_busy (i : Instr) {s : State} (h : s.busy = true) : exec i s = .next s := by
  obtain ⟨-, e⟩ | ⟨j, -, e⟩ := exec_cases i s
  · exact e
  · rw [e, runCommand_busy j _ h]

/-- Settles O4: the command and the word are dropped. -/
theorem commandWhileBusyIsDropped : Obligations.CommandWhileBusyIsDropped := fun _ h =>
  ⟨fun i => exec_busy i h, fun w => issueCommand_busy w h⟩

/-- Settles O10: the first cycle of either job ends it. -/
theorem longInputIsBadLen : Obligations.LongInputIsBadLen := by
  rintro s i (rfl | rfl) h hover
  · exact ⟨_, _, exec_encode_badLen h hover⟩
  · exact ⟨_, _, exec_decode_badLen h hover⟩

/-- With clocked jobs a word other than 0 is accepted in an idle engine (rule R181). -/
theorem issueCommand_starts {s : State} (hp : s.params.pacing = .clocked) (hidle : s.busy = false) {w : Word} {j : Job}
    (hj : jobOf (decodeCmd w) = some j) : issueCommand w s = .next (accept j w s) := by
  simp only [issueCommand, hp, hj, startCommand, hidle, Bool.false_eq_true, if_false]

/-- With atomic jobs a legal word runs its command (rule R181). -/
theorem issueCommand_legal {s : State} (hp : s.params.pacing = .atomic) {w : Word} {i : Instr}
    (hi : decodeCmd w = .instr i) : issueCommand w s = exec i s := by
  simp only [issueCommand, hp, hi]

/-- The word 0 has no effect, in either latency form (rule R181). -/
theorem issueCommand_zero (s : State) : issueCommand 0 s = .next s := by
  unfold issueCommand
  split <;> rfl

/-! ### A write to CMD as a step -/

/-- A host write anywhere in the CMD word issues the word (rules R14, R52). -/
theorem step_cmdWrite {s : State} {w : Word} {rest : List Event} {j : Nat} (hj : j < 4)
    (h : s.inbox = .write (s.params.base + 0x00C + j) w :: rest) :
    step s = issueCommand w { s with inbox := rest, readData := none } := by
  have hoff : engineOffset s.params (s.params.base + 0x00C + j) = some (BitVec.ofNat 32 (0x00C + j)) := by
    rw [Nat.add_assoc, engineOffset_base_add _ (by omega)]
  have hcmd : targetOf (BitVec.ofNat 32 (0x00C + j)) = .cmd :=
    targetOf_register (k := 3) (by decide) (by omega) (by omega)
  rw [step_of_inbox_cons h]
  simp only [deliver, hoff, hostWrite, hcmd]

/-- Settles O12: the write issues its word, which atomic jobs run whole. -/
theorem stepRunsTheDecodedCommand : Obligations.StepRunsTheDecodedCommand := by
  intro s w rest j hj hp h
  rw [step_cmdWrite hj h]
  exact ⟨fun i _ hi => issueCommand_legal (s := { s with inbox := rest, readData := none }) hp hi,
    fun c hc => issueCommand_illegal (s := { s with inbox := rest, readData := none }) hp hc⟩

/-- Settles O13: the write issues its word, which clocked jobs accept. -/
theorem acceptStartsTheJob : Obligations.AcceptStartsTheJob := by
  intro s w rest hp h
  rw [step_cmdWrite (j := 0) (by decide) h]
  refine ⟨fun hdrop => ?_, fun hidle hw => ?_⟩
  · obtain hbusy | rfl := hdrop
    · exact issueCommand_busy w hbusy
    · exact issueCommand_zero _
  · obtain ⟨job, hjob⟩ := exists_jobOf hw
    exact ⟨job, hjob, issueCommand_starts (s := { s with inbox := rest, readData := none }) hp hidle hjob⟩

/-! ### What a step can do -/

/-- A step delivers an event to the state `u`, which is `s` but for the platform's own fields: nothing more happens to
it, or a cycle passes, or it is reset, or a row other than CMD is written, or a command word is issued. -/
theorem step_cases {s t : State} (h : step s = .next t) :
    ∃ (es : List Event) (d : Option Word), let u : State := { s with inbox := es, readData := d }
      t = u ∨ (∃ es', t = { jobCycle u with inbox := es' }) ∨
      (t = hardReset u ∧ ∃ rest, s.inbox = .reset :: rest) ∨
      (∃ addr v tgt rest, s.inbox = .write addr v :: rest ∧ t = writeTarget tgt v u) ∨
      (∃ addr a w rest, s.inbox = .write addr w :: rest ∧ engineOffset s.params addr = some a ∧ targetOf a = .cmd ∧
        issueCommand w u = .next t) := by
  rw [step, stepNext] at h
  split at h
  case h_1 hnil =>
    cases h
    exact ⟨s.inbox, s.readData, .inr (.inl ⟨(jobCycle s).inbox, rfl⟩)⟩
  case h_2 e rest hcons =>
    cases e with
    | read addr =>
      simp only [deliver] at h
      split at h <;> cases h
      · exact ⟨rest, none, .inl rfl⟩
      · exact ⟨rest, _, .inl rfl⟩
    | write addr v =>
      simp only [deliver] at h
      split at h
      case h_1 => cases h; exact ⟨rest, none, .inl rfl⟩
      case h_2 a ha =>
        refine ⟨rest, none, .inr (.inr (.inr ?_))⟩
        obtain ⟨hcmd, e⟩ | ⟨-, e⟩ := hostWrite_cases a v { s with inbox := rest, readData := none }
        · exact .inr ⟨addr, a, v, rest, hcons, ha, hcmd, e.symm.trans h⟩
        · cases e.symm.trans h
          exact .inl ⟨addr, v, targetOf a, rest, hcons, rfl⟩
    | poll addr mask v =>
      simp only [deliver] at h
      split at h
      case h_1 => cases h; exact ⟨rest, none, .inl rfl⟩
      case h_2 a _ =>
        split at h <;> cases h
        · exact ⟨rest, _, .inl rfl⟩
        · exact ⟨rest, _, .inr (.inl ⟨_, rfl⟩)⟩
    | cycle =>
      cases h
      exact ⟨rest, s.readData, .inr (.inl ⟨(jobCycle { s with inbox := rest }).inbox, rfl⟩)⟩
    | reset =>
      cases h
      exact ⟨rest, s.readData, .inr (.inr (.inl ⟨rfl, rest, hcons⟩))⟩

/-- Settles O14: where no event waits a cycle passes, and every event is delivered. -/
theorem everyStepGoesOn : Obligations.EveryStepGoesOn := by
  intro s
  cases h : s.inbox with
  | nil => exact ⟨jobCycle s, by rw [step, stepNext, h]⟩
  | cons e rest =>
    rw [step_of_inbox_cons h]
    exact deliver_next e _

/-! ### The results -/

theorem sameResults_refl (s : State) : SameResults s s := by constructor <;> rfl

theorem sameResults_trans {s t u : State} (h : SameResults s t) (h' : SameResults t u) : SameResults s u where
  phase := h.phase.trans h'.phase
  code := h.code.trans h'.code
  cause := h.cause.trans h'.cause
  lastOp := h.lastOp.trans h'.lastOp
  errOffset := h.errOffset.trans h'.errOffset
  outLen := h.outLen.trans h'.outLen
  outMem := h.outMem.trans h'.outMem
  outSpecified := h.outSpecified.trans h'.outSpecified
  outEpoch := h.outEpoch.trans h'.outEpoch
  table := h.table.trans h'.table

/-- The platform's own fields are no part of the results. -/
theorem sameResults_platform (s : State) (es : List Event) (d : Option Word) :
    SameResults s { s with inbox := es, readData := d } := by constructor <;> rfl

/-- An access that is no command reaches a row other than CMD. -/
theorem targetOf_ne_cmd {p : Params} {addr : Nat} {v a : Word} (ha : engineOffset p addr = some a)
    (h : (Event.write addr v).isCommand p = false) : targetOf a ≠ .cmd := by
  simpa only [Event.isCommand, ha, beq_eq_false_iff_ne] using h

/-- Settles O18: in an idle engine a cycle does nothing, and a write of a row leaves the results alone. -/
theorem resultsStayUntilTheNextCommand : Obligations.ResultsStayUntilTheNextCommand := by
  intro s e hidle hreset hcmd
  have hphase := phase_idle_of_not_busy hidle
  cases e with
  | read addr =>
    simp only [deliver]
    split <;> exact ⟨_, rfl, sameResults_platform s _ _⟩
  | write addr v =>
    simp only [deliver]
    split
    case h_1 => exact ⟨_, rfl, sameResults_platform s _ _⟩
    case h_2 a ha =>
      obtain ⟨hat, -⟩ | ⟨-, e⟩ := hostWrite_cases a v { s with readData := none }
      · exact absurd hat (targetOf_ne_cmd ha hcmd)
      · exact ⟨_, e, sameResults_trans (sameResults_platform s _ _) (writeTarget_sameResults _ v _)⟩
  | poll addr mask v =>
    simp only [deliver]
    split
    case h_1 => exact ⟨_, rfl, sameResults_platform s _ _⟩
    case h_2 a _ =>
      split
      · exact ⟨_, rfl, sameResults_platform s _ _⟩
      · rw [jobCycle_idle (s := hostRead a s) hphase]
        exact ⟨_, rfl, sameResults_platform s _ _⟩
  | cycle => exact ⟨_, rfl, by rw [jobCycle_idle hphase]; exact sameResults_refl s⟩
  | reset => exact absurd rfl hreset

/-! ### The table -/

/-- An ENCODE or DECODE leaves the table alone, however many cycles pass (rule R62). -/
theorem runJob_transform_table {mk : Work → Job} (hmk : IsTransform mk) (n : Nat) {s : State} {w : Work}
    (hp : s.phase = .busy (mk w)) : (runJob n s).table = s.table := by
  induction n generalizing s mk w with
  | zero => rfl
  | succ n ih =>
    have hcycle : (jobCycle s).table = s.table := by
      obtain e | ⟨hload, -⟩ | ⟨hbuild, -⟩ := jobCycle_table_cases s
      · exact e
      · obtain rfl | rfl := hmk <;> cases hp.symm.trans hload
      · obtain rfl | rfl := hmk <;> cases hp.symm.trans hbuild
    rw [runJob_succ]
    obtain ⟨hidle, -⟩ | ⟨_, _, _, -, -, -, e⟩ | ⟨mk', _, w', out, hmk', -, -, -, e⟩ | ⟨_, _, _, -, -, e⟩ :=
      jobCycle_cases s
    · cases hp.symm.trans hidle
    · rw [runJob_idle n (e ▸ rfl), hcycle]
    · exact (ih hmk' (e ▸ emitJob_phase mk' w' out _)).trans hcycle
    · rw [runJob_idle n (e ▸ rfl), hcycle]

/-- What a command does to the table in an idle engine (rules R62, R101, R102). -/
theorem exec_table_cases {i : Instr} {s t : State} (h : s.busy = false) (ht : exec i s = .next t) :
    t.table = s.table ∨ (i = .loadDefault ∧ t.table = predefinedTable) ∨
    (i = .build ∧ configProblem s.alpha s.alphaLen s.delim = none ∧ t.table = install s.alpha s.delim) := by
  cases i with
  | nop => cases ht; exact .inl rfl
  | build =>
    cases hc : configProblem s.alpha s.alphaLen s.delim with
    | some c => cases (exec_build_of_problem h hc).symm.trans ht; exact .inl rfl
    | none => cases (exec_build_of_passed h hc).symm.trans ht; exact .inr (.inr ⟨rfl, rfl, rfl⟩)
  | loadDefault =>
    obtain ⟨-, -, hexec⟩ := loadDefaultInstallsThePredefinedTable
    obtain ⟨d, e⟩ := hexec s h
    cases e.symm.trans ht
    exact .inr (.inl ⟨rfl, rfl⟩)
  | encode =>
    cases ht
    rw [runCommand_idle _ _ h]
    exact .inl (runJob_transform_table (.inl rfl) _ (accept_phase _ _ s))
  | decode =>
    cases ht
    rw [runCommand_idle _ _ h]
    exact .inl (runJob_transform_table (.inr rfl) _ (accept_phase _ _ s))

/-- What the issue of a word does to the table: an atomic BUILD or LOAD_DEFAULT in an idle engine may install one. -/
theorem issueCommand_table_cases {w : Word} {s t : State} (ht : issueCommand w s = .next t) :
    t.table = s.table ∨
    (s.busy = false ∧ s.params.pacing = .atomic ∧
      ((decodeCmd w = .instr .loadDefault ∧ t.table = predefinedTable) ∨
        (decodeCmd w = .instr .build ∧ configProblem s.alpha s.alphaLen s.delim = none ∧
          t.table = install s.alpha s.delim))) := by
  cases hb : s.busy with
  | true => cases (issueCommand_busy w hb).symm.trans ht; exact .inl rfl
  | false =>
    cases hp : s.params.pacing with
    | clocked =>
      obtain rfl | hw := eq_or_ne w 0
      · cases (issueCommand_zero s).symm.trans ht; exact .inl rfl
      · obtain ⟨j, hj⟩ := exists_jobOf hw
        cases (issueCommand_starts hp hb hj).symm.trans ht
        exact .inl rfl
    | atomic =>
      cases hd : decodeCmd w with
      | illegal c =>
        cases ((issueCommand_illegal hp hd).trans (execIllegal_idle w c hb)).symm.trans ht
        exact .inl rfl
      | instr i =>
        obtain e | ⟨rfl, e⟩ | ⟨rfl, hnone, e⟩ := exec_table_cases hb ((issueCommand_legal hp hd).symm.trans ht)
        · exact .inl e
        · exact .inr ⟨rfl, rfl, .inl ⟨rfl, e⟩⟩
        · exact .inr ⟨rfl, rfl, .inr ⟨rfl, hnone, e⟩⟩

/-- Settles O37: a cycle, a reset or the issue of a word, and no other part of a step, may change the table. -/
theorem onlyBuildDefaultAndResetChangeTheTable : Obligations.OnlyBuildDefaultAndResetChangeTheTable := by
  intro s t ht
  obtain ⟨es, d, rfl | ⟨es', rfl⟩ | ⟨rfl, hreset⟩ | ⟨_, v, tgt, _, -, rfl⟩ | ⟨addr, a, w, rest, hin, ha, hcmd, e⟩⟩ :=
    step_cases ht
  · exact .inl rfl
  · obtain e | ⟨hp, e⟩ | ⟨hp, hnone, e⟩ := jobCycle_table_cases { s with inbox := es, readData := d }
    · exact .inl e
    · exact .inr (.inl ⟨e, .inr (.inl hp)⟩)
    · obtain ⟨hlen, hok⟩ := alphabetOk_of_configProblem hnone
      exact .inr (.inr ⟨e, hlen, hok, .inl hp⟩)
  · exact .inr (.inl ⟨rfl, .inl hreset⟩)
  · exact .inl (writeTarget_table tgt v _)
  · obtain e | ⟨hb, hp, ⟨hd, e⟩ | ⟨hd, hnone, e⟩⟩ := issueCommand_table_cases e
    · exact .inl e
    · exact .inr (.inl ⟨e, .inr (.inr ⟨hb, hp, addr, a, w, rest, hin, ha, hcmd, hd⟩)⟩)
    · obtain ⟨hlen, hok⟩ := alphabetOk_of_configProblem hnone
      exact .inr (.inr ⟨e, hlen, hok, .inr ⟨hb, hp, addr, a, w, rest, hin, ha, hcmd, hd⟩⟩)

/-! ### The inputs -/

/-- The inputs of jobs are as before: IN with its unwritten bytes, IN_LEN and the staging registers. -/
def SameInputs (s t : State) : Prop :=
  t.inMem = s.inMem ∧ t.inEpoch = s.inEpoch ∧ t.inLen = s.inLen ∧ t.alpha = s.alpha ∧
    t.alphaLen = s.alphaLen ∧ t.delim = s.delim

theorem sameInputs_refl (s : State) : SameInputs s s := ⟨rfl, rfl, rfl, rfl, rfl, rfl⟩

theorem SameInputs.cycle {s t : State} (h : SameInputs s t) : SameInputs s (jobCycle t) := by
  obtain ⟨hmem, hepoch, hlen, halpha, halphaLen, hdelim⟩ := h
  have hc := jobCycle_sameHost t
  exact ⟨hc.inMem.trans hmem, hc.inEpoch.trans hepoch, hc.inLen.trans hlen, hc.alpha.trans halpha,
    hc.alphaLen.trans halphaLen, hc.delim.trans hdelim⟩

/-- No command changes an input of jobs (rule R62). -/
theorem issueCommand_sameInputs {w : Word} {s t : State} (ht : issueCommand w s = .next t) : SameInputs s t := by
  obtain e | ⟨j, w', -, -, e | e⟩ := issueCommand_cases w s <;> cases e.symm.trans ht
  · exact sameInputs_refl s
  · unfold startCommand
    split_ifs
    · exact sameInputs_refl s
    · exact sameInputs_refl s
  · exact runCommand_induct (P := SameInputs s) (fun _ h => h.cycle) j w' (fun _ _ h => h) s (sameInputs_refl s)

/-- Settles O38: of the parts of a step a reset, and a write of a row in an idle engine, alone change an input. -/
theorem onlyHostWritesChangeTheInputs : Obligations.OnlyHostWritesChangeTheInputs := by
  intro s t ht
  obtain ⟨es, d, rfl | ⟨es', rfl⟩ | ⟨-, hreset⟩ | ⟨addr, v, tgt, rest, hin, rfl⟩ | ⟨_, _, _, _, -, -, -, e⟩⟩ :=
    step_cases ht
  · exact .inl (sameInputs_refl s)
  · exact .inl (SameInputs.cycle (t := { s with inbox := es, readData := d }) (sameInputs_refl s))
  · exact .inr (.inl hreset)
  · obtain e | e | e | ⟨hidle, _, _, _, _, _, e, -⟩ :=
      writeTarget_cases tgt v { s with inbox := es, readData := d } <;> rw [e]
    · exact .inl (sameInputs_refl s)
    · exact .inl (sameInputs_refl s)
    · exact .inl (sameInputs_refl s)
    · exact .inr (.inr ⟨hidle, rfl, addr, v, rest, hin⟩)
  · exact .inl (issueCommand_sameInputs (s := { s with inbox := es, readData := d }) e)

end Sys2Proof.Proofs
end

section
/-! PROOFS. DECODE's segments and the bytes they give (rules R153, R160, R162, R165, R167). -/

namespace Sys2Proof.Proofs

open Sys2Proof Sys2Proof.Machine Sys2Proof.Laws

/-! ### Segments -/

/-- The segments joined by delimiters are the stream (rule R153). -/
theorem intercalate_segmentsOf (t : Table) (y : List Byte) : [t.delim].intercalate (segmentsOf t y) = y := by
  induction y with
  | nil => rfl
  | cons b y ih =>
    obtain ⟨seg, rest, hsegs⟩ := List.exists_cons_of_ne_nil (segmentsOf_ne_nil t y)
    rw [hsegs] at ih
    by_cases hb : b = t.delim
    · have hsplit := segmentsOf_append_delim (t := t) (xs := []) (by simp) y
      rw [hb, ← List.nil_append (t.delim :: y), hsplit, hsegs, List.intercalate_cons_cons, ih]
      rfl
    · rw [segmentsOf_cons hb hsegs]
      cases rest with
      | nil => simpa using ih
      | cons seg' rest =>
        rw [List.intercalate_cons_cons] at ih ⊢
        rw [← ih]
        rfl

/-- No segment holds the delimiter (rule R153). -/
theorem delim_not_mem_segmentsOf (t : Table) (y : List Byte) : ∀ seg ∈ segmentsOf t y, t.delim ∉ seg := by
  induction y with
  | nil => simp [segmentsOf]
  | cons b y ih =>
    obtain ⟨seg, rest, hsegs⟩ := List.exists_cons_of_ne_nil (segmentsOf_ne_nil t y)
    by_cases hb : b = t.delim
    · have hsplit := segmentsOf_append_delim (t := t) (xs := []) (by simp) y
      rw [hb, ← List.nil_append (t.delim :: y), hsplit]
      exact List.forall_mem_cons.2 ⟨List.not_mem_nil, ih⟩
    · rw [hsegs] at ih
      obtain ⟨hseg, hrest⟩ := List.forall_mem_cons.1 ih
      rw [segmentsOf_cons hb hsegs]
      exact List.forall_mem_cons.2 ⟨List.not_mem_cons_of_ne_of_not_mem (Ne.symm hb) hseg, hrest⟩

/-- Settles O48: both parts by induction over the stream. -/
theorem segmentsRejoinToTheStream : Obligations.SegmentsRejoinToTheStream := fun t y =>
  ⟨intercalate_segmentsOf t y, delim_not_mem_segmentsOf t y⟩

/-! ### Groups and triples -/

/-- Settles O49: the number that a group's symbol values join to is the group's, padded. -/
theorem unpackInvertsPack : Obligations.UnpackInvertsPack := fun _ hlen h => unpackGroup_packGroup hlen h

/-- The lead that rule R162 makes of five bits. -/
theorem lead2_of_bits : ∀ d : Byte, d < 0x20 → 0xC0 ≤ 0xC0 ||| d ∧ 0xC0 ||| d ≤ 0xDF ∧ (0xC0 ||| d) &&& 0x1F = d := by
  decide

/-- The lead that rule R162 makes of four bits. -/
theorem lead3_of_bits : ∀ d : Byte, d < 0x10 → 0xE0 ≤ 0xE0 ||| d ∧ 0xE0 ||| d ≤ 0xEF ∧ (0xE0 ||| d) &&& 0x0F = d := by
  decide

/-- The continuation byte that rule R162 makes of six bits. -/
theorem continuation_of_bits : ∀ d : Byte, d < 64 → 0x80 ||| d ≤ 0xBF ∧ (0x80 ||| d) &&& 0x3F = d := by decide

/-- Settles O50: each of rule R162's three forms is a sequence whose leads and continuations carry the values. -/
theorem tripleReencodesToItself : Obligations.TripleReencodesToItself := by
  intro d0 d1 d2 h0 h1 h2
  obtain ⟨hc0, e0⟩ := continuation_of_bits d0 h0
  obtain ⟨hc1, e1⟩ := continuation_of_bits d1 h1
  obtain ⟨hc2, e2⟩ := continuation_of_bits d2 h2
  unfold tripleBytes
  split_ifs with htwo hfour
  · obtain ⟨rfl, hsmall⟩ := htwo
    obtain ⟨hlo, hhi, e⟩ := lead2_of_bits d1 hsmall
    rw [highRunValues_sequence2 hlo hhi hc2, e, e2]
  · rw [highRunValues_sequence4 hc0 hc1 hc2, e0, e1, e2]
  · obtain ⟨hlo, hhi, e⟩ := lead3_of_bits d0 (BitVec.not_le.1 hfour)
    rw [highRunValues_sequence3 hlo hhi hc1 hc2, e, e1, e2]

/-! ### The class of what is decoded -/

/-- The low-segment unpacker gives values of seven bits (rule R160). -/
theorem le_of_mem_unpackGroup {ds : List Nat} {b : Byte} (h : b ∈ unpackGroup ds) : b ≤ 0x7F := by
  obtain ⟨k, -, rfl⟩ := List.mem_map.1 h
  bv_omega

/-- An OR with a byte that has bit 7 set has it set. -/
theorem le_or_of_le : ∀ d : Byte, 0x80 ≤ 0x80 ||| d ∧ 0x80 ≤ 0xC0 ||| d ∧ 0x80 ≤ 0xE0 ||| d := by decide

/-- The triple unpacker gives leads and continuations (rule R162). -/
theorem le_of_mem_tripleBytes {d0 d1 d2 : Byte} : ∀ b ∈ tripleBytes d0 d1 d2, 0x80 ≤ b := by
  obtain ⟨hc0, -, hl0⟩ := le_or_of_le d0
  obtain ⟨hc1, hl1, -⟩ := le_or_of_le d1
  obtain ⟨hc2, -, -⟩ := le_or_of_le d2
  unfold tripleBytes
  split_ifs <;> simp only [List.forall_mem_cons, List.not_mem_nil, false_imp_iff, implies_true, and_true]
  · exact ⟨hl1, hc2⟩
  · exact ⟨by decide, hc0, hc1, hc2⟩
  · exact ⟨hl0, hc1, hc2⟩

/-- Settles O53: group by group, and triple by triple. -/
theorem segmentBytesKeepTheirClass : Obligations.SegmentBytesKeepTheirClass := by
  intro t seg
  refine ⟨fun b hb => ?_, fun b hb => ?_⟩
  · obtain ⟨ds, -, hb⟩ := List.mem_flatMap.1 hb
    exact le_of_mem_unpackGroup hb
  · obtain ⟨ds, -, hb⟩ := List.mem_flatMap.1 hb
    unfold tripleOrNone at hb
    split at hb
    · exact le_of_mem_tripleBytes b hb
    · exact absurd hb List.not_mem_nil

end Sys2Proof.Proofs
end

section
/-! PROOFS. Jobs in progress with the host at work (rules R33, R35, R182, R214): a job completes by itself, no access
reaches it, and a clocked job ends as the atomic one. -/

namespace Sys2Proof.Proofs

open Sys2Proof Sys2Proof.Machine Sys2Proof.Laws

/-! ### Steps in a row -/

/-- A run goes on with the state that its first step answers. -/
theorem run_succ {s t : State} (k : Nat) (h : step s = .next t) : core.run (k + 1) s = core.run k t := by
  have hstep : core.step s = .next t := h
  simp only [Host.Core.run, hstep]

/-- With no event in line every step is a cycle (rule R182). -/
theorem run_of_inbox_nil {s : State} (h : s.inbox = []) (k : Nat) : core.run k s = .next (runJob k s) := by
  induction k generalizing s with
  | zero => rfl
  | succ k ih =>
    have hstep : step s = .next (jobCycle s) := by rw [step, stepNext, h]
    rw [run_succ k hstep, ih ((jobCycle_sameHost s).inbox.trans h), runJob_succ]

/-! ### A job completes -/

/-- The bytes of the input that the job in progress has still to consume. -/
def remaining (s : State) : Nat :=
  match s.work with
  | some w => s.inLen.toNat - w.i.toNat
  | none => 0

theorem remaining_of_work {s : State} {w : Work} (h : s.work = some w) :
    remaining s = s.inLen.toNat - w.i.toNat := by rw [remaining, h]

theorem remaining_le (s : State) : remaining s ≤ s.inLen.toNat := by
  unfold remaining
  split
  · exact Nat.sub_le _ _
  · exact Nat.zero_le _

/-- A cycle of a job completes it or leaves less of the input to consume. -/
theorem jobCycle_progress {s : State} (h : s.busy = true) :
    ((jobCycle s).busy = false ∧ (jobCycle s).done = true) ∨
    ((jobCycle s).busy = true ∧ remaining (jobCycle s) < remaining s) := by
  obtain ⟨hidle, -⟩ | ⟨r, x, tbl, -, -, -, e⟩ | ⟨mk, w, w', out, hmk, hp, hlt, hi, e⟩ | ⟨mk, w, out, -, -, e⟩ :=
    jobCycle_cases s
  · exact absurd ((busy_of_phase_idle hidle).symm.trans h) Bool.false_ne_true
  · rw [e]
    exact .inl ⟨rfl, rfl⟩
  · refine .inr ⟨by rw [e, emitJob_busy], ?_⟩
    rw [e, remaining_of_work (hmk.work (emitJob_phase mk w' out _)), remaining_of_work (hmk.work hp), emitJob_inLen,
      hi, cursor_succ hlt]
    exact Nat.sub_succ_lt_self _ _ hlt
  · rw [e]
    exact .inl ⟨rfl, rfl⟩

/-- One cycle more than there are bytes to consume completes the job. -/
theorem runJob_completes {n : Nat} {s : State} (h : s.busy = true) (hn : remaining s < n) :
    (runJob n s).busy = false ∧ (runJob n s).done = true := by
  induction n generalizing s with
  | zero => exact absurd hn (Nat.not_lt_zero _)
  | succ n ih =>
    rw [runJob_succ]
    obtain ⟨hidle, hdone⟩ | ⟨hbusy, hless⟩ := jobCycle_progress h
    · rw [runJob_idle n (phase_idle_of_not_busy hidle)]
      exact ⟨hidle, hdone⟩
    · exact ih hbusy (by omega)

/-- Settles O15: each cycle but the last leaves less of the input to consume. -/
theorem acceptedJobCompletes : Obligations.AcceptedJobCompletes := by
  intro s h hinbox
  obtain ⟨hidle, hdone⟩ := runJob_completes h (Nat.lt_succ_of_le (remaining_le s))
  exact ⟨_, _, le_rfl, run_of_inbox_nil hinbox _, hidle, hdone⟩

/-- Cycles beyond a job's completion do nothing. -/
theorem runJob_eq_of_completes {n m : Nat} {s : State} (h : s.busy = true) (hn : remaining s < n) (hm : n ≤ m) :
    runJob m s = runJob n s := by
  obtain ⟨k, rfl⟩ := Nat.exists_eq_add_of_le hm
  rw [runJob_add, runJob_idle k (phase_idle_of_not_busy (runJob_completes h hn).1)]

/-! ### What the host can change during a job -/

/-- The state with other values in the fields that a host can change while a job is in progress: CTRL, DONE, and the
platform's own. -/
def hostSeen (irq done : Bool) (d : Option Word) (es : List Event) (s : State) : State :=
  { s with irqEn := irq, done := done, readData := d, inbox := es }

section
variable (irq done : Bool) (d : Option Word) (es : List Event) (s : State)

@[simp] theorem hostSeen_alphaLen : (hostSeen irq done d es s).alphaLen = s.alphaLen := rfl
@[simp] theorem hostSeen_alpha : (hostSeen irq done d es s).alpha = s.alpha := rfl
@[simp] theorem hostSeen_delim : (hostSeen irq done d es s).delim = s.delim := rfl
@[simp] theorem hostSeen_table : (hostSeen irq done d es s).table = s.table := rfl
@[simp] theorem hostSeen_inByte (i : Nat) : (hostSeen irq done d es s).inByte i = s.inByte i := rfl

/-- The host's view of the state after a cycle: a completion sets DONE. -/
def hostSeenAfter (t : State) : State := hostSeen irq (if t.busy then done else true) d es t

/-- BUILD does not look at the host's fields. -/
theorem buildCycle_hostSeen :
    buildCycle (hostSeen irq done d es s) = hostSeenAfter irq done d es (buildCycle s) := by
  unfold buildCycle
  simp only [hostSeen_alpha, hostSeen_alphaLen, hostSeen_delim]
  split <;> rfl

/-- The host's view after one branch or the other, where neither branch looks at the host's fields. -/
theorem ite_hostSeenAfter {c : Prop} {i i' : Decidable c} {a b a' b' : State}
    (ha : a' = hostSeenAfter irq done d es a) (hb : b' = hostSeenAfter irq done d es b) :
    @ite _ c i a' b' = hostSeenAfter irq done d es (@ite _ c i' a b) := by
  by_cases hc : c
  · rw [if_pos hc, if_pos hc, ha]
  · rw [if_neg hc, if_neg hc, hb]

/-- ENCODE does not look at the host's fields. -/
theorem encodeCycle_hostSeen (w : Work) :
    encodeCycle w (hostSeen irq done d es s) = hostSeenAfter irq done d es (encodeCycle w s) := by
  unfold encodeCycle
  refine ite_hostSeenAfter irq done d es rfl (ite_hostSeenAfter irq done d es ?_ rfl)
  simp only [hostSeen_table, hostSeen_inByte]
  split <;> rfl

/-- DECODE does not look at the host's fields. -/
theorem decodeCycle_hostSeen (w : Work) :
    decodeCycle w (hostSeen irq done d es s) = hostSeenAfter irq done d es (decodeCycle w s) := by
  unfold decodeCycle
  refine ite_hostSeenAfter irq done d es rfl (ite_hostSeenAfter irq done d es ?_ ?_)
  · simp only [hostSeen_table, hostSeen_inByte]
    split <;> rfl
  · split <;> rfl

/-- No job looks at the host's fields (rules R33, R62). -/
theorem jobCycle_hostSeen (h : s.busy = true) :
    jobCycle (hostSeen irq done d es s) = hostSeenAfter irq done d es (jobCycle s) := by
  obtain ⟨j, hp⟩ := phase_busy_of_busy h
  rw [jobCycle_busy hp, jobCycle_busy (s := hostSeen irq done d es s) hp]
  cases j with
  | build => exact buildCycle_hostSeen irq done d es { s with draws := s.draws + 1 }
  | encode w => exact encodeCycle_hostSeen irq done d es { s with draws := s.draws + 1 } w
  | decode w => exact decodeCycle_hostSeen irq done d es { s with draws := s.draws + 1 } w
  | loadDefault | illegal c => rfl

end

/-- A cycle of a job sets DONE where it completes the job, and leaves it as it is otherwise (rule R190). -/
theorem jobCycle_done {s : State} (h : s.busy = true) :
    (jobCycle s).done = if (jobCycle s).busy then s.done else true := by
  obtain ⟨hidle, -⟩ | ⟨r, x, tbl, -, -, -, e⟩ | ⟨mk, w, w', out, -, -, -, -, e⟩ | ⟨mk, w, out, -, -, e⟩ :=
    jobCycle_cases s
  · exact absurd ((busy_of_phase_idle hidle).symm.trans h) Bool.false_ne_true
  all_goals rw [e]; rfl

/-- The state with other values in the platform's own fields. -/
def withPlatform (es : List Event) (d : Option Word) (s : State) : State := { s with inbox := es, readData := d }

/-- The platform's own fields play no part in a cycle of a job. -/
theorem jobCycle_withPlatform (es : List Event) (d : Option Word) {s : State} (h : s.busy = true) :
    jobCycle (withPlatform es d s) = withPlatform es d (jobCycle s) := by
  have hseen := jobCycle_hostSeen s.irqEn s.done d es s h
  rw [hostSeenAfter, ← jobCycle_done h] at hseen
  refine hseen.trans ?_
  rw [← (jobCycle_sameHost s).irqEn]
  rfl

end Sys2Proof.Proofs
end

section
/-! PROOFS. The host's poll and its accesses during a job (rules R33, R35, R62, R84, R85): the clocked run of a command
word, and the noninterference of accesses. -/

namespace Sys2Proof.Proofs

open Sys2Proof Sys2Proof.Machine Sys2Proof.Laws

/-! ### WAIT -/

/-- Bit 0 of STATUS is BUSY, which is what WAIT looks at (rules R75, R85). -/
theorem statusWord_and_one (s : State) : s.statusWord &&& 0x1 = bitWord s.busy := by
  obtain ⟨hbusy, -⟩ := statusWordLayout s
  rw [← bitWord_getLsbD_zero, ← hbusy]
  rfl

/-- WAIT delivered: it reads STATUS, and stays in line for another cycle while BUSY is 1 (rules R84, R85). -/
theorem deliver_wait (s : State) : deliver (scriptWait s.params.base) s =
    if s.busy then .next { jobCycle { s with readData := some s.statusWord } with
      inbox := scriptWait s.params.base :: s.inbox }
    else .next { s with readData := some s.statusWord } := by
  have hoff : engineOffset s.params (s.params.base + offStatus) = some 0x010 :=
    engineOffset_base_add _ (by decide)
  have hcond : readTarget (targetOf 0x010) s &&& 0x1 = 0x0 ↔ s.busy = false := by
    change s.statusWord &&& 0x1 = 0x0 ↔ _
    rw [statusWord_and_one]
    cases s.busy <;> decide
  simp only [scriptWait, scriptPoll, deliver, hoff]
  cases hb : s.busy with
  | true => exact if_neg fun h => Bool.false_ne_true ((hcond.1 h).symm.trans hb)
  | false => exact if_pos (hcond.2 hb)

/-- WAIT in an idle engine is done with one read. -/
theorem step_wait_idle {s : State} (h : s.busy = false) (rest : List Event) (d : Option Word) :
    step (withPlatform (scriptWait s.params.base :: rest) d s) =
      .next (withPlatform rest (some s.statusWord) s) := by
  rw [step_of_inbox_cons rfl]
  exact (deliver_wait (withPlatform rest d s)).trans (if_neg (ne_true_of_eq_false h))

/-- WAIT during a job lets a cycle pass. -/
theorem step_wait_busy {s : State} (h : s.busy = true) (rest : List Event) (d : Option Word) :
    step (withPlatform (scriptWait s.params.base :: rest) d s) =
      .next (withPlatform (scriptWait s.params.base :: rest) (some s.statusWord) (jobCycle s)) := by
  rw [step_of_inbox_cons rfl]
  refine (deliver_wait (withPlatform rest d s)).trans ((if_pos h).trans ?_)
  have hcycle := jobCycle_withPlatform rest (some s.statusWord) h
  exact congrArg (fun u : State => Host.Outcome.next { u with inbox := scriptWait s.params.base :: rest }) hcycle

/-- WAIT during a job takes a read for each cycle and one more, and leaves the job completed. -/
theorem run_wait {n : Nat} {s : State} (h : s.busy = true) (hn : remaining s < n) (rest : List Event)
    (d : Option Word) :
    ∃ k ≤ n + 1, core.run k (withPlatform (scriptWait s.params.base :: rest) d s) =
      .next (withPlatform rest (some (runJob n s).statusWord) (runJob n s)) := by
  induction n generalizing s d with
  | zero => exact absurd hn (Nat.not_lt_zero _)
  | succ n ih =>
    have hparams := (jobCycle_sameHost s).params
    have hstep := step_wait_busy h rest d
    rw [← hparams] at hstep
    rw [runJob_succ]
    obtain ⟨hidle, -⟩ | ⟨hbusy, hless⟩ := jobCycle_progress h
    · refine ⟨2, by omega, ?_⟩
      rw [runJob_idle n (phase_idle_of_not_busy hidle), ← hparams, run_succ 1 hstep,
        run_succ 0 (step_wait_idle hidle _ _)]
      rfl
    · obtain ⟨k, hk, hrun⟩ := ih hbusy (by omega) (some s.statusWord)
      refine ⟨k + 1, by omega, ?_⟩
      rw [← hparams, run_succ k hstep, hrun]

/-! ### The clocked run of a word -/

/-- As one atomic transition a word other than 0 runs its job, a legal word and an illegal one. -/
theorem exec_of_jobOf {w : Word} {j : Job} (hj : jobOf (decodeCmd w) = some j) (s : State) :
    (∀ i, decodeCmd w = .instr i → exec i s = .next (runCommand j w s)) ∧
    (∀ c, decodeCmd w = .illegal c → execIllegal w c s = .next (runCommand j w s)) := by
  refine ⟨fun i hi => ?_, fun c hc => ?_⟩
  · rw [hi] at hj
    obtain rfl := (decodeCmd_eq_instr_iff w i).1 hi
    obtain ⟨rfl, -⟩ | ⟨j', hj', e⟩ := exec_cases i s
    · cases hj
    · cases hj.symm.trans hj'
      exact e
  · rw [hc] at hj
    cases hj
    rfl

/-- Settles O16: one step for the write, and WAIT for the rest. -/
theorem clockedRunMatchesTheAtomicCommand : Obligations.ClockedRunMatchesTheAtomicCommand := by
  refine ⟨fun _ _ => rfl, fun s w rest hw hidle hp => ?_⟩
  obtain ⟨j, hj⟩ := exists_jobOf hw
  obtain ⟨hlegal, hillegal⟩ := exec_of_jobOf hj s
  have hremaining : remaining (accept j w s) < s.inLen.toNat + 1 := Nat.lt_succ_of_le (remaining_le _)
  have hatomic : runCommand j w s = runJob (s.inLen.toNat + 1) (accept j w s) := by
    rw [runCommand_idle j w hidle, State.jobFuel,
      runJob_eq_of_completes (accept_busy j w s) hremaining (Nat.le_succ _)]
  have hwrite : step (withPlatform (scriptWr s.params.base offCmd w :: scriptWait s.params.base :: rest) s.readData s) =
      .next (withPlatform (scriptWait s.params.base :: rest) none (accept j w s)) :=
    (step_cmdWrite (j := 0) (by decide) rfl).trans
      (issueCommand_starts (s := withPlatform (scriptWait s.params.base :: rest) none s) hp hidle hj)
  obtain ⟨k, hk, hrun⟩ := run_wait (accept_busy j w s) hremaining rest none
  refine ⟨k + 1, runCommand j w s, by omega, hlegal, hillegal, ?_⟩
  rw [hatomic]
  exact (run_succ k hwrite).trans hrun

/-! ### Accesses during and after a job -/

/-- A host access other than to CMD changes the read data and at most one row (rules R11, R56). -/
theorem deliver_access_cases {e : Event} {s : State} (he : e.isAccess = true) (hc : e.isCommand s.params = false) :
    (∃ d, deliver e s = .next { s with readData := d }) ∨
    (∃ tgt v, deliver e s = .next (writeTarget tgt v { s with readData := none })) := by
  cases e with
  | read addr =>
    simp only [deliver]
    split <;> exact .inl ⟨_, rfl⟩
  | write addr v =>
    simp only [deliver]
    split
    case h_1 => exact .inl ⟨_, rfl⟩
    case h_2 a ha =>
      obtain ⟨hat, -⟩ | ⟨-, e⟩ := hostWrite_cases a v { s with readData := none }
      · exact absurd hat (targetOf_ne_cmd ha hc)
      · exact .inr ⟨_, _, e⟩
  | poll _ _ _ | cycle | reset => cases he

/-- A write of a row leaves the line of events alone. -/
theorem writeTarget_inbox (t : Target) (v : Word) (s : State) : (writeTarget t v s).inbox = s.inbox := by
  obtain e | e | e | ⟨-, _, _, _, _, _, e, -⟩ := writeTarget_cases t v s <;>
    exact (congrArg State.inbox e).trans rfl

/-- A host access other than to CMD leaves the results, the parameters and the line of events alone. -/
theorem deliver_access {e : Event} {s : State} (he : e.isAccess = true) (hc : e.isCommand s.params = false) :
    ∃ t, deliver e s = .next t ∧ SameResults s t ∧ t.params = s.params ∧ t.inbox = s.inbox := by
  obtain ⟨d, h⟩ | ⟨tgt, v, h⟩ := deliver_access_cases he hc
  · exact ⟨_, h, sameResults_platform s s.inbox d, rfl, rfl⟩
  · exact ⟨_, h, sameResults_trans (sameResults_platform s s.inbox none) (writeTarget_sameResults tgt v _),
      writeTarget_params tgt v _, writeTarget_inbox tgt v _⟩

/-- During a job a write of a row reaches CTRL and DONE alone (rules R11, R214). -/
theorem writeTarget_hostSeen (t : Target) (v : Word) {s : State} (h : s.busy = true) :
    ∃ irq done, writeTarget t v s = hostSeen irq done s.readData s.inbox s := by
  obtain e | e | e | ⟨hidle, -⟩ := writeTarget_cases t v s
  · exact ⟨s.irqEn, s.done, e⟩
  · exact ⟨_, s.done, e⟩
  · exact ⟨s.irqEn, _, e⟩
  · exact absurd (hidle.symm.trans h) Bool.false_ne_true

/-- During a job an access changes what the host can change alone. -/
theorem deliver_access_hostSeen {e : Event} {s : State} (hb : s.busy = true) (he : e.isAccess = true)
    (hc : e.isCommand s.params = false) :
    ∃ irq done d, deliver e s = .next (hostSeen irq done d s.inbox s) := by
  obtain ⟨d, h⟩ | ⟨tgt, v, h⟩ := deliver_access_cases he hc
  · exact ⟨s.irqEn, s.done, d, h⟩
  · obtain ⟨irq, done, hw⟩ := writeTarget_hostSeen tgt v (s := { s with readData := none }) hb
    exact ⟨irq, done, none, h.trans (congrArg _ hw)⟩

/-- The events are host accesses other than to CMD, and cycles. -/
def AccessesAndCycles (p : Params) (es : List Event) : Prop :=
  ∀ e ∈ es, (e.isAccess = true ∨ e = .cycle) ∧ e.isCommand p = false

/-- Accesses and cycles in an idle engine leave the results in place (rule R59). -/
theorem run_accesses_idle {es : List Event} {s : State} (h : s.busy = false) (hes : AccessesAndCycles s.params es)
    (hinbox : s.inbox = es) : ∃ t, core.run es.length s = .next t ∧ SameResults s t := by
  induction es generalizing s with
  | nil => exact ⟨s, rfl, sameResults_refl s⟩
  | cons e es ih =>
    obtain ⟨⟨he, hc⟩, hes⟩ := List.forall_mem_cons.1 hes
    suffices H : ∃ u, step s = .next u ∧ SameResults s u ∧ u.params = s.params ∧ u.inbox = es by
      obtain ⟨u, hstep, hsame, hparams, hu⟩ := H
      obtain ⟨t, hrun, ht⟩ := ih ((busy_congr hsame.phase.symm).trans h) (hparams ▸ hes) hu
      exact ⟨t, (run_succ _ hstep).trans hrun, sameResults_trans hsame ht⟩
    rw [step_of_inbox_cons hinbox]
    obtain he | rfl := he
    · obtain ⟨u, hu, hsame, hparams, hbox⟩ := deliver_access (s := { s with inbox := es }) he hc
      exact ⟨u, hu, sameResults_trans (sameResults_platform s es s.readData) hsame, hparams, hbox⟩
    · refine ⟨_, rfl, ?_⟩
      rw [jobCycle_idle (s := { s with inbox := es }) (phase_idle_of_not_busy h)]
      exact ⟨sameResults_platform s es s.readData, rfl, rfl⟩

/-- Accesses during a job, and after it, leave the results to its cycles alone. -/
theorem run_accesses_busy {es : List Event} {s : State} (h : s.busy = true) (hes : AccessesAndCycles s.params es)
    (hn : remaining s < es.count .cycle) (irq done : Bool) (d : Option Word) :
    ∃ t, core.run es.length (hostSeen irq done d es s) = .next t ∧
      SameResults (runJob (es.count .cycle) s) t := by
  induction es generalizing s irq done d with
  | nil => exact absurd hn (Nat.not_lt_zero _)
  | cons e es ih =>
    obtain ⟨⟨he, hc⟩, hrest⟩ := List.forall_mem_cons.1 hes
    have hdeliver : step (hostSeen irq done d (e :: es) s) = deliver e (hostSeen irq done d es s) :=
      step_of_inbox_cons rfl
    obtain he | rfl := he
    · have hne : e ≠ .cycle := by rintro rfl; cases he
      rw [List.count_cons_of_ne hne] at hn ⊢
      obtain ⟨irq', done', d', e'⟩ := deliver_access_hostSeen (s := hostSeen irq done d es s) h he hc
      obtain ⟨t, hrun, ht⟩ := ih h hrest hn irq' done' d'
      exact ⟨t, (run_succ _ (hdeliver.trans e')).trans hrun, ht⟩
    · rw [List.count_cons_self] at hn ⊢
      have hstep := hdeliver.trans (congrArg Host.Outcome.next (jobCycle_hostSeen irq done d es s h))
      have hnext : AccessesAndCycles (jobCycle s).params es := (jobCycle_sameHost s).params ▸ hrest
      rw [runJob_succ]
      obtain ⟨hidle, -⟩ | ⟨hbusy, hless⟩ := jobCycle_progress h
      · rw [runJob_idle _ (phase_idle_of_not_busy hidle)]
        obtain ⟨t, hrun, ht⟩ := run_accesses_idle (s := hostSeenAfter irq done d es (jobCycle s)) hidle hnext rfl
        exact ⟨t, (run_succ _ hstep).trans hrun, sameResults_trans (by constructor <;> rfl) ht⟩
      · obtain ⟨t, hrun, ht⟩ := ih hbusy hnext (by omega) irq (if (jobCycle s).busy then done else true) d
        exact ⟨t, (run_succ _ hstep).trans hrun, ht⟩

/-- Settles O17: the cycles of the job, with the accesses between them, do what they do alone. -/
theorem jobResultIgnoresHostAccesses : Obligations.JobResultIgnoresHostAccesses := by
  intro s es h hes hcycles
  have hfuel : remaining s < s.jobFuel := (remaining_le s).trans_lt (Nat.lt_add_of_pos_right (by decide))
  rw [← runJob_eq_of_completes h hfuel hcycles]
  exact run_accesses_busy h hes (hfuel.trans_le hcycles) s.irqEn s.done s.readData

end Sys2Proof.Proofs
end

section
/-! PROOFS. The script LOADIN (rules R31, R85): the writes of its words into IN, and of their count into IN_LEN. -/

namespace Sys2Proof.Proofs

open Sys2Proof Sys2Proof.Machine Sys2Proof.Laws

/-! ### Runs of host writes -/

/-- A run of steps, and steps from where it ends. -/
theorem run_add {k : Nat} {s u : State} (h : core.run k s = .next u) (n : Nat) :
    core.run (k + n) s = core.run n u := by
  induction k generalizing s with
  | zero => cases h; rw [Nat.zero_add]
  | succ k ih =>
    obtain ⟨t, ht⟩ := everyStepGoesOn s
    rw [run_succ k ht] at h
    rw [Nat.succ_add, run_succ _ ht, ih h]

/-- A host write at an offset of the map, to a row other than CMD, as a step. -/
theorem step_write_row (s : State) {off : Nat} (hoff : off < 0x08000000) {tgt : Target}
    (htgt : targetOf (BitVec.ofNat 32 off) = tgt) (hcmd : tgt ≠ .cmd) (v : Word) (rest : List Event) (d : Option Word) :
    step (withPlatform (scriptWr s.params.base off v :: rest) d s) =
      .next (writeTarget tgt v (withPlatform rest none s)) := by
  rw [step_of_inbox_cons rfl]
  have haddr : engineOffset s.params (s.params.base + off) = some (BitVec.ofNat 32 off) :=
    engineOffset_base_add _ hoff
  have hdeliver : deliver (scriptWr s.params.base off v) (withPlatform rest d s) =
      hostWrite (BitVec.ofNat 32 off) v (withPlatform rest none s) := by
    rw [scriptWr, deliver, show (withPlatform rest d s).params = s.params from rfl, haddr]
    rfl
  refine hdeliver.trans ?_
  obtain ⟨hat, -⟩ | ⟨-, e⟩ := hostWrite_cases (BitVec.ofNat 32 off) v (withPlatform rest none s)
  · exact absurd (htgt.symm.trans hat) hcmd
  · rw [e, htgt]

/-! ### The words of IN -/

/-- IN after the writes of the first `n` words of the byte string (rule R85). -/
def fillWords (cap : Nat) (x : List Byte) : Nat → Memory → Memory
  | 0, m => m
  | n + 1, m => writeLanes cap n (packedWord x n) 4 (fillWords cap x n m)

/-- Lane j of word k of the byte string (rules R53, R85). -/
theorem laneOf_packedWord (x : List Byte) (k : Nat) {j : Nat} (hj : j < 4) :
    laneOf (packedWord x k) j = x.getD (4 * k + j) 0 := lane_windowWord _ k hj

/-- What the writes leave in IN: the string with zeros behind it, up to the end of the last word or IN_CAP. -/
theorem read_fillWords (cap : Nat) (x : List Byte) (n : Nat) (m : Memory) (i : Nat) :
    (fillWords cap x n m).read i = if i < 4 * n ∧ i < cap then some (x.getD i 0) else m.read i := by
  induction n with
  | zero => simp [fillWords]
  | succ n ih =>
    rw [fillWords, read_writeLanes_word, ih, laneOf_packedWord x n (Nat.mod_lt _ (by decide))]
    by_cases hword : i / 4 = n ∧ i < cap
    · obtain ⟨hword, hcap⟩ := hword
      rw [if_pos ⟨hword, hcap⟩, if_pos ⟨by omega, hcap⟩, show 4 * n + i % 4 = i by omega]
    · rw [if_neg hword]
      exact if_congr (by omega) rfl rfl

/-- The word k of the IN window is at its offset (rule R10). -/
theorem targetOf_inWin {k : Nat} (hk : k < 2 ^ 22) : targetOf (BitVec.ofNat 32 (offIn + 4 * k)) = .inWin k := by
  rw [offIn, targetOf_ofNat (by omega)]
  grind

/-- The writes of the first `n` words, delivered to an idle engine. -/
theorem run_fillWords {s : State} (h : s.busy = false) (x : List Byte) {n : Nat} (hn : n ≤ 2 ^ 22) (rest : List Event)
    (d : Option Word) :
    ∃ d', core.run n (withPlatform ((List.range n).map
        (fun k => scriptWr s.params.base (offIn + 4 * k) (packedWord x k)) ++ rest) d s) =
      .next (withPlatform rest d' { s with inMem := fillWords s.params.cap x n s.inMem }) := by
  induction n generalizing rest with
  | zero => exact ⟨d, rfl⟩
  | succ n ih =>
    obtain ⟨d', hrun⟩ := ih (by omega) (scriptWr s.params.base (offIn + 4 * n) (packedWord x n) :: rest)
    have hstep := step_write_row { s with inMem := fillWords s.params.cap x n s.inMem } (by rw [offIn]; omega)
      (targetOf_inWin (k := n) (by omega)) nofun (packedWord x n) rest d'
    refine ⟨none, ?_⟩
    rw [List.range_succ, List.map_append, List.append_assoc]
    refine (run_add hrun 1).trans ((run_succ 0 hstep).trans ?_)
    exact congrArg Host.Outcome.next (writeTarget_inWin (by exact h) n (packedWord x n))

/-- Settles O36: the words of the string, then their count. -/
theorem loadInScriptLoadsTheInput : Obligations.LoadInScriptLoadsTheInput := by
  intro s x rest h hfits
  have hcap := cap_le s.params
  have hcount : (BitVec.ofNat 32 x.length).toNat = x.length := Nat.mod_eq_of_lt (by omega)
  have hread := read_fillWords s.params.cap x (wordsFor x.length) s.inMem
  refine ⟨fillWords s.params.cap x (wordsFor x.length) s.inMem, ?_, ?_, hread⟩
  · have hwords : wordsFor x.length ≤ 2 ^ 22 := by rw [wordsFor]; omega
    obtain ⟨d, hrun⟩ := run_fillWords h x hwords
      (scriptWr s.params.base offInLen (BitVec.ofNat 32 x.length) :: rest) s.readData
    have hstep := step_write_row { s with inMem := fillWords s.params.cap x (wordsFor x.length) s.inMem }
      (off := offInLen) (by decide) (tgt := .inLen) rfl (by decide) (BitVec.ofNat 32 x.length) rest d
    have hlength : (scriptLoadIn s.params.base x).length = wordsFor x.length + 1 := by
      simp [scriptLoadIn, scriptFill]
    rw [hlength, scriptLoadIn, scriptFill, List.append_assoc]
    refine (run_add hrun 1).trans ((run_succ 0 hstep).trans ?_)
    exact congrArg Host.Outcome.next (writeTarget_inLen (by exact h) (BitVec.ofNat 32 x.length))
  · refine input_eq_of_read hcount fun k hk => (hread k).trans ?_
    rw [if_pos ⟨by rw [wordsFor]; omega, by omega⟩, List.getElem?_eq_getElem hk, List.getD_eq_getElem _ _ hk]

end Sys2Proof.Proofs
end
